-- ==== Sys2Proof/Word.lean ====
section
/-! DEFINITION. The widths of the spec (00_scope.md R7, R8, R9): a data byte, a word of the host encoding, a line level. -/

namespace Sys2Proof

/-- A data byte (R7). -/
abbrev Byte := BitVec 8

/-- A word of the host encoding: CMD, MD, RSP0, RSP1, RSP2 (R100, R102, R106). -/
abbrev Word := BitVec 32

/-- A line level or a bit on the wire: `true` is 1, high, and `false` is 0, low (R9). -/
abbrev Level := Bool

end Sys2Proof
end

