-- ==== Sys2Proof/Syntax.lean ====
section
/-! DEFINITION. What a host says to the block: the command record as it is handed over (30_encoding.md R100), the
messages (10_state.md R35) and the eleven commands of the opcode map (R109), one constructor per row. -/

namespace Sys2Proof

/-- A command record (R100): the command word, the message descriptors, and the Write payloads, which follow the
descriptors in descriptor order (R104). The host hands it over whole. -/
structure Record where
  cmd         : Word
  descriptors : List Word
  payload     : List Byte
  deriving DecidableEq, Repr

/-- One message (R35): a Write message carries its payload, a Read message the number of bytes to receive. -/
inductive Message where
  | write (address : BitVec 7) (noStart : Bool) (payload : List Byte)
  | read  (address : BitVec 7) (noStart : Bool) (len : BitVec 16)
  deriving DecidableEq, Repr

/-- The commands (R109), operands as R101 and R103 assemble them. -/
inductive Instr where
  /-- START (R141). -/
  | start
  /-- STOP (R142). -/
  | stop
  /-- WRBIT b (R160). -/
  | wrbit (b : Bool)
  /-- RDBIT (R161). -/
  | rdbit
  /-- WRBYTE d (R180). -/
  | wrbyte (d : Byte)
  /-- RDBYTE with its `send_ack` (R181). -/
  | rdbyte (sendAck : Bool)
  /-- RESET (R143). -/
  | reset
  /-- XFER chain, messages (R200). -/
  | xfer (chain : Bool) (msgs : List Message)
  /-- MUXSEL c (R240). -/
  | muxsel (channel : Byte)
  /-- MUXXFER c, chain, messages (R241). -/
  | muxxfer (channel : Byte) (chain : Bool) (msgs : List Message)
  /-- GETSTATE (R144). -/
  | getstate
  deriving DecidableEq, Repr

end Sys2Proof
end

