-- ==== Sys2Proof/WellFormed.lean ====
section
/-! DEFINITION. Which commands have an encoding: the operand sizes that the fields of a record can carry
(30_encoding.md R101: `N` is 8 bits; R102: `LEN` is 16 bits; D44). Every other operand fits its field by its type. -/

namespace Sys2Proof

/-- A Write payload is at most 65535 bytes: `LEN` has 16 bits (R102, R73). A Read length has the field's width. -/
def Message.wellFormed : Message → Bool
  | .write _ _ payload => decide (payload.length < 65536)
  | .read _ _ _ => true

/-- At most 255 messages, `N` having 8 bits (R101), each of them well formed. -/
def messagesWellFormed (msgs : List Message) : Bool :=
  decide (msgs.length < 256) && msgs.all (·.wellFormed)

/-- The command has a record that encodes it. -/
def Instr.wellFormed : Instr → Bool
  | .xfer _ msgs => messagesWellFormed msgs
  | .muxxfer _ _ msgs => messagesWellFormed msgs
  | .start | .stop | .wrbit _ | .rdbit | .wrbyte _ | .rdbyte _ | .reset | .muxsel _ | .getstate => true

end Sys2Proof
end

