-- ==== Sys2Proof/Decode.lean ====
section
/-! DEFINITION. From a command record to a command, or to the reason why it is malformed (30_encoding.md R100-R104,
R109-R111), and from a command to its record. Case (e) of R110, a mux command on a block without a mux, depends on the
configuration and stands in the mux commands' meanings (log entry 10). -/

namespace Sys2Proof

/-! ## Fields of the command word (R101) and of a message descriptor (R102) -/

/-- `OP` = CMD[31:28]. -/
def opField (cmd : Word) : BitVec 4 := cmd.extractLsb' 28 4
/-- `B` = CMD[16]. -/
def bField (cmd : Word) : Bool := cmd.getLsbD 16
/-- `N` = CMD[15:8]. -/
def nField (cmd : Word) : Byte := cmd.extractLsb' 8 8
/-- `D` = CMD[7:0]. -/
def dField (cmd : Word) : Byte := cmd.extractLsb' 0 8

/-- `LEN` = MD[31:16]. -/
def lenField (md : Word) : BitVec 16 := md.extractLsb' 16 16
/-- `RSV` = MD[15:9]. -/
def rsvField (md : Word) : BitVec 7 := md.extractLsb' 9 7
/-- `NS` = MD[8]. -/
def nsField (md : Word) : Bool := md.getLsbD 8
/-- `ADDR` = MD[7:1]. -/
def addrField (md : Word) : BitVec 7 := md.extractLsb' 1 7
/-- `RW` = MD[0]: 1 is Read, 0 is Write. -/
def rwField (md : Word) : Bool := md.getLsbD 0

/-! ## The opcode map (R109) -/

/-- The opcodes that are not reserved. -/
inductive Opcode where
  | start | stop | wrbit | rdbit | wrbyte | rdbyte | reset | xfer | muxsel | muxxfer | getstate
  deriving DecidableEq, Repr

/-- `OP` to opcode; 0x0 and 0xC to 0xF are reserved (R111). -/
def opcodeOf (op : BitVec 4) : Option Opcode :=
  match op.toNat with
  | 0x1 => some .start
  | 0x2 => some .stop
  | 0x3 => some .wrbit
  | 0x4 => some .rdbit
  | 0x5 => some .wrbyte
  | 0x6 => some .rdbyte
  | 0x7 => some .reset
  | 0x8 => some .xfer
  | 0x9 => some .muxsel
  | 0xA => some .muxxfer
  | 0xB => some .getstate
  | _ => none

/-- The match column of R109. -/
def Opcode.pattern : Opcode → Word
  | .start    => 0x10000000#32
  | .stop     => 0x20000000#32
  | .wrbit    => 0x30000000#32
  | .rdbit    => 0x40000000#32
  | .wrbyte   => 0x50000000#32
  | .rdbyte   => 0x60000000#32
  | .reset    => 0x70000000#32
  | .xfer     => 0x80000000#32
  | .muxsel   => 0x90000000#32
  | .muxxfer  => 0xA0000000#32
  | .getstate => 0xB0000000#32

/-- The mask column of R109: the bits that must equal the match bits. -/
def Opcode.mask : Opcode → Word
  | .start    => 0xFFFFFFFF#32
  | .stop     => 0xFFFFFFFF#32
  | .wrbit    => 0xFFFEFFFF#32
  | .rdbit    => 0xFFFFFFFF#32
  | .wrbyte   => 0xFFFFFF00#32
  | .rdbyte   => 0xFFFEFFFF#32
  | .reset    => 0xFFFFFFFF#32
  | .xfer     => 0xFFFE00FF#32
  | .muxsel   => 0xFFFFFF00#32
  | .muxxfer  => 0xFFFE0000#32
  | .getstate => 0xFFFFFFFF#32

/-! ## Decoding -/

/-- Why a record is malformed (R110). -/
inductive Malformed where
  /-- (a) `OP` is 0x0 or 0xC to 0xF. -/
  | reservedOpcode
  /-- (b) `CMD` does not match its opcode row under the mask. -/
  | reservedField
  /-- (c) a descriptor has MD[15:9] not 0. -/
  | descriptorReserved
  /-- (d) the operand list is not exactly as long as R104 requires. -/
  | operandLength
  deriving DecidableEq, Repr

/-- The messages that the descriptors name, each Write message taking its `LEN` bytes from the payload in order
(R103, R104), and the payload bytes left over; `none` where the payload is too short. -/
def takeMessages : List Word → List Byte → Option (List Message × List Byte)
  | [], bytes => some ([], bytes)
  | md :: mds, bytes =>
    if rwField md then
      (takeMessages mds bytes).map fun (msgs, rest) =>
        (.read (addrField md) (nsField md) (lenField md) :: msgs, rest)
    else if bytes.length < (lenField md).toNat then none
    else
      (takeMessages mds (bytes.drop (lenField md).toNat)).map fun (msgs, rest) =>
        (.write (addrField md) (nsField md) (bytes.take (lenField md).toNat) :: msgs, rest)

/-- The operand list of XFER and MUXXFER: exactly `N` descriptors, reserved bits 0, and exactly the payload bytes
that the Write descriptors call for (R104, R110). -/
def decodeMessages (r : Record) : Except Malformed (List Message) :=
  if r.descriptors.length ≠ (nField r.cmd).toNat then .error .operandLength
  else if r.descriptors.any (fun md => rsvField md != 0#7) then .error .descriptorReserved
  else
    match takeMessages r.descriptors r.payload with
    | some (msgs, []) => .ok msgs
    | _ => .error .operandLength

/-- A command that is the single word CMD (R104). -/
def decodeAlone (r : Record) (i : Instr) : Except Malformed Instr :=
  if r.descriptors.isEmpty && r.payload.isEmpty then .ok i else .error .operandLength

/-- The decoder (R109, R110), total on records. -/
def decode (r : Record) : Except Malformed Instr :=
  match opcodeOf (opField r.cmd) with
  | none => .error .reservedOpcode
  | some op =>
    if r.cmd &&& op.mask ≠ op.pattern then .error .reservedField
    else
      match op with
      | .start    => decodeAlone r .start
      | .stop     => decodeAlone r .stop
      | .wrbit    => decodeAlone r (.wrbit (bField r.cmd))
      | .rdbit    => decodeAlone r .rdbit
      | .wrbyte   => decodeAlone r (.wrbyte (dField r.cmd))
      | .rdbyte   => decodeAlone r (.rdbyte (bField r.cmd))
      | .reset    => decodeAlone r .reset
      | .xfer     => (decodeMessages r).map (.xfer (bField r.cmd))
      | .muxsel   => decodeAlone r (.muxsel (dField r.cmd))
      | .muxxfer  => (decodeMessages r).map (.muxxfer (dField r.cmd) (bField r.cmd))
      | .getstate => decodeAlone r .getstate

/-! ## Encoding -/

/-- A command word from its fields, the reserved ones 0 (R101). -/
def cmdWord (op : BitVec 4) (b : Bool) (n d : Byte) : Word :=
  op ++ 0#11 ++ BitVec.ofBool b ++ n ++ d

/-- A message descriptor from its fields, the reserved ones 0 (R102). -/
def mdWord (len : BitVec 16) (ns : Bool) (addr : BitVec 7) (rw : Bool) : Word :=
  len ++ 0#7 ++ BitVec.ofBool ns ++ addr ++ BitVec.ofBool rw

/-- The descriptor of a message (R102, R113). -/
def Message.descriptor : Message → Word
  | .write a ns payload => mdWord (BitVec.ofNat 16 payload.length) ns a false
  | .read a ns len => mdWord len ns a true

/-- The payload bytes a message adds to the record: a Read message has none (R104). -/
def Message.payloadBytes : Message → List Byte
  | .write _ _ payload => payload
  | .read _ _ _ => []

/-- A command that is one word. -/
def wordRecord (cmd : Word) : Record := ⟨cmd, [], []⟩

/-- The record of a command: its word, its descriptors, its payloads in descriptor order (R104, R113). -/
def encode : Instr → Record
  | .start          => wordRecord (cmdWord 0x1#4 false 0#8 0#8)
  | .stop           => wordRecord (cmdWord 0x2#4 false 0#8 0#8)
  | .wrbit b        => wordRecord (cmdWord 0x3#4 b 0#8 0#8)
  | .rdbit          => wordRecord (cmdWord 0x4#4 false 0#8 0#8)
  | .wrbyte d       => wordRecord (cmdWord 0x5#4 false 0#8 d)
  | .rdbyte a       => wordRecord (cmdWord 0x6#4 a 0#8 0#8)
  | .reset          => wordRecord (cmdWord 0x7#4 false 0#8 0#8)
  | .xfer chain ms  => ⟨cmdWord 0x8#4 chain (BitVec.ofNat 8 ms.length) 0#8, ms.map (·.descriptor), ms.flatMap (·.payloadBytes)⟩
  | .muxsel c       => wordRecord (cmdWord 0x9#4 false 0#8 c)
  | .muxxfer c chain ms =>
    ⟨cmdWord 0xA#4 chain (BitVec.ofNat 8 ms.length) c, ms.map (·.descriptor), ms.flatMap (·.payloadBytes)⟩
  | .getstate       => wordRecord (cmdWord 0xB#4 false 0#8 0#8)

/-! ## A record laid out as one number

The spec leaves the carrying of a record over a host bus open (R100, D10). The layout used here, and only here: bit 0
of the number is bit 0 of CMD, the descriptors follow from bit 32 on, and the payload bytes after the last descriptor
(the order of R104; DESIGN CHOICE, log entry 8). -/

/-- The first `n` 32-bit words of a number, least significant first. -/
def wordsOf : Nat → Nat → List Word
  | 0, _ => []
  | n + 1, w => BitVec.ofNat 32 w :: wordsOf n (w / 2 ^ 32)

/-- The first `n` bytes of a number, least significant first. -/
def bytesOf : Nat → Nat → List Byte
  | 0, _ => []
  | n + 1, w => BitVec.ofNat 8 w :: bytesOf n (w / 2 ^ 8)

/-- How many descriptors follow a command word (R104). -/
def descriptorCount (cmd : Word) : Nat :=
  match opcodeOf (opField cmd) with
  | some .xfer | some .muxxfer => (nField cmd).toNat
  | _ => 0

/-- The total payload length that descriptors call for (R104). -/
def payloadCount : List Word → Nat
  | [] => 0
  | md :: mds => (if rwField md then 0 else (lenField md).toNat) + payloadCount mds

/-- The record whose bits, in the layout above, are those of `w`: as many operands as R104 requires, read from the
bits above the command word. -/
def recordOfBits (w : Nat) : Record :=
  let cmd : Word := BitVec.ofNat 32 w
  let n := descriptorCount cmd
  let mds := wordsOf n (w / 2 ^ 32)
  ⟨cmd, mds, bytesOf (payloadCount mds) (w / 2 ^ (32 * (n + 1)))⟩

/-- What the decoder reads from an instruction whose first `nbits` bits are those of `w` and whose other bits are 0. -/
def decodeTableWord (nbits w : Nat) : Option Instr :=
  (decode (recordOfBits (w % 2 ^ nbits))).toOption

end Sys2Proof
end

