-- ==== Sys2Proof/Config.lean ====
section
/-! DEFINITION. What one built block fixes (the parameters of 00_scope.md R6, the configuration registers of
10_state.md R28-R30), and the one free value of the model: a level the environment shows to a sample. -/

namespace Sys2Proof

/-- One entry of the mux channel table: "MuxChannel: selector_value: byte, index: small int" (R30; 8 bits each). -/
structure MuxChannel where
  index    : Byte
  selector : Byte
  deriving DecidableEq, Repr

/-- The construction arguments of a block (R6, R28, R30). No command writes any of them.
Which values are legal is `legalConfig` (R29). -/
structure Config where
  /-- `TICK`, the abstract unit of every duration, as an identifier; no rule reads it (R6, R310). -/
  tick              : Nat
  /-- `rise_fall_delay`, in ticks. -/
  riseFallDelay     : Nat
  /-- `hold_delay`, in ticks. -/
  holdDelay         : Nat
  /-- `timeout`, in ticks: the bound on one clock-stretch wait. -/
  timeout           : Nat
  /-- `poll_interval`, in ticks: the time between two SCL polls. -/
  pollInterval      : Nat
  /-- `OPEN_DRAIN_READBACK`: a line the master drives low samples low. -/
  openDrainReadback : Bool
  /-- `ARB_CHECK_DATA`: check SDA when a 1 bit is sent or SDA is released at a stop. -/
  arbCheckData      : Bool
  /-- `DRIVER_AUTO_RESET`: XFER issues RESET after an engine failure. -/
  driverAutoReset   : Bool
  /-- `MUX_PRESENT`: the mux controller exists. -/
  muxPresent        : Bool
  /-- `MUX_ADDR`: the 7-bit bus address of the mux chip. -/
  muxAddr           : BitVec 7
  /-- `CHANNELS`: the mux channel table. -/
  channels          : List MuxChannel
  /-- `DOMAIN`, the serialization domain, as an identifier; one block alone never reads it (R6, R38). -/
  domain            : Nat
  deriving DecidableEq, Repr

namespace Config

/-- The parameters of every test vector of file 95: R6's defaults for the three switches, and the values R6 says
"vectors use" for the OPEN ones. DESIGN CHOICE as the configuration of the block at reset (log entry 3). -/
def vectors : Config where
  tick := 0
  riseFallDelay := 1
  holdDelay := 2
  timeout := 10
  pollInterval := 2
  openDrainReadback := true
  arbCheckData := true
  driverAutoReset := true
  muxPresent := true
  muxAddr := 0x70#7
  channels := [⟨0x00#8, 0x04#8⟩, ⟨0x01#8, 0x05#8⟩]
  domain := 0

/-- FREE VALUE (R62, U2): the level the environment shows at sample number `n` (counted from construction) where the
state's script of coming draws is used up. Nothing constrains it (log entry 1). -/
opaque freeLevel : Nat → Level

end Config

end Sys2Proof
end

