-- ==== Sys2Proof/Machine/State.lean ====
section
/-! DEFINITION. The state of the block as plain data (10_state.md R22-R33, R44), the line events of a trace (20_memory.md
R65), the response record (30_encoding.md R106), why the model stops, and the state right after construction. -/

namespace Sys2Proof.Machine

/-- The bus state (R22). `stopped` is kept in the type and never held between commands (R24). -/
inductive BusState where
  | idle | started | byteInProgress | stopped | arbitrationLost | timedOut
  deriving DecidableEq, Repr

/-- What the master does with a line: `rel` releases it, `low` pulls it low (R9, R25). -/
inductive Drive where
  | rel | low
  deriving DecidableEq, Repr

/-- The two lines of the bus (R12). -/
inductive Line where
  | scl | sda
  deriving DecidableEq, Repr

/-- The cached mux selection (R31). -/
inductive MuxSelection where
  | unknown
  | known (index : Byte)
  deriving DecidableEq, Repr

/-- The bus lock of the serialization domain (R33). -/
inductive BusLock where
  | free | held
  deriving DecidableEq, Repr

/-- One line event (R65). -/
inductive Event where
  /-- `Set(L, d)` of SetLine (R61). -/
  | set (line : Line) (drive : Drive)
  /-- `Get(L, v)` of Sample (R62). -/
  | get (line : Line) (level : Level)
  /-- `Wait(t)` of Delay (R63). -/
  | wait (ticks : Nat)
  deriving DecidableEq, Repr

/-- How a command ends (R260, R36). -/
inductive CmdOutcome where
  | ok
  | nack (index : Nat)
  | arbitrationLost
  | timeout
  | illegalState
  | illegalCommand
  | invalidChannel
  deriving DecidableEq, Repr

/-- What a command reports, before it is laid out in the response words. -/
structure Result where
  outcome  : CmdOutcome
  /-- `ACK` of WRBYTE. -/
  ack      : Bool := false
  /-- `VALUE` of RDBIT, RDBYTE and GETSTATE. -/
  value    : Byte := 0#8
  /-- `COUNT`, the bytes transferred (R206). -/
  count    : Nat := 0
  /-- The mux index that GETSTATE reports in RSP2 (R144). -/
  muxIndex : Byte := 0#8
  /-- `RDATA` (R107). -/
  rdata    : List Byte := []
  deriving DecidableEq, Repr

/-- The response record (R106): three words and a byte list. -/
structure Response where
  rsp0  : Word
  rsp1  : Word
  rsp2  : Word
  rdata : List Byte
  deriving DecidableEq, Repr

/-- The machine. `bus`, `scl`, `sda` and `muxCur` are the spec's `st`; `lock` is the bus lock; `cfg` the configuration
registers; `port`, `response` and `trace` the host's side (inputs and outputs of a step, R37); `env` and `draws` the
model's own fields, which supply the environment's draws (log entry 1). -/
structure State where
  /-- `st.state` (R22). -/
  bus      : BusState
  /-- `st.drv[SCL]` (R25). -/
  scl      : Drive
  /-- `st.drv[SDA]` (R25). -/
  sda      : Drive
  /-- `st.mux_cur` (R31). -/
  muxCur   : MuxSelection
  /-- The bus lock (R33). -/
  lock     : BusLock
  /-- The configuration registers (R28-R30), which no command writes. -/
  cfg      : Config
  /-- The records handed over and not yet run, in the order in which they are served (R80, R100). -/
  port     : List Record
  /-- The response of the last completed command (R106, R44). -/
  response : Option Response
  /-- The line events of the last command, in order (R65). -/
  trace    : List Event
  /-- The levels the environment shows to the coming samples, in order (R62). -/
  env      : List Level
  /-- How many samples were taken since construction. -/
  draws    : Nat
  deriving DecidableEq, Repr

/-- No step of this machine faults: "Errors never abort the process; they are returned" (R261). Nobody raises one;
a failure is an outcome in the response (R260). Safe: there is nothing to raise. -/
inductive Fault where
  deriving DecidableEq, Repr

/-- Why the model does not take a step. -/
inductive Refusal where
  /-- Raised by `exec` for a command that has no meaning yet. Safe. -/
  | notModelled (mnemonic : String)
  /-- Raised by `step` on a state whose configuration breaks R29: "The model refuses such a configuration". Safe: no
  block can be constructed with it (log entry 3). -/
  | illegalConfiguration
  deriving DecidableEq, Repr

namespace State

/-- Construction, the power-on reset (R44, R290), with the construction arguments `c`. That a legal configuration is
required stands in `State.construct?` (R29). -/
def construct (c : Config) : State where
  bus := .idle
  scl := .rel
  sda := .rel
  muxCur := .unknown
  lock := .free
  cfg := c
  port := []
  response := none
  trace := []
  env := []
  draws := 0

/-- The machine right after reset: the block constructed with the parameters of the test vectors (R44, R6; log
entry 3). -/
def reset : State := construct Config.vectors

end State

end Sys2Proof.Machine
end

