-- ==== Sys2Proof/Machine/Ops.lean ====
section
/-! DEFINITION. The named operations of the block: configuration legality, the line primitives SetLine, Sample, Delay and
WaitSclHigh (20_memory.md R61-R64), what a failure does (60_exceptions.md R262, R271), and taking a command from the port
and giving its response back (R80, R33, R106). -/

namespace Sys2Proof.Machine

/-! ## Configuration (R28, R29, R66) -/

/-- No two entries of a channel table have the same index (R29). -/
def uniqueIndices : List MuxChannel → Bool
  | [] => true
  | ch :: chs => !(chs.any fun other => other.index == ch.index) && uniqueIndices chs

/-- The four conditions of R29; that `MUX_ADDR` fits in 7 bits holds by its type. -/
def legalConfig (c : Config) : Bool :=
  decide (2 * c.holdDelay < c.timeout) && decide (1 ≤ c.pollInterval) && uniqueIndices c.channels

/-- `POLL_LIMIT = ceil(to / pi)` (R66). -/
def pollLimit (c : Config) : Nat := (c.timeout + c.pollInterval - 1) / c.pollInterval

/-- "A block cannot be constructed with an illegal configuration" (R29). -/
def State.construct? (c : Config) : Option State :=
  if legalConfig c then some (State.construct c) else none

/-! ## The end of an engine command -/

/-- The failures of an engine command (R262). -/
inductive Failure where
  | arbitrationLost | timeout | illegalState
  deriving DecidableEq, Repr

/-- An engine command ends with a value or with a failure, and in a state. -/
inductive Res (α : Type) where
  | ok (value : α) (s : State)
  | fail (f : Failure) (s : State)
  deriving DecidableEq, Repr

/-- Go on where a command succeeded; "a called sub-command that fails makes its caller fail with the same outcome at
that point" (R10). -/
def Res.andThen {α β : Type} (r : Res α) (next : α → State → Res β) : Res β :=
  match r with
  | .ok a s => next a s
  | .fail f s => .fail f s

/-- The drive of SDA for a sent bit: a 1 is sent by releasing the line (R160, R9). -/
def bitDrive (b : Level) : Drive := if b then .rel else .low

namespace State

/-! ## Plain updates -/

/-- `st.drv[L]`. -/
def drv (s : State) : Line → Drive
  | .scl => s.scl
  | .sda => s.sda

/-- `trace.append(e)`. -/
def note (e : Event) (s : State) : State := { s with trace := s.trace ++ [e] }

/-- `st.state <- b`. -/
def setBus (b : BusState) (s : State) : State := { s with bus := b }

/-- `st.mux_cur <- m`. -/
def setMux (m : MuxSelection) (s : State) : State := { s with muxCur := m }

/-- A new command begins: its trace is empty (R65). -/
def beginCommand (s : State) : State := { s with trace := [] }

/-! ## The line primitives -/

/-- `st.drv[L] <- d`. -/
def setDrv (l : Line) (d : Drive) (s : State) : State :=
  match l with
  | .scl => { s with scl := d }
  | .sda => { s with sda := d }

/-- `SetLine(L, d)` (R61): performed and recorded even when the line already has that drive. -/
def setLine (l : Line) (d : Drive) (s : State) : State := (s.setDrv l d).note (.set l d)

/-- `Delay(t)` (R63): a trace event and nothing else. -/
def delay (t : Nat) (s : State) : State := s.note (.wait t)

/-- `Delay(rf)`. -/
def delayRf (s : State) : State := s.delay s.cfg.riseFallDelay

/-- `Delay(hold)`. -/
def delayHold (s : State) : State := s.delay s.cfg.holdDelay

/-- How STOP, WRBIT and RDBIT begin (R142, R160, R161): SCL low, SDA to `d` while SCL is low, SCL released. -/
def raiseClock (d : Drive) (s : State) : State :=
  let s := (s.setLine .scl .low).delayRf
  let s := (s.setLine .sda d).delayRf
  s.setLine .scl .rel

/-- How START begins (R141): on a held bus SCL low first, then SDA released, SCL released. -/
def raiseBoth (s : State) : State :=
  let s := if s.bus == .idle then s else (s.setLine .scl .low).delayRf
  let s := (s.setLine .sda .rel).delayRf
  s.setLine .scl .rel

/-- The environment's draw for the next sample (R62): the next level of the script, a free value past its end. -/
def draw (s : State) : Level :=
  match s.env with
  | e :: _ => e
  | [] => Config.freeLevel s.draws

/-- The draw is used up. -/
def drawn (s : State) : State := { s with env := s.env.tail, draws := s.draws + 1 }

/-- The value that `Sample(L)` returns (R62): the draw, forced to 0 where the master pulls the line low and
`OPEN_DRAIN_READBACK` is set. -/
def sense (l : Line) (s : State) : Level :=
  if s.cfg.openDrainReadback && s.drv l == .low then false else s.draw

/-- The state after `Sample(L)` (R62): one draw used and one event recorded, the block's own state as before. -/
def sampled (l : Line) (s : State) : State := s.drawn.note (.get l (s.sense l))

/-! ## Failures, the block's exceptions -/

/-- What `fail X` does to the state (R262, R271): the terminal state is entered, the drives and everything else stay;
IllegalState changes nothing. -/
def afterFailure (f : Failure) (s : State) : State :=
  match f with
  | .arbitrationLost => s.setBus .arbitrationLost
  | .timeout => s.setBus .timedOut
  | .illegalState => s

/-- The bus is held (R12): a start was issued and no stop since. -/
def held (s : State) : Bool := s.bus == .started || s.bus == .byteInProgress

/-- The states in which START and the sequencer may begin (R23, R141, R200). -/
def ready (s : State) : Bool := s.bus == .idle || s.held

end State

/-- `fail X` (R262). -/
def failWith {α : Type} (f : Failure) (s : State) : Res α := .fail f (s.afterFailure f)

/-! ## The bounded clock-stretch wait (R64) -/

/-- The loop of `WaitSclHigh` from poll number `k` on. `fuel` bounds the recursion; with `poll_interval >= 1` the budget
runs out no later than the fuel does (log entry 11). -/
def waitLoop : (fuel k : Nat) → State → Res Unit
  | 0, _, s => failWith .timeout s
  | fuel + 1, k, s =>
    if s.cfg.timeout ≤ k * s.cfg.pollInterval then failWith .timeout s
    else if s.sense .scl then .ok () (s.sampled .scl)
    else waitLoop fuel (k + 1) ((s.sampled .scl).delay s.cfg.pollInterval)

/-- `WaitSclHigh()` (R64): every wait starts with its own budget. -/
def waitSclHigh (s : State) : Res Unit := waitLoop s.cfg.timeout 0 s

/-- The release of both lines and the return to Idle, the one way out of a terminal state (R143, R268). It samples
nothing and cannot fail. -/
def releaseBus (s : State) : State :=
  let s := (s.setLine .scl .rel).delayRf
  let s := (s.setLine .sda .rel).delayRf
  (s.setBus .idle).setMux .unknown

/-! ## The command port and the bus lock (R80, R33) -/

namespace State

/-- The next command of the domain: the head of the port, if the bus lock is free. It is taken out of the port ("a
command is written once and consumed", R20) and takes the lock. -/
def takeCommand (s : State) : Option (Record × State) :=
  match s.lock, s.port with
  | .free, r :: rest => some (r, { s with port := rest, lock := .held })
  | _, _ => none

/-- The command completes and gives the lock back (R33). -/
def releaseLock (s : State) : State := { s with lock := .free }

end State

/-- The lock is given back in whatever state the command completed. -/
def releasing (o : Host.Outcome State Fault Refusal) : Host.Outcome State Fault Refusal :=
  match o with
  | .next s => .next s.releaseLock
  | .fault f => .fault f
  | .refused r => .refused r

end Sys2Proof.Machine
end

