-- ==== Sys2Proof/Machine/Flags.lean ====
section
/-! DEFINITION. Status. The block has no persistent flags (10_state.md R34): status travels in the response (30_encoding.md
R106, R108) and in the state word of GETSTATE (41_bus_conditions.md R144). This file computes both. -/

namespace Sys2Proof.Machine

/-- The 3-bit code of a bus state (R22). -/
def BusState.code : BusState → BitVec 3
  | .idle => 0#3
  | .started => 1#3
  | .byteInProgress => 2#3
  | .stopped => 3#3
  | .arbitrationLost => 4#3
  | .timedOut => 5#3

/-- The status code of an outcome (R108). -/
def CmdOutcome.code : CmdOutcome → BitVec 4
  | .ok => 0#4
  | .nack _ => 1#4
  | .arbitrationLost => 2#4
  | .timeout => 3#4
  | .illegalState => 4#4
  | .illegalCommand => 5#4
  | .invalidChannel => 6#4

/-- `NACK_INDEX` (R106): the index of a nack, 0 otherwise. -/
def CmdOutcome.nackIndex : CmdOutcome → BitVec 16
  | .nack k => BitVec.ofNat 16 k
  | .ok | .arbitrationLost | .timeout | .illegalState | .illegalCommand | .invalidChannel => 0#16

/-- The outcome a failure is reported as (R260). -/
def Failure.outcome : Failure → CmdOutcome
  | .arbitrationLost => .arbitrationLost
  | .timeout => .timeout
  | .illegalState => .illegalState

/-- The three words and the byte list of the response (R106). RSP2[15:0] is `NACK_INDEX`, and for GETSTATE its low byte
is the mux index; no outcome has both. -/
def Result.toResponse (r : Result) : Response where
  rsp0 := r.outcome.code ++ 0#11 ++ BitVec.ofBool r.ack ++ 0#8 ++ r.value
  rsp1 := BitVec.ofNat 32 r.count
  rsp2 := 0#16 ++ (r.outcome.nackIndex ||| r.muxIndex.setWidth 16)
  rdata := r.rdata

namespace Response

/-- RSP0[31:28]. -/
def status (r : Response) : BitVec 4 := r.rsp0.extractLsb' 28 4
/-- RSP0[16]. -/
def ack (r : Response) : Bool := r.rsp0.getLsbD 16
/-- RSP0[7:0]. -/
def value (r : Response) : Byte := r.rsp0.extractLsb' 0 8
/-- RSP1. -/
def count (r : Response) : Word := r.rsp1
/-- RSP2[15:0]. -/
def nackIndex (r : Response) : BitVec 16 := r.rsp2.extractLsb' 0 16

end Response

namespace Result

/-- Success with every other field 0. -/
def success : Result := { outcome := .ok }
/-- A failed engine command: every other field 0 (R106). -/
def failed (f : Failure) : Result := { outcome := f.outcome }
/-- Success with an acknowledgment (WRBYTE, R180). -/
def acknowledged (ack : Bool) : Result := { outcome := .ok, ack := ack }
/-- Success with a byte (RDBIT, RDBYTE, R161, R181). -/
def valued (v : Byte) : Result := { outcome := .ok, value := v }
/-- A malformed record: STATUS = 5 and every other field 0 (R110). -/
def malformed : Result := { outcome := .illegalCommand }

end Result

/-- The response is delivered (R106). -/
def State.answer (r : Result) (s : State) : State := { s with response := some r.toResponse }

/-- An engine command issued by the host completes: its value or its failure is reported. -/
def Res.complete {α : Type} (r : Res α) (report : α → Result) : State :=
  match r with
  | .ok a s => s.answer (report a)
  | .fail f s => s.answer (Result.failed f)

/-- A malformed record is refused: no line event, no change of state, STATUS = ILLEGAL_COMMAND (R110, R266). -/
def refuseMalformed (s : State) : State := s.beginCommand.answer Result.malformed

/-- The state word of GETSTATE (R144). -/
def stateWord (s : State) : Byte :=
  0#1 ++ BitVec.ofBool (s.muxCur != .unknown) ++ BitVec.ofBool (s.sda == .rel) ++ BitVec.ofBool (s.scl == .rel) ++ 0#1
    ++ s.bus.code

/-- The mux index that GETSTATE reports in RSP2[7:0] (R144). -/
def MuxSelection.indexOrZero : MuxSelection → Byte
  | .unknown => 0#8
  | .known i => i

end Sys2Proof.Machine
end

