-- ==== Sys2Proof/Machine/Bit.lean ====
section
/-! DEFINITION. Bit transfer (42_bit_transfer.md): WRBIT, RDBIT. -/

namespace Sys2Proof.Machine

/-- WRBIT b (R160). A 0 bit is never checked. -/
def engWrbit (b : Level) (s : State) : Res Unit :=
  if !s.held then failWith .illegalState s
  else
    (waitSclHigh (s.raiseClock (bitDrive b))).andThen fun _ s =>
      if b && s.cfg.arbCheckData then
        if !s.sense .sda then failWith .arbitrationLost (s.sampled .sda)
        else .ok () ((s.sampled .sda).delayHold.setBus .byteInProgress)
      else .ok () (s.delayHold.setBus .byteInProgress)

/-- RDBIT (R161): SDA is released and sampled once, after SCL is seen high. -/
def engRdbit (s : State) : Res Level :=
  if !s.held then failWith .illegalState s
  else
    (waitSclHigh (s.raiseClock .rel)).andThen fun _ s =>
      .ok (s.sense .sda) ((s.sampled .sda).delayHold.setBus .byteInProgress)

/-- WRBIT issued by the host. -/
def execWrbit (b : Bool) (s : State) : Host.Outcome State Fault Refusal :=
  .next ((engWrbit b s.beginCommand).complete fun _ => Result.success)

/-- RDBIT issued by the host: `VALUE = zext_8(v)`. -/
def execRdbit (s : State) : Host.Outcome State Fault Refusal :=
  .next ((engRdbit s.beginCommand).complete fun v => Result.valued ((BitVec.ofBool v).setWidth 8))

end Sys2Proof.Machine
end

