-- ==== Sys2Proof/Machine/Bus.lean ====
section
/-! DEFINITION. The bus conditions (41_bus_conditions.md): START, STOP, RESET, GETSTATE. The `eng…` operation is the engine
command, as the host and the sequencer run it; the `exec…` meaning runs it for the host and reports its end. -/

namespace Sys2Proof.Machine

/-- START (R141): a start condition, or a repeated start on a held bus. -/
def engStart (s : State) : Res Unit :=
  if !s.ready then failWith .illegalState s
  else
    (waitSclHigh s.raiseBoth).andThen fun _ s =>
      -- check A: released SDA must read high
      if !s.sense .sda then failWith .arbitrationLost (s.sampled .sda)
      else
        let s := ((s.sampled .sda).setLine .sda .low).delayRf
        -- check B: SDA must read back low
        if s.sense .sda then failWith .arbitrationLost (s.sampled .sda)
        else .ok () ((s.sampled .sda).delayHold.setBus .started)

/-- STOP (R142): a stop condition; the bus is free. -/
def engStop (s : State) : Res Unit :=
  if !s.held then failWith .illegalState s
  else
    (waitSclHigh (s.raiseClock .low)).andThen fun _ s =>
      let s := (s.delayHold.setLine .sda .rel).delayRf
      if s.cfg.arbCheckData then
        if !s.sense .sda then failWith .arbitrationLost (s.sampled .sda)
        else .ok () ((s.sampled .sda).setBus .idle)
      else .ok () (s.setBus .idle)

/-- RESET (R143): legal in every state, never fails. -/
def engReset (s : State) : State := releaseBus s

/-- START issued by the host. -/
def execStart (s : State) : Host.Outcome State Fault Refusal :=
  .next ((engStart s.beginCommand).complete fun _ => Result.success)

/-- STOP issued by the host. -/
def execStop (s : State) : Host.Outcome State Fault Refusal :=
  .next ((engStop s.beginCommand).complete fun _ => Result.success)

/-- RESET issued by the host. -/
def execReset (s : State) : Host.Outcome State Fault Refusal :=
  .next ((engReset s.beginCommand).answer Result.success)

/-- GETSTATE (R144): reads the state without bus activity. -/
def execGetstate (s : State) : Host.Outcome State Fault Refusal :=
  .next (s.beginCommand.answer { outcome := .ok, value := stateWord s, muxIndex := s.muxCur.indexOrZero })

end Sys2Proof.Machine
end

