-- ==== Sys2Proof/Machine/Operands.lean ====
section
/-! DEFINITION. What the commands compute from their operands: the address byte (20_memory.md R71), the bits of a byte in
wire order (R72), which read byte is nacked (44_transaction.md R205), the channel lookup (45_mux.md R242). -/

namespace Sys2Proof

/-- The 7-bit target address (R35). -/
def Message.address : Message → BitVec 7
  | .write a _ _ => a
  | .read a _ _ => a

/-- The no_start flag (R35). -/
def Message.noStart : Message → Bool
  | .write _ ns _ => ns
  | .read _ ns _ => ns

/-- The direction is Read. -/
def Message.isRead : Message → Bool
  | .write _ _ _ => false
  | .read _ _ _ => true

/-- The payload length in bytes (R102). -/
def Message.len : Message → Nat
  | .write _ _ payload => payload.length
  | .read _ _ len => len.toNat

/-- The address byte `address << 1 | direction_bit`, with 1 for Read and 0 for Write (R71, D29). -/
def Message.addressByte (m : Message) : Byte := m.address ++ BitVec.ofBool m.isRead

/-- The largest index of a Read message, counting the first message as `i`; none where no message is Read (R205). -/
def lastReadFrom (i : Nat) : List Message → Option Nat
  | [] => none
  | m :: ms => (lastReadFrom (i + 1) ms).orElse fun _ => if m.isRead then some i else none

namespace Machine

/-- The bits of a byte in the order in which they go on the wire, most significant first (R72). -/
def bitsMsbFirst (d : Byte) : List Level :=
  [d.getLsbD 7, d.getLsbD 6, d.getLsbD 5, d.getLsbD 4, d.getLsbD 3, d.getLsbD 2, d.getLsbD 1, d.getLsbD 0]

/-- `v[i] <- b` on a byte whose bit `i` is 0 (R181). -/
def withBit (v : Byte) (i : Nat) (b : Level) : Byte := if b then v ||| (1#8 <<< i) else v

/-- The channel with the given `index` field; its position plays no part (R242). -/
def channelFor (c : Config) (index : Byte) : Option MuxChannel :=
  c.channels.find? fun ch => ch.index == index

end Machine

end Sys2Proof
end

