-- ==== Sys2Proof/Machine/ByteTransfer.lean ====
section
/-! DEFINITION. Byte transfer (43_byte_transfer.md): WRBYTE, RDBYTE, nine bit cycles each (R182). -/

namespace Sys2Proof.Machine

/-- Send bits in the given order; a failure ends the command and the rest are not sent (R180). -/
def sendBits : List Level → State → Res Unit
  | [], s => .ok () s
  | b :: bs, s => (engWrbit b s).andThen fun _ s => sendBits bs s

/-- Receive the bits `n - 1` down to 0 of `v`, the first bit received being the highest (R181). -/
def receiveBits : (n : Nat) → (v : Byte) → State → Res Byte
  | 0, v, s => .ok v s
  | i + 1, v, s => (engRdbit s).andThen fun b s => receiveBits i (withBit v i b) s

/-- WRBYTE d (R180): eight bits, most significant first, then the acknowledgment: low is ack. -/
def engWrbyte (d : Byte) (s : State) : Res Bool :=
  if !s.held then failWith .illegalState s
  else
    (sendBits (bitsMsbFirst d) s).andThen fun _ s =>
      (engRdbit s).andThen fun v s => .ok (!v) s

/-- RDBYTE a (R181): eight bits, most significant first, then the ninth clock: SDA low to ack, released to nack. -/
def engRdbyte (sendAck : Bool) (s : State) : Res Byte :=
  if !s.held then failWith .illegalState s
  else
    (receiveBits 8 0#8 s).andThen fun v s =>
      (engWrbit (!sendAck) s).andThen fun _ s => .ok v s

/-- WRBYTE issued by the host. -/
def execWrbyte (d : Byte) (s : State) : Host.Outcome State Fault Refusal :=
  .next ((engWrbyte d s.beginCommand).complete Result.acknowledged)

/-- RDBYTE issued by the host. -/
def execRdbyte (sendAck : Bool) (s : State) : Host.Outcome State Fault Refusal :=
  .next ((engRdbyte sendAck s.beginCommand).complete Result.valued)

end Sys2Proof.Machine
end

