-- ==== Sys2Proof/Machine/Transaction.lean ====
section
/-! DEFINITION. The transaction sequencer (44_transaction.md): XFER. -/

namespace Sys2Proof.Machine

/-- What a transfer has completed so far: `n` and `rdata` of R200. -/
structure Progress where
  count : Nat
  rdata : List Byte
  deriving DecidableEq, Repr

/-- A transfer goes on with a value, or it is over with its result. -/
inductive Run (α : Type) where
  | go (value : α) (s : State)
  | ended (r : Result) (s : State)
  deriving DecidableEq, Repr

/-- Go on where the transfer is not over. -/
def Run.andThen {α β : Type} (r : Run α) (next : α → State → Run β) : Run β :=
  match r with
  | .go a s => next a s
  | .ended res s => .ended res s

/-- The result of a transfer that ends with an outcome (R36, R106). -/
def Progress.ending (p : Progress) (o : CmdOutcome) : Result := { outcome := o, count := p.count, rdata := p.rdata }

/-- `ENG(c)` (R200, R204): an engine command inside a transfer. A failure ends the transfer, after RESET where
`DRIVER_AUTO_RESET` is set. (IllegalState cannot arise here: log entry 9.) -/
def eng {α : Type} (p : Progress) (r : Res α) : Run α :=
  match r with
  | .ok a s => .go a s
  | .fail .illegalState s => .ended (p.ending .illegalState) s
  | .fail f s => .ended (p.ending f.outcome) (if s.cfg.driverAutoReset then engReset s else s)

/-- `NACK_EXIT(k)` (R200, R207): the cleanup STOP, then the Nack; a failing STOP replaces it. -/
def nackExit {α : Type} (p : Progress) (k : Nat) (s : State) : Run α :=
  (eng p (engStop s)).andThen fun _ s => .ended (p.ending (.nack k)) s

/-- The payload of a Write message from index `k` on (R203). -/
def sendPayload : (p : Progress) → (k : Nat) → List Byte → State → Run Progress
  | p, _, [], s => .go p s
  | p, k, d :: ds, s =>
    (eng p (engWrbyte d s)).andThen fun ack s =>
      if !ack then nackExit p k s
      else sendPayload { p with count := p.count + 1 } (k + 1) ds s

/-- The last `n` bytes of a Read message; `last` says whether it is the last Read message of the list, whose last byte
is nacked (R205). -/
def receivePayload (last : Bool) : (n : Nat) → (p : Progress) → State → Run Progress
  | 0, p, s => .go p s
  | n + 1, p, s =>
    (eng p (engRdbyte (!(last && n == 0)) s)).andThen fun v s =>
      receivePayload last n { count := p.count + 1, rdata := p.rdata ++ [v] } s

/-- The payload phase of a message (R203, R205). -/
def transferPayload (last : Bool) (p : Progress) (m : Message) (s : State) : Run Progress :=
  match m with
  | .write _ _ payload => sendPayload p 0 payload s
  | .read _ _ len => receivePayload last len.toNat p s

/-- One message (R200-R203, R208): STOP first on a held bus without no_start, then START, the address byte, the payload. -/
def runMessage (last : Bool) (p : Progress) (m : Message) (s : State) : Run Progress :=
  (if s.held && !m.noStart then eng p (engStop s) else .go () s).andThen fun _ s =>
  (eng p (engStart s)).andThen fun _ s =>
  (eng p (engWrbyte m.addressByte s)).andThen fun ack s =>
    if !ack then nackExit p 0 s else transferPayload last p m s

/-- The messages from index `i` on (R200); `lastRead` is the index of the last Read message. -/
def runMessages (lastRead : Option Nat) : (i : Nat) → (p : Progress) → List Message → State → Run Progress
  | _, p, [], s => .go p s
  | i, p, m :: ms, s =>
    (runMessage (lastRead == some i) p m s).andThen fun p s => runMessages lastRead (i + 1) p ms s

/-- The whole transfer (R200): the messages, then the final STOP unless chained (R209). -/
def runTransfer (chain : Bool) (msgs : List Message) (s : State) : Run Progress :=
  (runMessages (lastReadFrom 0 msgs) 0 ⟨0, []⟩ msgs s).andThen fun p s =>
    (if !chain && s.held then eng p (engStop s) else .go () s).andThen fun _ s => .go p s

/-- XFER (R200): the result and the state it ends in. A terminal engine is refused (R211). -/
def transfer (chain : Bool) (msgs : List Message) (s : State) : Result × State :=
  if !s.ready then ({ outcome := .illegalState }, s)
  else
    match runTransfer chain msgs s with
    | .go p s => (p.ending .ok, s)
    | .ended r s => (r, s)

/-- XFER issued by the host. -/
def execXfer (chain : Bool) (msgs : List Message) (s : State) : Host.Outcome State Fault Refusal :=
  .next ((transfer chain msgs s.beginCommand).2.answer (transfer chain msgs s.beginCommand).1)

end Sys2Proof.Machine
end

