-- ==== Sys2Proof/Machine/Mux.lean ====
section
/-! DEFINITION. The multiplexer channel-select controller (45_mux.md): MUXSEL, MUXXFER. -/

namespace Sys2Proof.Machine

/-- The select message (R240): one byte, the channel's selector value, written to the mux chip. -/
def selectMessage (c : Config) (ch : MuxChannel) : Message := .write c.muxAddr false [ch.selector]

/-- The selection that the outcome of a select leaves (R31, R240). -/
def selectionAfter (index : Byte) (o : CmdOutcome) : MuxSelection :=
  if o = .ok then .known index else .unknown

/-- MUXSEL c on a block that has a mux (R240, R242): the result and the state it ends in. -/
def muxSelect (index : Byte) (s : State) : Result × State :=
  match channelFor s.cfg index with
  | none => ({ outcome := .invalidChannel }, s.setMux .unknown)
  | some ch =>
    let r := transfer false [selectMessage s.cfg ch] s
    (r.1, r.2.setMux (selectionAfter index r.1.outcome))

/-- MUXXFER c, chain, msgs on a block that has a mux (R241): select, always; forward only after a successful select. -/
def muxTransfer (index : Byte) (chain : Bool) (msgs : List Message) (s : State) : Result × State :=
  let r := muxSelect index s
  if r.1.outcome = .ok then transfer chain msgs r.2 else r

/-- MUXSEL issued by the host; without a mux the command is malformed (R110 (e)). -/
def execMuxsel (channel : Byte) (s : State) : Host.Outcome State Fault Refusal :=
  .next (if s.cfg.muxPresent then
      (muxSelect channel s.beginCommand).2.answer (muxSelect channel s.beginCommand).1
    else refuseMalformed s)

/-- MUXXFER issued by the host; without a mux the command is malformed (R110 (e)). -/
def execMuxxfer (channel : Byte) (chain : Bool) (msgs : List Message) (s : State) : Host.Outcome State Fault Refusal :=
  .next (if s.cfg.muxPresent then
      (muxTransfer channel chain msgs s.beginCommand).2.answer (muxTransfer channel chain msgs s.beginCommand).1
    else refuseMalformed s)

end Sys2Proof.Machine
end

