-- ==== Sys2Proof/Machine/Dispatch.lean ====
section
/-! DEFINITION. One arm per command. -/

namespace Sys2Proof.Machine

def exec (i : Instr) (s : State) : Host.Outcome State Fault Refusal :=
  match i with
  -- bus conditions
  | .start => Sys2Proof.Machine.execStart s
  | .stop => Sys2Proof.Machine.execStop s
  -- bit transfer
  | .wrbit b => Sys2Proof.Machine.execWrbit b s
  | .rdbit => Sys2Proof.Machine.execRdbit s
  -- byte transfer
  | .wrbyte d => Sys2Proof.Machine.execWrbyte d s
  | .rdbyte a => Sys2Proof.Machine.execRdbyte a s
  -- bus conditions
  | .reset => Sys2Proof.Machine.execReset s
  -- transaction sequencer and mux controller
  | .xfer chain msgs => Sys2Proof.Machine.execXfer chain msgs s
  | .muxsel c => Sys2Proof.Machine.execMuxsel c s
  | .muxxfer c chain msgs => Sys2Proof.Machine.execMuxxfer c chain msgs s
  -- status
  | .getstate => Sys2Proof.Machine.execGetstate s

end Sys2Proof.Machine
end

