-- ==== Sys2Proof/Machine/Step.lean ====
section
/-! DEFINITION. One step of the block: one host command, run to completion (00_scope.md R11, 10_state.md R21). -/

namespace Sys2Proof.Machine

/-- The command in a record: a malformed record is refused in the response before any other check (R110, R270). -/
def runRecord (r : Record) (s : State) : Host.Outcome State Fault Refusal :=
  match decode r with
  | .ok i => exec i s
  | .error _ => .next (refuseMalformed s)

/-- One step: the next waiting command takes the bus lock, runs, answers, and gives the lock back (R80, R33). Without a
waiting command, or while another engine of the domain holds the lock, nothing happens. A configuration that breaks R29
is refused. -/
def step (s : State) : Host.Outcome State Fault Refusal :=
  if legalConfig s.cfg then
    match s.takeCommand with
    | some (r, t) => releasing (runRecord r t)
    | none => .next s
  else .refused .illegalConfiguration

/-- `s` with the record of `w` as the next command to be served, on a free bus (log entry 6). -/
def State.withFetchWord (s : State) (nbits w : Nat) : State :=
  { s with port := recordOfBits (w % 2 ^ nbits) :: s.port, lock := .free }

end Sys2Proof.Machine
end

