-- ==== Sys2Proof/Machine/Assembler.lean ====
section
/-! DEFINITION. The command notation (30_encoding.md R113) and its pseudo-instructions (R114, R115): from one line of
characters to a command, or to nothing where the line has no meaning in the grammar. The lexical details that the grammar
leaves open are named in log entry 12. -/

namespace Sys2Proof.Assembler

/-! ## The expansions of the pseudo-instructions (R114, R115) -/

/-- A transfer that is not chained. -/
def single (msgs : List Message) : Instr := .xfer false msgs

/-- `QUICK a, W` and `QUICK a, R` (R114): the SMBus quick command. -/
def quickWrite (a : BitVec 7) : Instr := single [.write a false []]
def quickRead (a : BitVec 7) : Instr := single [.read a false 0#16]

/-- `SMB_SEND a, v` (R115). -/
def smbSend (a : BitVec 7) (v : Byte) : Instr := single [.write a false [v]]
/-- `SMB_RECV a` (R115). -/
def smbRecv (a : BitVec 7) : Instr := single [.read a false 1#16]
/-- `SMB_WRITE_BYTE a, c, v` (R115). -/
def smbWriteByte (a : BitVec 7) (c v : Byte) : Instr := single [.write a false [c, v]]
/-- `SMB_READ_BYTE a, c` (R115). -/
def smbReadByte (a : BitVec 7) (c : Byte) : Instr := single [.write a false [c], .read a true 1#16]
/-- `SMB_WRITE_WORD a, c, w`: the word low byte first (R115). -/
def smbWriteWord (a : BitVec 7) (c : Byte) (w : BitVec 16) : Instr :=
  single [.write a false [c, w.extractLsb' 0 8, w.extractLsb' 8 8]]
/-- `SMB_READ_WORD a, c` (R115). -/
def smbReadWord (a : BitVec 7) (c : Byte) : Instr := single [.write a false [c], .read a true 2#16]
/-- `SMB_BLOCK_WRITE a, c, [v0..vk-1]` with 1 to 32 bytes (R115). -/
def smbBlockWrite (a : BitVec 7) (c : Byte) (vs : List Byte) : Option Instr :=
  if 1 ≤ vs.length ∧ vs.length ≤ 32 then some (single [.write a false (c :: BitVec.ofNat 8 vs.length :: vs)]) else none

/-- The word that `SMB_READ_WORD` reads: `{RDATA[1], RDATA[0]}` (R115). -/
def smbWordRead (rdata : List Byte) : Option (BitVec 16) :=
  match rdata with
  | [low, high] => some (high ++ low)
  | _ => none

/-! ## Tokens -/

inductive Token where
  /-- A run of letters, digits and underscores, in capitals: keywords are case-insensitive. -/
  | word (letters : List Char)
  | openBrace | closeBrace | openBracket | closeBracket | semicolon | comma
  deriving DecidableEq, Repr

/-- The capital of a letter; any other character itself. -/
def capital (c : Char) : Char := if 97 ≤ c.toNat ∧ c.toNat ≤ 122 then Char.ofNat (c.toNat - 32) else c

def isWordChar (c : Char) : Bool :=
  let n := c.toNat
  (48 ≤ n && n ≤ 57) || (65 ≤ n && n ≤ 90) || (97 ≤ n && n ≤ 122) || n == 95

/-- Space, tab and carriage return separate words. -/
def isSpace (c : Char) : Bool := c.toNat == 32 || c.toNat == 9 || c.toNat == 13

def punctuation (c : Char) : Option Token :=
  match c.toNat with
  | 123 => some .openBrace
  | 125 => some .closeBrace
  | 91 => some .openBracket
  | 93 => some .closeBracket
  | 59 => some .semicolon
  | 44 => some .comma
  | _ => none

/-- The word collected so far (last letter first) stands before the tokens that follow. -/
def flush (collected : List Char) (ts : List Token) : List Token :=
  if collected.isEmpty then ts else .word collected.reverse :: ts

/-- The tokens of a line; none where it holds a character that no token has. -/
def tokens : (collected : List Char) → List Char → Option (List Token)
  | collected, [] => some (flush collected [])
  | collected, c :: cs =>
    if isWordChar c then tokens (capital c :: collected) cs
    else
      match punctuation c with
      | some t => (tokens [] cs).map fun ts => flush collected (t :: ts)
      | none => if isSpace c then (tokens [] cs).map (flush collected) else none

/-! ## Numbers: decimal, or hexadecimal with 0x (R113) -/

def digitValue (c : Char) : Option Nat :=
  if 48 ≤ c.toNat ∧ c.toNat ≤ 57 then some (c.toNat - 48)
  else if 65 ≤ c.toNat ∧ c.toNat ≤ 70 then some (c.toNat - 55)
  else none

def digits (base : Nat) : (value : Nat) → List Char → Option Nat
  | value, [] => some value
  | value, c :: cs =>
    match digitValue c with
    | some d => if d < base then digits base (base * value + d) cs else none
    | none => none

def number : List Char → Option Nat
  | [] => none
  | ['0', 'X'] => none
  | '0' :: 'X' :: cs => digits 16 0 cs
  | cs => digits 10 0 cs

/-- A number that an unsigned field of `w` bits can hold; an assembler rejects other values (R113). -/
def field (w : Nat) (letters : List Char) : Option (BitVec w) :=
  match number letters with
  | some n => if n < 2 ^ w then some (BitVec.ofNat w n) else none
  | none => none

/-! ## Messages -/

/-- `("," byte)* "]"`. -/
def bytesTail : List Token → Option (List Byte)
  | [.closeBracket] => some []
  | .comma :: .word w :: ts =>
    match field 8 w, bytesTail ts with
    | some b, some bs => some (b :: bs)
    | _, _ => none
  | _ => none

/-- `[byte ("," byte)*] "]"`. -/
def bytes : List Token → Option (List Byte)
  | [.closeBracket] => some []
  | .word w :: ts =>
    match field 8 w, bytesTail ts with
    | some b, some bs => some (b :: bs)
    | _, _ => none
  | _ => none

def writeMessage (a : List Char) (ns : Bool) (ts : List Token) : Option Message :=
  match field 7 a, bytes ts with
  | some a, some bs => some (.write a ns bs)
  | _, _ => none

def readMessage (a : List Char) (ns : Bool) (n : List Char) : Option Message :=
  match field 7 a, field 16 n with
  | some a, some n => some (.read a ns n)
  | _, _ => none

/-- `msg` of R113. -/
def message : List Token → Option Message
  | .word ['W'] :: .word a :: .openBracket :: ts => writeMessage a false ts
  | .word ['W'] :: .word a :: .word ['N', 'S'] :: .openBracket :: ts => writeMessage a true ts
  | [.word ['R'], .word a, .word n] => readMessage a false n
  | [.word ['R'], .word a, .word ['N', 'S'], .word n] => readMessage a true n
  | _ => none

/-- `msg (";" msg)* "}"`, with the tokens of the message under way collected last first. -/
def messagesFrom : (collected : List Token) → List Token → Option (List Message)
  | collected, [.closeBrace] => (message collected.reverse).map ([·])
  | collected, .semicolon :: ts =>
    match message collected.reverse, messagesFrom [] ts with
    | some m, some ms => some (m :: ms)
    | _, _ => none
  | collected, t :: ts => messagesFrom (t :: collected) ts
  | _, [] => none

/-- `msgs "}"`: no message, or one and more (R113). -/
def messages : List Token → Option (List Message)
  | [.closeBrace] => some []
  | ts => messagesFrom [] ts

/-! ## Commands -/

/-- `["CHAIN"] "{" msgs "}"`. -/
def chainedMessages : List Token → Option (Bool × List Message)
  | .openBrace :: ts => (messages ts).map (false, ·)
  | .word ['C', 'H', 'A', 'I', 'N'] :: .openBrace :: ts => (messages ts).map (true, ·)
  | _ => none

/-- The forms of R115 and QUICK of R114, operands separated by commas. -/
def pseudo : List Token → Option Instr
  | [.word ['Q', 'U', 'I', 'C', 'K'], .word a, .comma, .word ['W']] => (field 7 a).map quickWrite
  | [.word ['Q', 'U', 'I', 'C', 'K'], .word a, .comma, .word ['R']] => (field 7 a).map quickRead
  | [.word ['S', 'M', 'B', '_', 'S', 'E', 'N', 'D'], .word a, .comma, .word v] =>
    match field 7 a, field 8 v with
    | some a, some v => some (smbSend a v)
    | _, _ => none
  | [.word ['S', 'M', 'B', '_', 'R', 'E', 'C', 'V'], .word a] => (field 7 a).map smbRecv
  | [.word ['S', 'M', 'B', '_', 'W', 'R', 'I', 'T', 'E', '_', 'B', 'Y', 'T', 'E'], .word a, .comma, .word c, .comma, .word v] =>
    match field 7 a, field 8 c, field 8 v with
    | some a, some c, some v => some (smbWriteByte a c v)
    | _, _, _ => none
  | [.word ['S', 'M', 'B', '_', 'R', 'E', 'A', 'D', '_', 'B', 'Y', 'T', 'E'], .word a, .comma, .word c] =>
    match field 7 a, field 8 c with
    | some a, some c => some (smbReadByte a c)
    | _, _ => none
  | [.word ['S', 'M', 'B', '_', 'W', 'R', 'I', 'T', 'E', '_', 'W', 'O', 'R', 'D'], .word a, .comma, .word c, .comma, .word w] =>
    match field 7 a, field 8 c, field 16 w with
    | some a, some c, some w => some (smbWriteWord a c w)
    | _, _, _ => none
  | [.word ['S', 'M', 'B', '_', 'R', 'E', 'A', 'D', '_', 'W', 'O', 'R', 'D'], .word a, .comma, .word c] =>
    match field 7 a, field 8 c with
    | some a, some c => some (smbReadWord a c)
    | _, _ => none
  | .word ['S', 'M', 'B', '_', 'B', 'L', 'O', 'C', 'K', '_', 'W', 'R', 'I', 'T', 'E'] :: .word a :: .comma :: .word c :: .comma
      :: .openBracket :: ts =>
    match field 7 a, field 8 c, bytes ts with
    | some a, some c, some vs => smbBlockWrite a c vs
    | _, _, _ => none
  | _ => none

/-- `cmd` of R113; a line that is none of its forms may be a pseudo-instruction. -/
def command : List Token → Option Instr
  | [.word ['S', 'T', 'A', 'R', 'T']] => some .start
  | [.word ['S', 'T', 'O', 'P']] => some .stop
  | [.word ['W', 'R', 'B', 'I', 'T'], .word ['0']] => some (.wrbit false)
  | [.word ['W', 'R', 'B', 'I', 'T'], .word ['1']] => some (.wrbit true)
  | [.word ['R', 'D', 'B', 'I', 'T']] => some .rdbit
  | [.word ['W', 'R', 'B', 'Y', 'T', 'E'], .word d] => (field 8 d).map .wrbyte
  | [.word ['R', 'D', 'B', 'Y', 'T', 'E'], .word ['A', 'C', 'K']] => some (.rdbyte true)
  | [.word ['R', 'D', 'B', 'Y', 'T', 'E'], .word ['N', 'A', 'C', 'K']] => some (.rdbyte false)
  | [.word ['R', 'E', 'S', 'E', 'T']] => some .reset
  | [.word ['G', 'E', 'T', 'S', 'T', 'A', 'T', 'E']] => some .getstate
  | [.word ['M', 'U', 'X', 'S', 'E', 'L'], .word c] => (field 8 c).map .muxsel
  | .word ['X', 'F', 'E', 'R'] :: ts => (chainedMessages ts).map fun (chain, ms) => .xfer chain ms
  | .word ['M', 'U', 'X', 'X', 'F', 'E', 'R'] :: .word c :: ts =>
    match field 8 c, chainedMessages ts with
    | some c, some (chain, ms) => some (.muxxfer c chain ms)
    | _, _ => none
  | ts => pseudo ts

/-- One line of the notation (R113); a command that has no encoding is rejected. -/
def parseLine (line : List Char) : Option Instr :=
  match tokens [] line with
  | some ts =>
    match command ts with
    | some i => if i.wellFormed then some i else none
    | none => none
  | none => none

/-- The record of one line (R113). -/
def assemble (line : List Char) : Option Record := (parseLine line).map encode

end Sys2Proof.Assembler
end

