-- ==== Sys2Proof/Safety.lean ====
section
/-! DEFINITION. The terms that claims use: the invariant of the state between commands (10_state.md R24, R26, R27, R29, R31),
what a trace says (20_memory.md R67, 70_reset_and_hazards.md R310), the draws and the traces of commands that succeed (the
worked examples of files 41 to 45, with clock stretches) and of engine commands that fail, how a transfer ends then
(44_transaction.md R204), and the lines of the notation with what they stand for (30_encoding.md R113 to R115). -/

namespace Sys2Proof.Machine

/-! ## The state between commands -/

/-- What holds of every state between commands: the configuration is legal (R29), Stopped is never held (R24), SCL is
released, an idle engine has released both lines (R26), a started one pulls SDA low (R27), a known selection is a channel
of a mux that is present (R31, R242), and no command holds the bus lock (R33). -/
structure Inv (s : State) : Prop where
  legal    : legalConfig s.cfg = true
  bus      : s.bus ≠ .stopped
  scl      : s.scl = .rel
  idle     : s.bus = .idle → s.sda = .rel
  started  : s.bus = .started → s.sda = .low
  selected : ∀ i, s.muxCur = .known i → s.cfg.muxPresent = true ∧ (channelFor s.cfg i).isSome = true
  lock     : s.lock = .free

/-- The engine is in a terminal state (R12). -/
def State.terminal (s : State) : Bool := s.bus == .arbitrationLost || s.bus == .timedOut

/-! ## What a trace says -/

/-- The time of a trace: the sum of its `Wait` durations (R310). -/
def ticks : List Event → Nat
  | [] => 0
  | .wait t :: es => t + ticks es
  | _ :: es => ticks es

/-- The number of SCL polls that returned 0: `s` of R311. -/
def lowPolls : List Event → Nat
  | [] => 0
  | .get .scl false :: es => lowPolls es + 1
  | _ :: es => lowPolls es

/-- The last level that SCL was sampled at (R27). -/
def lastScl : List Event → Option Level
  | [] => none
  | .get .scl v :: es => (lastScl es).or (some v)
  | _ :: es => lastScl es

/-- The number of SDA samples of a trace. -/
def sdaSamples : List Event → Nat
  | [] => 0
  | .get .sda _ :: es => sdaSamples es + 1
  | _ :: es => sdaSamples es

/-- The bus conditions that the master's own drives make (R67): SDA pulled low while SCL is released is a start, SDA
released while SCL is released is a stop. -/
inductive Condition where
  | start | stop
  deriving DecidableEq, Repr

/-- The condition that one change of the SDA drive makes. -/
def sdaMove (scl before after : Drive) : List Condition :=
  match scl, before, after with
  | .rel, .rel, .low => [.start]
  | .rel, .low, .rel => [.stop]
  | _, _, _ => []

/-- The bus conditions of a trace that begins with the given drives, in order (R67). -/
def conditions : (scl sda : Drive) → List Event → List Condition
  | _, _, [] => []
  | scl, sda, .set .sda d :: es => sdaMove scl sda d ++ conditions scl d es
  | _, sda, .set .scl d :: es => conditions d sda es
  | scl, sda, _ :: es => conditions scl sda es

/-- How often a trace releases the clock: one clock pulse each (R182). -/
def clockPulses : List Event → Nat
  | [] => 0
  | .set .scl .rel :: es => clockPulses es + 1
  | _ :: es => clockPulses es

/-- The drive that a trace leaves on a line which had the given drive before (R25). -/
def driveAfter (l : Line) : (before : Drive) → List Event → Drive
  | before, [] => before
  | before, .set l' d :: es => driveAfter l (if l' = l then d else before) es
  | before, _ :: es => driveAfter l before es

/-! ## What a response says -/

/-- `STATUS` of the last response (R106). -/
def State.status (s : State) : Option (BitVec 4) := s.response.map Response.status

/-- A response with the given `STATUS` and every other field 0. -/
def statusOnly (code : BitVec 4) : Response := ⟨code ++ 0#28, 0#32, 0#32, []⟩

/-! ## The table of the state machine (R23) -/

/-- The columns of the table: the engine commands, RESET and GETSTATE. -/
def inTable : Instr → Bool
  | .start | .stop | .wrbit _ | .rdbit | .wrbyte _ | .rdbyte _ | .reset | .getstate => true
  | .xfer _ _ | .muxsel _ | .muxxfer _ _ _ => false

/-- A cell of the table: the bus state after success, or none for ILL. -/
def tableNext : Instr → BusState → Option BusState
  | .start, .idle | .start, .started | .start, .byteInProgress => some .started
  | .stop, .started | .stop, .byteInProgress => some .idle
  | .wrbit _, .started | .wrbit _, .byteInProgress => some .byteInProgress
  | .rdbit, .started | .rdbit, .byteInProgress => some .byteInProgress
  | .wrbyte _, .started | .wrbyte _, .byteInProgress => some .byteInProgress
  | .rdbyte _, .started | .rdbyte _, .byteInProgress => some .byteInProgress
  | .reset, _ => some .idle
  | .getstate, b => some b
  | _, _ => none

/-! ## Records (R104, R110) -/

/-- What R110 (a) to (d) ask of a record that is not malformed: an opcode of the map, the row matched under its mask, the
operands that R104 calls for and no others, reserved descriptor bits 0. -/
def wellFormedRecord (r : Record) : Prop :=
  match opcodeOf (opField r.cmd) with
  | none => False
  | some op =>
    r.cmd &&& op.mask = op.pattern ∧ r.descriptors.length = descriptorCount r.cmd ∧
      r.payload.length = payloadCount r.descriptors ∧ ∀ md ∈ r.descriptors, rsvField md = 0#7

/-- The record asks for a mux command (R110 (e)). -/
def isMuxRecord (r : Record) : Bool :=
  opcodeOf (opField r.cmd) == some .muxsel || opcodeOf (opField r.cmd) == some .muxxfer

/-! ## Several steps -/

/-- `n` steps of the machine; none where one of them does not answer with a next state. -/
def runSteps : Nat → State → Option State
  | 0, s => some s
  | n + 1, s =>
    match step s with
    | .next t => runSteps n t
    | .fault _ => none
    | .refused _ => none

/-! ## Heads and ends of commands -/

/-- The events with which START begins, up to its wait (R141). -/
def startHead (c : Config) (repeated : Bool) : List Event :=
  (if repeated then [.set .scl .low, .wait c.riseFallDelay] else []) ++
  [.set .sda .rel, .wait c.riseFallDelay, .set .scl .rel]

/-- The events with which STOP, WRBIT and RDBIT begin, up to their wait (R142, R160, R161). -/
abbrev riseTrace (c : Config) (d : Drive) : List Event :=
  [.set .scl .low, .wait c.riseFallDelay, .set .sda d, .wait c.riseFallDelay, .set .scl .rel]

/-- The events of RESET (R143). -/
def resetTrace (c : Config) : List Event := [.set .scl .rel, .wait c.riseFallDelay, .set .sda .rel, .wait c.riseFallDelay]

/-! ## Commands that succeed: draws and traces

`n` is the number of polls for which a slave stretches the clock. -/

/-- The draws of a wait that sees `n` low polls and then a high one (R66). -/
def stretchDraws (n : Nat) : List Level := List.replicate n false ++ [true]

/-- The events of `n` low polls, as many as a wait takes that runs out (R66). -/
def lowTrace (c : Config) : (n : Nat) → List Event
  | 0 => []
  | n + 1 => .get .scl false :: .wait c.pollInterval :: lowTrace c n

/-- The events of a wait that sees `n` low polls and then a high one. -/
def stretchTrace (c : Config) (n : Nat) : List Event := lowTrace c n ++ [.get .scl true]

/-- Draws of START (R141): SCL high in the end, SDA high at check A, `b` at check B. -/
def startDraws (n : Nat) (b : Level) : List Level := stretchDraws n ++ [true, b]

/-- Trace of START: a repeated start begins with SCL low. -/
def startTrace (c : Config) (repeated : Bool) (n : Nat) : List Event :=
  (if repeated then [.set .scl .low, .wait c.riseFallDelay] else []) ++
  [.set .sda .rel, .wait c.riseFallDelay, .set .scl .rel] ++ stretchTrace c n ++
  [.get .sda true, .set .sda .low, .wait c.riseFallDelay, .get .sda false, .wait c.holdDelay]

/-- Draws of STOP (R142). -/
def stopDraws (c : Config) (n : Nat) : List Level := stretchDraws n ++ (if c.arbCheckData then [true] else [])

/-- Trace of STOP. -/
def stopTrace (c : Config) (n : Nat) : List Event :=
  [.set .scl .low, .wait c.riseFallDelay, .set .sda .low, .wait c.riseFallDelay, .set .scl .rel] ++ stretchTrace c n ++
  [.wait c.holdDelay, .set .sda .rel, .wait c.riseFallDelay] ++ (if c.arbCheckData then [.get .sda true] else [])

/-- Draws of WRBIT (R160): a sent 1 bit is checked where `ARB_CHECK_DATA` is set. -/
def wrbitDraws (c : Config) (n : Nat) (b : Level) : List Level :=
  stretchDraws n ++ (if b && c.arbCheckData then [true] else [])

/-- Trace of WRBIT. -/
def wrbitTrace (c : Config) (n : Nat) (b : Level) : List Event :=
  [.set .scl .low, .wait c.riseFallDelay, .set .sda (bitDrive b), .wait c.riseFallDelay, .set .scl .rel] ++
  stretchTrace c n ++ (if b && c.arbCheckData then [.get .sda true] else []) ++ [.wait c.holdDelay]

/-- Draws of RDBIT (R161) that reads `v`. -/
def rdbitDraws (n : Nat) (v : Level) : List Level := stretchDraws n ++ [v]

/-- Trace of RDBIT. -/
def rdbitTrace (c : Config) (n : Nat) (v : Level) : List Event :=
  [.set .scl .low, .wait c.riseFallDelay, .set .sda .rel, .wait c.riseFallDelay, .set .scl .rel] ++
  stretchTrace c n ++ [.get .sda v, .wait c.holdDelay]

/-- Draws and trace of a row of sent bits, each with its own stretch. -/
def sendDraws (c : Config) (bits : List (Nat × Level)) : List Level := bits.flatMap fun p => wrbitDraws c p.1 p.2
def sendTrace (c : Config) (bits : List (Nat × Level)) : List Event := bits.flatMap fun p => wrbitTrace c p.1 p.2

/-- Draws and trace of a row of received bits, each with its own stretch. -/
def receiveDraws (bits : List (Nat × Level)) : List Level := bits.flatMap fun p => rdbitDraws p.1 p.2
def receiveTrace (c : Config) (bits : List (Nat × Level)) : List Event := bits.flatMap fun p => rdbitTrace c p.1 p.2

/-- The bits of a byte in wire order, bit number `i` of the wire with the stretch `w i`. -/
def stretchedBits (w : Nat → Nat) (d : Byte) : List (Nat × Level) :=
  [(w 0, d.getLsbD 7), (w 1, d.getLsbD 6), (w 2, d.getLsbD 5), (w 3, d.getLsbD 4),
   (w 4, d.getLsbD 3), (w 5, d.getLsbD 2), (w 6, d.getLsbD 1), (w 7, d.getLsbD 0)]

/-- Draws and trace of WRBYTE (R180) with the acknowledgment level `v` (low is ack); `w` gives the nine stretches. -/
def wrbyteDraws (c : Config) (w : Nat → Nat) (d : Byte) (v : Level) : List Level :=
  sendDraws c (stretchedBits w d) ++ rdbitDraws (w 8) v
def wrbyteTrace (c : Config) (w : Nat → Nat) (d : Byte) (v : Level) : List Event :=
  sendTrace c (stretchedBits w d) ++ rdbitTrace c (w 8) v

/-- Draws and trace of RDBYTE (R181) that receives `v` and sends ack or nack. -/
def rdbyteDraws (c : Config) (w : Nat → Nat) (v : Byte) (sendAck : Bool) : List Level :=
  receiveDraws (stretchedBits w v) ++ wrbitDraws c (w 8) (!sendAck)
def rdbyteTrace (c : Config) (w : Nat → Nat) (v : Byte) (sendAck : Bool) : List Event :=
  receiveTrace c (stretchedBits w v) ++ wrbitTrace c (w 8) (!sendAck)

/-! ## Transfers that succeed (R200)

Every wait of the transfer sees `n` low polls; every byte the master sends is acknowledged. -/

/-- A message with the bytes that the target returns to it; a Write message returns none. -/
abbrev Exchange := Message × List Byte

/-- The bytes returned are as many as the message asks for. -/
def Exchange.fits (x : Exchange) : Prop :=
  x.2.length = if x.1.isRead then x.1.len else 0

/-- Draws and trace of a message up to its address byte, which is answered at level `v` (low is ack) (R201, R202). -/
def addressDraws (c : Config) (n : Nat) (held : Bool) (m : Message) (v : Level) : List Level :=
  (if held && !m.noStart then stopDraws c n else []) ++ startDraws n false ++ wrbyteDraws c (fun _ => n) m.addressByte v
def addressTrace (c : Config) (n : Nat) (held : Bool) (m : Message) (v : Level) : List Event :=
  (if held && !m.noStart then stopTrace c n else []) ++ startTrace c (held && m.noStart) n ++
  wrbyteTrace c (fun _ => n) m.addressByte v

/-- Draws of the bytes of a Read message of which the last one is nacked iff `last` (R205). -/
def readDraws (c : Config) (n : Nat) (last : Bool) : List Byte → List Level
  | [] => []
  | v :: vs => rdbyteDraws c (fun _ => n) v (!(last && vs.isEmpty)) ++ readDraws c n last vs
def readTrace (c : Config) (n : Nat) (last : Bool) : List Byte → List Event
  | [] => []
  | v :: vs => rdbyteTrace c (fun _ => n) v (!(last && vs.isEmpty)) ++ readTrace c n last vs

/-- Draws and trace of acknowledged bytes. -/
def writeDraws (c : Config) (n : Nat) (ds : List Byte) : List Level := ds.flatMap fun d => wrbyteDraws c (fun _ => n) d false
def writeTrace (c : Config) (n : Nat) (ds : List Byte) : List Event := ds.flatMap fun d => wrbyteTrace c (fun _ => n) d false

/-- The payload phase of an exchange. -/
def payloadDraws (c : Config) (n : Nat) (last : Bool) (x : Exchange) : List Level :=
  match x.1 with
  | .write _ _ payload => writeDraws c n payload
  | .read _ _ _ => readDraws c n last x.2
def payloadTrace (c : Config) (n : Nat) (last : Bool) (x : Exchange) : List Event :=
  match x.1 with
  | .write _ _ payload => writeTrace c n payload
  | .read _ _ _ => readTrace c n last x.2

/-- One exchange (R201, R202): STOP before it on a held bus without no_start; START, which is a repeated start on a bus
still held; the address byte; the payload. -/
def exchangeDraws (c : Config) (n : Nat) (held last : Bool) (x : Exchange) : List Level :=
  (if held && !x.1.noStart then stopDraws c n else []) ++ startDraws n false ++
  wrbyteDraws c (fun _ => n) x.1.addressByte false ++ payloadDraws c n last x
def exchangeTrace (c : Config) (n : Nat) (held last : Bool) (x : Exchange) : List Event :=
  (if held && !x.1.noStart then stopTrace c n else []) ++ startTrace c (held && x.1.noStart) n ++
  wrbyteTrace c (fun _ => n) x.1.addressByte false ++ payloadTrace c n last x

/-- Whether a message is the last Read message of the list that begins with it (R205). -/
def isLastRead (m : Message) (rest : List Message) : Bool := m.isRead && !(rest.any (·.isRead))

/-- The exchanges of a transfer, the bus being held after the first; `later` are the messages that follow them (R205). -/
def exchangesDraws (c : Config) (n : Nat) (later : List Message) : (held : Bool) → List Exchange → List Level
  | _, [] => []
  | held, x :: xs =>
    exchangeDraws c n held (isLastRead x.1 (xs.map (·.1) ++ later)) x ++ exchangesDraws c n later true xs
def exchangesTrace (c : Config) (n : Nat) (later : List Message) : (held : Bool) → List Exchange → List Event
  | _, [] => []
  | held, x :: xs =>
    exchangeTrace c n held (isLastRead x.1 (xs.map (·.1) ++ later)) x ++ exchangesTrace c n later true xs

/-- The whole transfer: the exchanges, then STOP on a held bus unless chained (R209). -/
def transferDraws (c : Config) (n : Nat) (held chain : Bool) (xs : List Exchange) : List Level :=
  exchangesDraws c n [] held xs ++ (if !chain && (held || !xs.isEmpty) then stopDraws c n else [])
def transferTrace (c : Config) (n : Nat) (held chain : Bool) (xs : List Exchange) : List Event :=
  exchangesTrace c n [] held xs ++ (if !chain && (held || !xs.isEmpty) then stopTrace c n else [])

/-- The bytes that the exchanges return, in order (R107). -/
def bytesReturned (xs : List Exchange) : List Byte := xs.flatMap (·.2)

/-- `COUNT` of a transfer that succeeds (R206): every payload byte. -/
def payloadTotal (msgs : List Message) : Nat := (msgs.map (·.len)).sum

/-! ## Engine commands that fail, and transfers that end with them (R204)

Each list holds every way in which a command can fail once it has begun, the waits before the failing one seeing `n` low
polls. -/

/-- An engine command that fails: its draws and events, and the bus state and SDA drive it leaves; SCL is released. -/
structure FailedRun where
  draws : List Level
  trace : List Event
  bus   : BusState
  sda   : Drive
  deriving DecidableEq, Repr

/-- The same after draws and events that come before it. -/
def FailedRun.after (draws : List Level) (trace : List Event) (f : FailedRun) : FailedRun :=
  { f with draws := draws ++ f.draws, trace := trace ++ f.trace }

/-- A clock whose rise is not seen within the budget, SDA being driven to `d` (R64, R66). -/
def clockTimeout (c : Config) (d : Drive) : FailedRun :=
  ⟨List.replicate (pollLimit c) false, riseTrace c d ++ lowTrace c (pollLimit c), .timedOut, d⟩

/-- Failures of START (R141): Timeout, check A, and check B, which fails only without readback. -/
def startFailures (c : Config) (n : Nat) (repeated : Bool) : List FailedRun :=
  [⟨List.replicate (pollLimit c) false, startHead c repeated ++ lowTrace c (pollLimit c), .timedOut, .rel⟩,
   ⟨stretchDraws n ++ [false], startHead c repeated ++ stretchTrace c n ++ [.get .sda false], .arbitrationLost, .rel⟩] ++
  (if c.openDrainReadback then [] else
    [⟨stretchDraws n ++ [true, true], startHead c repeated ++ stretchTrace c n ++
      [.get .sda true, .set .sda .low, .wait c.riseFallDelay, .get .sda true], .arbitrationLost, .low⟩])

/-- Failures of STOP (R142): Timeout, and SDA low at the checked release. -/
def stopFailures (c : Config) (n : Nat) : List FailedRun :=
  clockTimeout c .low ::
  (if c.arbCheckData then
    [⟨stretchDraws n ++ [false], riseTrace c .low ++ stretchTrace c n ++
      [.wait c.holdDelay, .set .sda .rel, .wait c.riseFallDelay, .get .sda false], .arbitrationLost, .rel⟩]
  else [])

/-- Failures of WRBIT (R160): Timeout, and SDA low at a checked 1 bit. -/
def wrbitFailures (c : Config) (n : Nat) (b : Level) : List FailedRun :=
  clockTimeout c (bitDrive b) ::
  (if b && c.arbCheckData then
    [⟨stretchDraws n ++ [false], riseTrace c .rel ++ stretchTrace c n ++ [.get .sda false], .arbitrationLost, .rel⟩]
  else [])

/-- Failures of RDBIT (R161): Timeout alone. -/
def rdbitFailures (c : Config) : List FailedRun := [clockTimeout c .rel]

/-- Failures of WRBYTE (R180): in a data bit, the bits before it sent, or in the ninth clock. -/
def wrbyteFailures (c : Config) (n : Nat) (d : Byte) : List FailedRun :=
  let bits := stretchedBits (fun _ => n) d
  ((List.range 8).flatMap fun j => (wrbitFailures c n (d.getLsbD (7 - j))).map
    (·.after (sendDraws c (bits.take j)) (sendTrace c (bits.take j)))) ++
  (rdbitFailures c).map (·.after (sendDraws c bits) (sendTrace c bits))

/-- Failures of RDBYTE (R181) on a byte that begins with bits of `v`: in a data bit, or in the ninth clock. -/
def rdbyteFailures (c : Config) (n : Nat) (v : Byte) (sendAck : Bool) : List FailedRun :=
  let bits := stretchedBits (fun _ => n) v
  ((List.range 8).flatMap fun j => (rdbitFailures c).map
    (·.after (receiveDraws (bits.take j)) (receiveTrace c (bits.take j)))) ++
  (wrbitFailures c n (!sendAck)).map (·.after (receiveDraws bits) (receiveTrace c bits))

/-- The STOP that comes before a message on a held bus, unless it has no_start (R201). -/
def stopBeforeDraws (c : Config) (n : Nat) (held : Bool) (m : Message) : List Level :=
  if held && !m.noStart then stopDraws c n else []
def stopBeforeTrace (c : Config) (n : Nat) (held : Bool) (m : Message) : List Event :=
  if held && !m.noStart then stopTrace c n else []

/-- How a transfer from `s` ends that sees `f.draws` and performs `f.trace` up to an engine failure (R204, R206, R107): the
failure is reported with the bytes completed; RESET follows where `DRIVER_AUTO_RESET` is set, and otherwise the engine
stays as the failing command left it. -/
def State.transferFailed (s : State) (f : FailedRun) (rest : List Level) (count : Nat) (rdata : List Byte) : State :=
  let response : Response :=
    ⟨if f.bus = .timedOut then 0x30000000#32 else 0x20000000#32, BitVec.ofNat 32 count, 0#32, rdata⟩
  if s.cfg.driverAutoReset then
    { s with bus := .idle, scl := .rel, sda := .rel, muxCur := .unknown, env := rest, draws := s.draws + f.draws.length,
             trace := f.trace ++ resetTrace s.cfg, response := some response }
  else
    { s with bus := f.bus, scl := .rel, sda := f.sda, env := rest, draws := s.draws + f.draws.length, trace := f.trace,
             response := some response }

end Sys2Proof.Machine

namespace Sys2Proof.Assembler

/-! ## Lines of the notation (R113 to R115)

The grammar read from the other side: a line as its words and numbers, how it is written, which lines an assembler rejects,
and what the others stand for. The numbers are any, so that a line can hold a value that no field can. -/

/-- `msg` of R113. -/
inductive SourceMessage where
  | write (a : Nat) (ns : Bool) (payload : List Nat)
  | read (a : Nat) (ns : Bool) (len : Nat)
  deriving DecidableEq, Repr

/-- `cmd` of R113. -/
inductive Source where
  | start | stop | wrbit (b : Nat) | rdbit | wrbyte (d : Nat) | rdbyte (sendAck : Bool) | reset | getstate
  | xfer (chain : Bool) (msgs : List SourceMessage)
  | muxsel (c : Nat)
  | muxxfer (c : Nat) (chain : Bool) (msgs : List SourceMessage)
  deriving DecidableEq, Repr

/-- QUICK (R114) and the SMBus forms (R115). -/
inductive PseudoSource where
  | quick (a : Nat) (read : Bool)
  | send (a v : Nat)
  | recv (a : Nat)
  | writeByte (a c v : Nat)
  | readByte (a c : Nat)
  | writeWord (a c w : Nat)
  | readWord (a c : Nat)
  | blockWrite (a c : Nat) (vs : List Nat)
  deriving DecidableEq, Repr

/-! ### What a line stands for -/

/-- `addr7` is below 128, `byte` below 256, `len16` below 65536; `LEN` counts a Write payload (R113, R102). -/
def SourceMessage.encodable : SourceMessage → Bool
  | .write a _ payload => decide (a < 128) && payload.all (fun b => decide (b < 256)) && decide (payload.length < 65536)
  | .read a _ len => decide (a < 128) && decide (len < 65536)

/-- The message of an encodable `msg`. -/
def SourceMessage.message : SourceMessage → Message
  | .write a ns payload => .write (BitVec.ofNat 7 a) ns (payload.map (BitVec.ofNat 8))
  | .read a ns len => .read (BitVec.ofNat 7 a) ns (BitVec.ofNat 16 len)

/-- `N`, the number of `msg` items, has 8 bits (R101, R113). -/
def encodableMessages (msgs : List SourceMessage) : Bool := decide (msgs.length < 256) && msgs.all (·.encodable)

/-- The line has an encoding (R113). -/
def Source.encodable : Source → Bool
  | .wrbit b => decide (b < 2)
  | .wrbyte d => decide (d < 256)
  | .muxsel c => decide (c < 256)
  | .xfer _ msgs => encodableMessages msgs
  | .muxxfer c _ msgs => decide (c < 256) && encodableMessages msgs
  | .start | .stop | .rdbit | .rdbyte _ | .reset | .getstate => true

/-- The command of an encodable line (R113). -/
def Source.instr : Source → Instr
  | .start => .start
  | .stop => .stop
  | .wrbit b => .wrbit (b == 1)
  | .rdbit => .rdbit
  | .wrbyte d => .wrbyte (BitVec.ofNat 8 d)
  | .rdbyte sendAck => .rdbyte sendAck
  | .reset => .reset
  | .getstate => .getstate
  | .xfer chain msgs => .xfer chain (msgs.map (·.message))
  | .muxsel c => .muxsel (BitVec.ofNat 8 c)
  | .muxxfer c chain msgs => .muxxfer (BitVec.ofNat 8 c) chain (msgs.map (·.message))

/-- The expansion of a pseudo-instruction (R114, R115), as a line of R113. -/
def PseudoSource.expansion : PseudoSource → Source
  | .quick a false => .xfer false [.write a false []]
  | .quick a true => .xfer false [.read a false 0]
  | .send a v => .xfer false [.write a false [v]]
  | .recv a => .xfer false [.read a false 1]
  | .writeByte a c v => .xfer false [.write a false [c, v]]
  | .readByte a c => .xfer false [.write a false [c], .read a true 1]
  | .writeWord a c w => .xfer false [.write a false [c, w % 256, w / 256]]
  | .readWord a c => .xfer false [.write a false [c], .read a true 2]
  | .blockWrite a c vs => .xfer false [.write a false (c :: vs.length :: vs)]

/-- The operands fit: those of the expansion, and 1 to 32 bytes in a block write (R115). -/
def PseudoSource.encodable (p : PseudoSource) : Bool :=
  p.expansion.encodable &&
  match p with
  | .blockWrite _ _ vs => decide (1 ≤ vs.length) && decide (vs.length ≤ 32)
  | .quick _ _ | .send _ _ | .recv _ | .writeByte _ _ _ | .readByte _ _ | .writeWord _ _ _ | .readWord _ _ => true

/-! ### How a line is written

As the texts of its tokens, each followed by a space; `hex` writes every number in hexadecimal with 0x, otherwise in
decimal, with no leading zeros either way. -/

/-- The digits of a number, the most significant first; `fuel` is more than the number of digits. -/
def numeralDigits (base : Nat) : (fuel n : Nat) → List Char
  | 0, _ => []
  | fuel + 1, n => (if n < base then [] else numeralDigits base fuel (n / base)) ++ [Nat.digitChar (n % base)]

def numeral (hex : Bool) (n : Nat) : List Char :=
  if hex then '0' :: 'x' :: numeralDigits 16 (n + 1) n else numeralDigits 10 (n + 1) n

def keyword (present : Bool) (letters : List Char) : List (List Char) := if present then [letters] else []

/-- `"[" [byte ("," byte)*] "]"`. -/
def payloadTexts (hex : Bool) (payload : List Nat) : List (List Char) :=
  ['['] :: List.intercalate [[',']] (payload.map fun b => [numeral hex b]) ++ [[']']]

def SourceMessage.texts (hex : Bool) : SourceMessage → List (List Char)
  | .write a ns payload => [['W'], numeral hex a] ++ keyword ns ['N', 'S'] ++ payloadTexts hex payload
  | .read a ns len => [['R'], numeral hex a] ++ keyword ns ['N', 'S'] ++ [numeral hex len]

/-- `["CHAIN"] "{" msgs "}"`. -/
def transferTexts (hex chain : Bool) (msgs : List SourceMessage) : List (List Char) :=
  keyword chain ['C', 'H', 'A', 'I', 'N'] ++ [[Char.ofNat 123]] ++
  List.intercalate [[';']] (msgs.map (·.texts hex)) ++ [[Char.ofNat 125]]

def Source.texts (hex : Bool) : Source → List (List Char)
  | .start => [['S', 'T', 'A', 'R', 'T']]
  | .stop => [['S', 'T', 'O', 'P']]
  | .wrbit b => [['W', 'R', 'B', 'I', 'T'], numeral false b]
  | .rdbit => [['R', 'D', 'B', 'I', 'T']]
  | .wrbyte d => [['W', 'R', 'B', 'Y', 'T', 'E'], numeral hex d]
  | .rdbyte sendAck => [['R', 'D', 'B', 'Y', 'T', 'E'], if sendAck then ['A', 'C', 'K'] else ['N', 'A', 'C', 'K']]
  | .reset => [['R', 'E', 'S', 'E', 'T']]
  | .getstate => [['G', 'E', 'T', 'S', 'T', 'A', 'T', 'E']]
  | .xfer chain msgs => ['X', 'F', 'E', 'R'] :: transferTexts hex chain msgs
  | .muxsel c => [['M', 'U', 'X', 'S', 'E', 'L'], numeral hex c]
  | .muxxfer c chain msgs => ['M', 'U', 'X', 'X', 'F', 'E', 'R'] :: numeral hex c :: transferTexts hex chain msgs

/-- Operands separated by commas, as R114 and R115 print them. -/
def operandTexts (hex : Bool) (operands : List Nat) : List (List Char) :=
  List.intercalate [[',']] (operands.map fun n => [numeral hex n])

def PseudoSource.texts (hex : Bool) : PseudoSource → List (List Char)
  | .quick a read => ['Q', 'U', 'I', 'C', 'K'] :: operandTexts hex [a] ++ [[','], if read then ['R'] else ['W']]
  | .send a v => ['S', 'M', 'B', '_', 'S', 'E', 'N', 'D'] :: operandTexts hex [a, v]
  | .recv a => ['S', 'M', 'B', '_', 'R', 'E', 'C', 'V'] :: operandTexts hex [a]
  | .writeByte a c v => ['S', 'M', 'B', '_', 'W', 'R', 'I', 'T', 'E', '_', 'B', 'Y', 'T', 'E'] :: operandTexts hex [a, c, v]
  | .readByte a c => ['S', 'M', 'B', '_', 'R', 'E', 'A', 'D', '_', 'B', 'Y', 'T', 'E'] :: operandTexts hex [a, c]
  | .writeWord a c w => ['S', 'M', 'B', '_', 'W', 'R', 'I', 'T', 'E', '_', 'W', 'O', 'R', 'D'] :: operandTexts hex [a, c, w]
  | .readWord a c => ['S', 'M', 'B', '_', 'R', 'E', 'A', 'D', '_', 'W', 'O', 'R', 'D'] :: operandTexts hex [a, c]
  | .blockWrite a c vs => ['S', 'M', 'B', '_', 'B', 'L', 'O', 'C', 'K', '_', 'W', 'R', 'I', 'T', 'E'] ::
      operandTexts hex [a, c] ++ [[',']] ++ payloadTexts hex vs

/-- The characters of a line. -/
def written (texts : List (List Char)) : List Char := texts.flatMap (· ++ [' '])

end Sys2Proof.Assembler
end

