-- ==== Sys2Proof/Certificates/Slice0/Obligations.lean ====
section
/-! DEFINITION. The statements for the provers. Draws are the levels the environment shows to the samples of a command, in
order; a statement quantifies over the draws, over the configuration in the state, and over everything else in it. -/

open Sys2Proof Sys2Proof.Machine

/-! ## Construction and configuration (10_state.md) -/

/-- R44: construction sets every field to its reset value. -/
def Obligations.ConstructionSetsResetTable : Prop :=
  ∀ (c : Config) (s : State), State.construct? c = some s →
    s.bus = .idle ∧ s.scl = .rel ∧ s.sda = .rel ∧ s.muxCur = .unknown ∧ s.lock = .free ∧ s.cfg = c ∧
    s.response = none ∧ s.trace = []

/-- R29: a block is constructed exactly with a legal configuration. (That `MUX_ADDR` fits in 7 bits holds by its type.) -/
def Obligations.ConstructionRefusesIllegal : Prop :=
  ∀ c : Config, (State.construct? c).isSome = true ↔
    c.timeout > 2 * c.holdDelay ∧ c.pollInterval ≥ 1 ∧ (c.channels.map (·.index)).Nodup

/-- No command writes the configuration (R28, R30). That none writes the port (log entry 4, DESIGN CHOICE) or the bus lock
(log entry 7, DEDUCED), which the step alone moves, is the model's. -/
def Obligations.ConfigurationIsNeverWritten : Prop :=
  ∀ (i : Instr) (s t : State), exec i s = .next t → t.cfg = s.cfg ∧ t.port = s.port ∧ t.lock = s.lock

/-- R25: the drive registers hold what the trace last set, for every command in every state. -/
def Obligations.DrivesFollowTheTrace : Prop :=
  ∀ (i : Instr) (s t : State), exec i s = .next t →
    t.scl = driveAfter .scl s.scl t.trace ∧ t.sda = driveAfter .sda s.sda t.trace

/-- R23: every cell of the state table. An ILL cell is refused and changes nothing; any other command of the table
succeeds into its cell, or, if it performs bus events, ends in a terminal state. -/
def Obligations.StateMachineTable : Prop :=
  ∀ (i : Instr) (s t : State), inTable i = true → exec i s = .next t →
    (tableNext i s.bus = none → t = { s with trace := [], response := some (statusOnly 4#4) }) ∧
    (∀ b, tableNext i s.bus = some b →
      t.status = some 0#4 ∧ t.bus = b ∨
      i ≠ .reset ∧ i ≠ .getstate ∧
        (t.status = some 2#4 ∧ t.bus = .arbitrationLost ∨ t.status = some 3#4 ∧ t.bus = .timedOut))

/-- R31: the cached selection after construction and after every command, from the status the command reports. -/
def Obligations.SelectionAfterEveryCommand : Prop :=
  (∀ c s, State.construct? c = some s → s.muxCur = .unknown) ∧
  ∀ s : State,
    (∀ i t, inTable i = true → exec i s = .next t → t.muxCur = if i = .reset then .unknown else s.muxCur) ∧
    (∀ chain msgs t, exec (.xfer chain msgs) s = .next t →
      t.muxCur = if (t.status = some 2#4 ∨ t.status = some 3#4) ∧ s.cfg.driverAutoReset = true then .unknown
        else s.muxCur) ∧
    (∀ c t, exec (.muxsel c) s = .next t →
      t.muxCur = if t.status = some 0#4 then .known c else if t.status = some 5#4 then s.muxCur else .unknown) ∧
    (∀ c chain msgs t u, exec (.muxsel c) s = .next t → exec (.muxxfer c chain msgs) s = .next u →
      u.muxCur = if t.status = some 0#4 then
          (if (u.status = some 2#4 ∨ u.status = some 3#4) ∧ s.cfg.driverAutoReset = true then .unknown else .known c)
        else if t.status = some 5#4 then s.muxCur else .unknown)

/-- R32: the cached selection selects nothing. With another one, every command but GETSTATE reports the same and leaves the
same state, the selection apart. -/
def Obligations.SelectionSelectsNothing : Prop :=
  ∀ (i : Instr) (s : State) (m : MuxSelection), i ≠ .getstate →
    ∃ t u, exec i s = .next t ∧ exec i { s with muxCur := m } = .next u ∧ { u with muxCur := t.muxCur } = t

/-! ## The lines and the wait (20_memory.md) -/

/-- R61, R62, R63: what the three line primitives do, and that they do nothing else. -/
def Obligations.LinePrimitives : Prop :=
  ∀ (s : State) (l : Line) (d : Drive) (n : Nat),
    s.setLine .scl d = { s with scl := d, trace := s.trace ++ [.set .scl d] } ∧
    s.setLine .sda d = { s with sda := d, trace := s.trace ++ [.set .sda d] } ∧
    s.delay n = { s with trace := s.trace ++ [.wait n] } ∧
    s.sense l = (if s.cfg.openDrainReadback = true ∧ s.drv l = .low then false else s.draw) ∧
    s.sampled l = { s with trace := s.trace ++ [.get l (s.sense l)], env := s.env.tail, draws := s.draws + 1 }

/-- R66: `POLL_LIMIT` is the number of polls that fit into the budget, and at least 1; a wait on released SCL returns after
the first high poll if the low ones before it fit into the budget, and fails with Timeout after exactly `POLL_LIMIT` low
polls otherwise. -/
def Obligations.WaitEndsByTheBudget : Prop :=
  ∀ (s : State) (rest : List Level), legalConfig s.cfg = true → s.scl = .rel →
    1 ≤ pollLimit s.cfg ∧ (∀ k : Nat, k * s.cfg.pollInterval < s.cfg.timeout ↔ k < pollLimit s.cfg) ∧
    (∀ n, n < pollLimit s.cfg → s.env = List.replicate n false ++ true :: rest →
      waitSclHigh s = .ok () { s with trace := s.trace ++ lowTrace s.cfg n ++ [.get .scl true], env := rest,
                                      draws := s.draws + (n + 1) }) ∧
    (s.env = List.replicate (pollLimit s.cfg) false ++ rest →
      waitSclHigh s = .fail .timeout { s with bus := .timedOut, trace := s.trace ++ lowTrace s.cfg (pollLimit s.cfg),
                                              env := rest, draws := s.draws + pollLimit s.cfg })

/-- R65: a command that is refused, and GETSTATE, performs no line event and leaves bus state and drives alone. -/
def Obligations.RefusedCommandsHaveNoEvents : Prop :=
  ∀ (i : Instr) (s t : State), exec i s = .next t →
    i = .getstate ∨ t.status = some 4#4 ∨ t.status = some 5#4 ∨ t.status = some 6#4 →
    t.trace = [] ∧ t.bus = s.bus ∧ t.scl = s.scl ∧ t.sda = s.sda ∧ t.env = s.env ∧ t.draws = s.draws

/-- R67, R143: the bus conditions that the master's drives make. A bit or a byte makes none, from any drives and whatever its
outcome; a START that succeeds makes one start, a STOP that succeeds one stop; RESET makes a stop where SDA was pulled low,
its SCL being released first, and none where SDA was released. -/
def Obligations.BusConditionsOfTheDrives : Prop :=
  ∀ (s t : State),
    (∀ b, exec (.wrbit b) s = .next t → conditions s.scl s.sda t.trace = []) ∧
    (exec .rdbit s = .next t → conditions s.scl s.sda t.trace = []) ∧
    (∀ d, exec (.wrbyte d) s = .next t → conditions s.scl s.sda t.trace = []) ∧
    (∀ a, exec (.rdbyte a) s = .next t → conditions s.scl s.sda t.trace = []) ∧
    (exec .start s = .next t → t.status = some 0#4 → (s.bus = .idle → s.sda = .rel) →
      conditions s.scl s.sda t.trace = [.start]) ∧
    (exec .stop s = .next t → t.status = some 0#4 → conditions s.scl s.sda t.trace = [.stop]) ∧
    (exec .reset s = .next t → conditions s.scl s.sda t.trace = if s.sda = .low then [.stop] else [])

/-- A command that performed events and leaves the bus held has released SCL, and its last SCL sample was high. This is R27
with its "last command" read as the last command that performed line events: log entry 16 (DEDUCED). -/
def Obligations.HeldBusHasSeenClockHigh : Prop :=
  ∀ (i : Instr) (s t : State), exec i s = .next t → t.held = true → t.trace ≠ [] →
    t.scl = .rel ∧ lastScl t.trace = some true

/-- R311: the delay sum of every command of the table that succeeds, from its low polls. -/
def Obligations.DelaySums : Prop :=
  ∀ (i : Instr) (s t : State), exec i s = .next t → t.status = some 0#4 →
    let rf := s.cfg.riseFallDelay
    let hold := s.cfg.holdDelay
    let stretch := lowPolls t.trace * s.cfg.pollInterval
    match i with
    | .start => ticks t.trace = (if s.bus = .idle then 2 * rf else 3 * rf) + hold + stretch
    | .stop => ticks t.trace = 3 * rf + hold + stretch
    | .wrbit _ | .rdbit => ticks t.trace = 2 * rf + hold + stretch
    | .wrbyte _ | .rdbyte _ => ticks t.trace = 9 * (2 * rf + hold) + stretch
    | .reset => ticks t.trace = 2 * rf
    | .getstate => ticks t.trace = 0
    | .xfer _ _ | .muxsel _ | .muxxfer _ _ _ => True

/-! ## Bus conditions (41_bus_conditions.md) -/

/-- R141: START, all of its ends. -/
def Obligations.StartRule : Prop :=
  ∀ (s : State) (rest : List Level), legalConfig s.cfg = true →
    (s.bus ∉ [BusState.idle, .started, .byteInProgress] →
      exec .start s = .next { s with trace := [], response := some ⟨0x40000000#32, 0#32, 0#32, []⟩ }) ∧
    (s.bus ∈ [BusState.idle, .started, .byteInProgress] →
      (s.env = List.replicate (pollLimit s.cfg) false ++ rest →
        exec .start s = .next { s with
          bus := .timedOut, scl := .rel, sda := .rel, env := rest, draws := s.draws + pollLimit s.cfg,
          trace := startHead s.cfg (s.bus != .idle) ++ lowTrace s.cfg (pollLimit s.cfg),
          response := some ⟨0x30000000#32, 0#32, 0#32, []⟩ }) ∧
      (∀ n, n < pollLimit s.cfg → s.env = stretchDraws n ++ false :: rest →
        exec .start s = .next { s with
          bus := .arbitrationLost, scl := .rel, sda := .rel, env := rest, draws := s.draws + (n + 2),
          trace := startHead s.cfg (s.bus != .idle) ++ stretchTrace s.cfg n ++ [.get .sda false],
          response := some ⟨0x20000000#32, 0#32, 0#32, []⟩ }) ∧
      (∀ n, n < pollLimit s.cfg → s.env = stretchDraws n ++ true :: true :: rest → s.cfg.openDrainReadback = false →
        exec .start s = .next { s with
          bus := .arbitrationLost, scl := .rel, sda := .low, env := rest, draws := s.draws + (n + 3),
          trace := startHead s.cfg (s.bus != .idle) ++ stretchTrace s.cfg n ++
            [.get .sda true, .set .sda .low, .wait s.cfg.riseFallDelay, .get .sda true],
          response := some ⟨0x20000000#32, 0#32, 0#32, []⟩ }) ∧
      (∀ n b, n < pollLimit s.cfg → s.env = stretchDraws n ++ true :: b :: rest →
          s.cfg.openDrainReadback = true ∨ b = false →
        exec .start s = .next { s with
          bus := .started, scl := .rel, sda := .low, env := rest, draws := s.draws + (n + 3),
          trace := startTrace s.cfg (s.bus != .idle) n,
          response := some ⟨0x00000000#32, 0#32, 0#32, []⟩ }))

/-- R142: STOP, all of its ends. -/
def Obligations.StopRule : Prop :=
  ∀ (s : State) (rest : List Level), legalConfig s.cfg = true →
    (s.bus ∉ [BusState.started, .byteInProgress] →
      exec .stop s = .next { s with trace := [], response := some ⟨0x40000000#32, 0#32, 0#32, []⟩ }) ∧
    (s.bus ∈ [BusState.started, .byteInProgress] →
      (s.env = List.replicate (pollLimit s.cfg) false ++ rest →
        exec .stop s = .next { s with
          bus := .timedOut, scl := .rel, sda := .low, env := rest, draws := s.draws + pollLimit s.cfg,
          trace := riseTrace s.cfg .low ++ lowTrace s.cfg (pollLimit s.cfg),
          response := some ⟨0x30000000#32, 0#32, 0#32, []⟩ }) ∧
      (∀ n, n < pollLimit s.cfg → s.env = stretchDraws n ++ false :: rest → s.cfg.arbCheckData = true →
        exec .stop s = .next { s with
          bus := .arbitrationLost, scl := .rel, sda := .rel, env := rest, draws := s.draws + (n + 2),
          trace := riseTrace s.cfg .low ++ stretchTrace s.cfg n ++
            [.wait s.cfg.holdDelay, .set .sda .rel, .wait s.cfg.riseFallDelay, .get .sda false],
          response := some ⟨0x20000000#32, 0#32, 0#32, []⟩ }) ∧
      (∀ n, n < pollLimit s.cfg → s.env = stopDraws s.cfg n ++ rest →
        exec .stop s = .next { s with
          bus := .idle, scl := .rel, sda := .rel, env := rest, draws := s.draws + (stopDraws s.cfg n).length,
          trace := stopTrace s.cfg n, response := some ⟨0x00000000#32, 0#32, 0#32, []⟩ }))

/-- R143: RESET, in every state and whatever the environment shows. -/
def Obligations.ResetRule : Prop :=
  ∀ s : State, exec .reset s = .next { s with
    bus := .idle, scl := .rel, sda := .rel, muxCur := .unknown,
    trace := [.set .scl .rel, .wait s.cfg.riseFallDelay, .set .sda .rel, .wait s.cfg.riseFallDelay],
    response := some ⟨0x00000000#32, 0#32, 0#32, []⟩ }

/-- R144, R22: GETSTATE in every state: the fields of the state word, the mux index, and nothing changed. -/
def Obligations.GetstateRule : Prop :=
  ∀ s : State, ∃ v : Byte,
    exec .getstate s = .next { s with trace := [], response := some ⟨v.setWidth 32, 0#32,
      (match s.muxCur with | .known i => i | .unknown => 0#8).setWidth 32, []⟩ } ∧
    v.extractLsb' 0 3 = (match s.bus with
      | .idle => 0#3 | .started => 1#3 | .byteInProgress => 2#3 | .stopped => 3#3 | .arbitrationLost => 4#3
      | .timedOut => 5#3) ∧
    v.getLsbD 3 = false ∧ (v.getLsbD 4 = true ↔ s.scl = .rel) ∧ (v.getLsbD 5 = true ↔ s.sda = .rel) ∧
    (v.getLsbD 6 = true ↔ s.muxCur ≠ .unknown) ∧ v.getLsbD 7 = false ∧
    (Inv s → s.bus = .idle → v = 0x30#8 ∨ v = 0x70#8)

/-! ## Bits and bytes (42_bit_transfer.md, 43_byte_transfer.md) -/

/-- R160: WRBIT, all of its ends. -/
def Obligations.WrbitRule : Prop :=
  ∀ (b : Bool) (s : State) (rest : List Level), legalConfig s.cfg = true →
    (s.bus ∉ [BusState.started, .byteInProgress] →
      exec (.wrbit b) s = .next { s with trace := [], response := some ⟨0x40000000#32, 0#32, 0#32, []⟩ }) ∧
    (s.bus ∈ [BusState.started, .byteInProgress] →
      (s.env = List.replicate (pollLimit s.cfg) false ++ rest →
        exec (.wrbit b) s = .next { s with
          bus := .timedOut, scl := .rel, sda := if b then .rel else .low, env := rest,
          draws := s.draws + pollLimit s.cfg,
          trace := riseTrace s.cfg (if b then .rel else .low) ++ lowTrace s.cfg (pollLimit s.cfg),
          response := some ⟨0x30000000#32, 0#32, 0#32, []⟩ }) ∧
      (∀ n, n < pollLimit s.cfg → s.env = stretchDraws n ++ false :: rest → b = true → s.cfg.arbCheckData = true →
        exec (.wrbit b) s = .next { s with
          bus := .arbitrationLost, scl := .rel, sda := .rel, env := rest, draws := s.draws + (n + 2),
          trace := riseTrace s.cfg .rel ++ stretchTrace s.cfg n ++ [.get .sda false],
          response := some ⟨0x20000000#32, 0#32, 0#32, []⟩ }) ∧
      (∀ n, n < pollLimit s.cfg → s.env = wrbitDraws s.cfg n b ++ rest →
        exec (.wrbit b) s = .next { s with
          bus := .byteInProgress, scl := .rel, sda := if b then .rel else .low, env := rest,
          draws := s.draws + (wrbitDraws s.cfg n b).length,
          trace := wrbitTrace s.cfg n b, response := some ⟨0x00000000#32, 0#32, 0#32, []⟩ }))

/-- R161: RDBIT, all of its ends; ArbitrationLost is none of them. -/
def Obligations.RdbitRule : Prop :=
  ∀ (s : State) (rest : List Level), legalConfig s.cfg = true →
    (s.bus ∉ [BusState.started, .byteInProgress] →
      exec .rdbit s = .next { s with trace := [], response := some ⟨0x40000000#32, 0#32, 0#32, []⟩ }) ∧
    (s.bus ∈ [BusState.started, .byteInProgress] →
      (s.env = List.replicate (pollLimit s.cfg) false ++ rest →
        exec .rdbit s = .next { s with
          bus := .timedOut, scl := .rel, sda := .rel, env := rest, draws := s.draws + pollLimit s.cfg,
          trace := riseTrace s.cfg .rel ++ lowTrace s.cfg (pollLimit s.cfg),
          response := some ⟨0x30000000#32, 0#32, 0#32, []⟩ }) ∧
      (∀ n v, n < pollLimit s.cfg → s.env = stretchDraws n ++ v :: rest →
        exec .rdbit s = .next { s with
          bus := .byteInProgress, scl := .rel, sda := .rel, env := rest, draws := s.draws + (n + 2),
          trace := rdbitTrace s.cfg n v,
          response := some ⟨if v then 0x00000001#32 else 0x00000000#32, 0#32, 0#32, []⟩ })) ∧
    (∀ t, exec .rdbit s = .next t → t.status ≠ some 2#4)

/-- R180: WRBYTE, all of its ends: success with either acknowledgment, Timeout in any of the nine clocks, ArbitrationLost in
any 1 bit. Bit number `j` of the wire is `d[7 - j]`, and `w j` its stretch. -/
def Obligations.WrbyteRule : Prop :=
  ∀ (d : Byte) (s : State) (rest : List Level) (w : Nat → Nat), legalConfig s.cfg = true →
    (∀ j ≤ 8, w j < pollLimit s.cfg) →
    (s.bus ∉ [BusState.started, .byteInProgress] →
      exec (.wrbyte d) s = .next { s with trace := [], response := some ⟨0x40000000#32, 0#32, 0#32, []⟩ }) ∧
    (s.bus ∈ [BusState.started, .byteInProgress] →
      (∀ v, s.env = wrbyteDraws s.cfg w d v ++ rest →
        exec (.wrbyte d) s = .next { s with
          bus := .byteInProgress, scl := .rel, sda := .rel, env := rest,
          draws := s.draws + (wrbyteDraws s.cfg w d v).length, trace := wrbyteTrace s.cfg w d v,
          response := some ⟨if v then 0x00000000#32 else 0x00010000#32, 0#32, 0#32, []⟩ }) ∧
      (∀ j < 8, s.env = sendDraws s.cfg ((stretchedBits w d).take j) ++ List.replicate (pollLimit s.cfg) false ++ rest →
        exec (.wrbyte d) s = .next { s with
          bus := .timedOut, scl := .rel, sda := if d.getLsbD (7 - j) then .rel else .low, env := rest,
          draws := s.draws + (sendDraws s.cfg ((stretchedBits w d).take j)).length + pollLimit s.cfg,
          trace := sendTrace s.cfg ((stretchedBits w d).take j) ++
            riseTrace s.cfg (if d.getLsbD (7 - j) then .rel else .low) ++ lowTrace s.cfg (pollLimit s.cfg),
          response := some ⟨0x30000000#32, 0#32, 0#32, []⟩ }) ∧
      (s.env = sendDraws s.cfg (stretchedBits w d) ++ List.replicate (pollLimit s.cfg) false ++ rest →
        exec (.wrbyte d) s = .next { s with
          bus := .timedOut, scl := .rel, sda := .rel, env := rest,
          draws := s.draws + (sendDraws s.cfg (stretchedBits w d)).length + pollLimit s.cfg,
          trace := sendTrace s.cfg (stretchedBits w d) ++ riseTrace s.cfg .rel ++ lowTrace s.cfg (pollLimit s.cfg),
          response := some ⟨0x30000000#32, 0#32, 0#32, []⟩ }) ∧
      (∀ j < 8, d.getLsbD (7 - j) = true → s.cfg.arbCheckData = true →
          s.env = sendDraws s.cfg ((stretchedBits w d).take j) ++ stretchDraws (w j) ++ false :: rest →
        exec (.wrbyte d) s = .next { s with
          bus := .arbitrationLost, scl := .rel, sda := .rel, env := rest,
          draws := s.draws + (sendDraws s.cfg ((stretchedBits w d).take j)).length + (w j + 2),
          trace := sendTrace s.cfg ((stretchedBits w d).take j) ++ riseTrace s.cfg .rel ++ stretchTrace s.cfg (w j) ++
            [.get .sda false],
          response := some ⟨0x20000000#32, 0#32, 0#32, []⟩ }))

/-- R181: RDBYTE, all of its ends: success, Timeout in any of the nine clocks, ArbitrationLost in the ninth clock of a
checked nack. -/
def Obligations.RdbyteRule : Prop :=
  ∀ (a : Bool) (s : State) (rest : List Level) (w : Nat → Nat) (v : Byte), legalConfig s.cfg = true →
    (∀ j ≤ 8, w j < pollLimit s.cfg) →
    (s.bus ∉ [BusState.started, .byteInProgress] →
      exec (.rdbyte a) s = .next { s with trace := [], response := some ⟨0x40000000#32, 0#32, 0#32, []⟩ }) ∧
    (s.bus ∈ [BusState.started, .byteInProgress] →
      (s.env = rdbyteDraws s.cfg w v a ++ rest →
        exec (.rdbyte a) s = .next { s with
          bus := .byteInProgress, scl := .rel, sda := if a then .low else .rel, env := rest,
          draws := s.draws + (rdbyteDraws s.cfg w v a).length, trace := rdbyteTrace s.cfg w v a,
          response := some ⟨v.setWidth 32, 0#32, 0#32, []⟩ }) ∧
      (∀ j < 8, s.env = receiveDraws ((stretchedBits w v).take j) ++ List.replicate (pollLimit s.cfg) false ++ rest →
        exec (.rdbyte a) s = .next { s with
          bus := .timedOut, scl := .rel, sda := .rel, env := rest,
          draws := s.draws + (receiveDraws ((stretchedBits w v).take j)).length + pollLimit s.cfg,
          trace := receiveTrace s.cfg ((stretchedBits w v).take j) ++ riseTrace s.cfg .rel ++
            lowTrace s.cfg (pollLimit s.cfg),
          response := some ⟨0x30000000#32, 0#32, 0#32, []⟩ }) ∧
      (s.env = receiveDraws (stretchedBits w v) ++ List.replicate (pollLimit s.cfg) false ++ rest →
        exec (.rdbyte a) s = .next { s with
          bus := .timedOut, scl := .rel, sda := if a then .low else .rel, env := rest,
          draws := s.draws + (receiveDraws (stretchedBits w v)).length + pollLimit s.cfg,
          trace := receiveTrace s.cfg (stretchedBits w v) ++ riseTrace s.cfg (if a then .low else .rel) ++
            lowTrace s.cfg (pollLimit s.cfg),
          response := some ⟨0x30000000#32, 0#32, 0#32, []⟩ }) ∧
      (a = false → s.cfg.arbCheckData = true →
          s.env = receiveDraws (stretchedBits w v) ++ stretchDraws (w 8) ++ false :: rest →
        exec (.rdbyte a) s = .next { s with
          bus := .arbitrationLost, scl := .rel, sda := .rel, env := rest,
          draws := s.draws + (receiveDraws (stretchedBits w v)).length + (w 8 + 2),
          trace := receiveTrace s.cfg (stretchedBits w v) ++ riseTrace s.cfg .rel ++ stretchTrace s.cfg (w 8) ++
            [.get .sda false],
          response := some ⟨0x20000000#32, 0#32, 0#32, []⟩ }))

/-- R182: a byte that completes is nine clock pulses, and a bit that completes is one. -/
def Obligations.ByteIsNineClocks : Prop :=
  ∀ (s t : State), t.status = some 0#4 →
    (∀ d, exec (.wrbyte d) s = .next t → clockPulses t.trace = 9) ∧
    (∀ a, exec (.rdbyte a) s = .next t → clockPulses t.trace = 9) ∧
    (∀ b, exec (.wrbit b) s = .next t → clockPulses t.trace = 1) ∧
    (exec .rdbit s = .next t → clockPulses t.trace = 1)

/-! ## Failures (60_exceptions.md) -/

/-- R263: what an engine command that reports ArbitrationLost was doing, whatever the environment showed. -/
def Obligations.ArbitrationLostOnlyAtChecks : Prop :=
  ∀ (i : Instr) (s t : State), inTable i = true → exec i s = .next t → t.status = some 2#4 →
    match i with
    | .start => t.sda = .low → s.cfg.openDrainReadback = false
    | .stop => s.cfg.arbCheckData = true
    | .wrbit b => b = true ∧ s.cfg.arbCheckData = true
    | .wrbyte d => d ≠ 0#8 ∧ s.cfg.arbCheckData = true
    | .rdbyte a => a = false ∧ s.cfg.arbCheckData = true
    | .rdbit | .reset | .getstate | .xfer _ _ | .muxsel _ | .muxxfer _ _ _ => False

/-- R264, R271: a failure of an engine command is precise. The trace ends with the sample that failed, or with all the polls
of the wait that ran out. -/
def Obligations.EngineFailuresArePrecise : Prop :=
  ∀ (i : Instr) (s t : State), legalConfig s.cfg = true → inTable i = true → exec i s = .next t →
    (t.status = some 2#4 → t.bus = .arbitrationLost ∧ ∃ es v, t.trace = es ++ [.get .sda v]) ∧
    (t.status = some 3#4 → t.bus = .timedOut ∧
      ∃ es, t.trace = es ++ .set .scl .rel :: lowTrace s.cfg (pollLimit s.cfg))

/-- R265: IllegalState is reported exactly where the command is not admitted, before any line event; a mux command makes the
selection unknown. The mux commands are looked at where nothing of higher priority applies (R270). -/
def Obligations.IllegalStateExactlyWhereNotAdmitted : Prop :=
  ∀ (i : Instr) (s : State), s.bus ≠ .stopped →
    let refused : State := { s with trace := [], response := some (statusOnly 4#4) }
    (inTable i = true → (tableNext i s.bus = none → exec i s = .next refused) ∧
      (∀ t, exec i s = .next t → t.status = some 4#4 → tableNext i s.bus = none)) ∧
    (∀ chain msgs, i = .xfer chain msgs → (s.terminal = true → exec i s = .next refused) ∧
      (∀ t, exec i s = .next t → t.status = some 4#4 → s.terminal = true)) ∧
    (∀ c, (i = .muxsel c ∨ ∃ chain msgs, i = .muxxfer c chain msgs) → s.cfg.muxPresent = true →
      c ∈ s.cfg.channels.map (·.index) →
      (s.terminal = true → exec i s = .next { refused with muxCur := .unknown }) ∧
      (∀ t, exec i s = .next t → t.status = some 4#4 → s.terminal = true))

/-- R268: RESET is the only command that leaves a terminal state, and it always does. -/
def Obligations.OnlyResetLeavesTerminal : Prop :=
  ∀ (i : Instr) (s t : State), s.terminal = true → exec i s = .next t →
    (i ≠ .reset → t.bus = s.bus ∧ t.scl = s.scl ∧ t.sda = s.sda ∧ t.trace = []) ∧
    (i = .reset → t.bus = .idle ∧ t.scl = .rel ∧ t.sda = .rel ∧ t.muxCur = .unknown ∧ t.status = some 0#4)

/-- R261: every command, in every state, ends with a response; none faults and none is refused by the model. -/
def Obligations.EveryCommandAnswers : Prop :=
  ∀ (i : Instr) (s : State), ∃ t r, exec i s = .next t ∧ t.response = some r ∧ r.status.toNat ≤ 6

/-! ## Transfers (44_transaction.md) -/

/-- R200, R201, R205, R209: a transfer of one message or more on which every byte is acknowledged and every wait sees `n` low
polls: Ok, every payload byte counted, every byte returned, and the trace of the messages in order. -/
def Obligations.XferSucceeds : Prop :=
  ∀ (chain : Bool) (xs : List Exchange) (n : Nat) (s : State) (rest : List Level), xs ≠ [] → (∀ x ∈ xs, x.fits) →
    legalConfig s.cfg = true → s.ready = true → n < pollLimit s.cfg →
    s.env = transferDraws s.cfg n s.held chain xs ++ rest →
    exec (.xfer chain (xs.map (·.1))) s = .next { s with
      bus := if chain then .byteInProgress else .idle, scl := .rel, sda := .rel,
      env := rest, draws := s.draws + (transferDraws s.cfg n s.held chain xs).length,
      trace := transferTrace s.cfg n s.held chain xs,
      response := some ⟨0x00000000#32, BitVec.ofNat 32 (payloadTotal (xs.map (·.1))), 0#32, bytesReturned xs⟩ }

/-- R210: the empty transfer. -/
def Obligations.EmptyXfer : Prop :=
  ∀ (chain : Bool) (s : State), legalConfig s.cfg = true → s.ready = true →
    (chain = true ∨ s.held = false →
      exec (.xfer chain []) s = .next { s with trace := [], response := some ⟨0#32, 0#32, 0#32, []⟩ }) ∧
    (∀ n rest, chain = false → s.held = true → n < pollLimit s.cfg → s.env = stopDraws s.cfg n ++ rest →
      exec (.xfer chain []) s = .next { s with
        bus := .idle, scl := .rel, sda := .rel, env := rest, draws := s.draws + (stopDraws s.cfg n).length,
        trace := stopTrace s.cfg n, response := some ⟨0#32, 0#32, 0#32, []⟩ })

/-- R211: a terminal engine refuses XFER. -/
def Obligations.XferRefusedOnTerminalEngine : Prop :=
  ∀ (chain : Bool) (msgs : List Message) (s : State), s.bus = .arbitrationLost ∨ s.bus = .timedOut →
    exec (.xfer chain msgs) s = .next { s with trace := [], response := some ⟨0x40000000#32, 0#32, 0#32, []⟩ }

/-- R202, R207: the address byte of the message after the exchanges `xs` is nacked: cleanup STOP, Nack(0), the bytes of the
earlier messages counted, the later messages not run. -/
def Obligations.XferAddressNack : Prop :=
  ∀ (chain : Bool) (xs : List Exchange) (m : Message) (later : List Message) (n : Nat) (s : State) (rest : List Level),
    (∀ x ∈ xs, x.fits) → legalConfig s.cfg = true → s.ready = true → n < pollLimit s.cfg →
    let draws := exchangesDraws s.cfg n (m :: later) s.held xs ++ addressDraws s.cfg n (s.held || !xs.isEmpty) m true ++
      stopDraws s.cfg n
    s.env = draws ++ rest →
    exec (.xfer chain (xs.map (·.1) ++ m :: later)) s = .next { s with
      bus := .idle, scl := .rel, sda := .rel, env := rest, draws := s.draws + draws.length,
      trace := exchangesTrace s.cfg n (m :: later) s.held xs ++ addressTrace s.cfg n (s.held || !xs.isEmpty) m true ++
        stopTrace s.cfg n,
      response := some ⟨0x10000000#32, BitVec.ofNat 32 (payloadTotal (xs.map (·.1))), 0#32, bytesReturned xs⟩ }

/-- R203, R207: payload byte `d` at index `ds.length` of a Write message is nacked: cleanup STOP, Nack of that index, the
bytes before it counted. -/
def Obligations.XferPayloadNack : Prop :=
  ∀ (chain : Bool) (xs : List Exchange) (a : BitVec 7) (ns : Bool) (ds : List Byte) (d : Byte) (es : List Byte)
    (later : List Message) (n : Nat) (s : State) (rest : List Level),
    (∀ x ∈ xs, x.fits) → legalConfig s.cfg = true → s.ready = true → n < pollLimit s.cfg →
    let m := Message.write a ns (ds ++ d :: es)
    let draws := exchangesDraws s.cfg n (m :: later) s.held xs ++ addressDraws s.cfg n (s.held || !xs.isEmpty) m false ++
      writeDraws s.cfg n ds ++ wrbyteDraws s.cfg (fun _ => n) d true ++ stopDraws s.cfg n
    s.env = draws ++ rest →
    exec (.xfer chain (xs.map (·.1) ++ m :: later)) s = .next { s with
      bus := .idle, scl := .rel, sda := .rel, env := rest, draws := s.draws + draws.length,
      trace := exchangesTrace s.cfg n (m :: later) s.held xs ++ addressTrace s.cfg n (s.held || !xs.isEmpty) m false ++
        writeTrace s.cfg n ds ++ wrbyteTrace s.cfg (fun _ => n) d true ++ stopTrace s.cfg n,
      response := some ⟨0x10000000#32, BitVec.ofNat 32 (payloadTotal (xs.map (·.1)) + ds.length),
        (BitVec.ofNat 16 ds.length).setWidth 32, bytesReturned xs⟩ }

/-- R207, R204: the first message's address byte is nacked and the cleanup STOP runs out of its budget: Timeout takes the
place of the Nack, and the engine is reset or left terminal. (Every failing cleanup STOP: XferCleanupStopFails.) -/
def Obligations.XferCleanupStopTimesOut : Prop :=
  ∀ (chain : Bool) (m : Message) (later : List Message) (n : Nat) (s : State) (rest : List Level),
    legalConfig s.cfg = true → s.ready = true → n < pollLimit s.cfg →
    let draws := addressDraws s.cfg n s.held m true ++ List.replicate (pollLimit s.cfg) false
    s.env = draws ++ rest →
    let trace := addressTrace s.cfg n s.held m true ++ riseTrace s.cfg .low ++ lowTrace s.cfg (pollLimit s.cfg)
    exec (.xfer chain (m :: later)) s = .next
      (if s.cfg.driverAutoReset then
        { s with bus := .idle, scl := .rel, sda := .rel, muxCur := .unknown, env := rest, draws := s.draws + draws.length,
                 trace := trace ++ resetTrace s.cfg, response := some ⟨0x30000000#32, 0#32, 0#32, []⟩ }
      else
        { s with bus := .timedOut, scl := .rel, sda := .low, env := rest, draws := s.draws + draws.length,
                 trace := trace, response := some ⟨0x30000000#32, 0#32, 0#32, []⟩ })

/-- R204, R206: the first clock of payload byte `d` at index `ds.length` of a Write message runs out: the bytes completed
before it are counted, RESET follows where `DRIVER_AUTO_RESET` is set, and nothing else. (Every failure in a payload byte:
XferPayloadByteFails.) -/
def Obligations.XferPayloadTimeout : Prop :=
  ∀ (chain : Bool) (xs : List Exchange) (a : BitVec 7) (ns : Bool) (ds : List Byte) (d : Byte) (es : List Byte)
    (later : List Message) (n : Nat) (s : State) (rest : List Level),
    (∀ x ∈ xs, x.fits) → legalConfig s.cfg = true → s.ready = true → n < pollLimit s.cfg →
    let m := Message.write a ns (ds ++ d :: es)
    let draws := exchangesDraws s.cfg n (m :: later) s.held xs ++ addressDraws s.cfg n (s.held || !xs.isEmpty) m false ++
      writeDraws s.cfg n ds ++ List.replicate (pollLimit s.cfg) false
    let trace := exchangesTrace s.cfg n (m :: later) s.held xs ++ addressTrace s.cfg n (s.held || !xs.isEmpty) m false ++
      writeTrace s.cfg n ds ++ riseTrace s.cfg (if d.getLsbD 7 then .rel else .low) ++ lowTrace s.cfg (pollLimit s.cfg)
    let response : Response :=
      ⟨0x30000000#32, BitVec.ofNat 32 (payloadTotal (xs.map (·.1)) + ds.length), 0#32, bytesReturned xs⟩
    s.env = draws ++ rest →
    exec (.xfer chain (xs.map (·.1) ++ m :: later)) s = .next
      (if s.cfg.driverAutoReset then
        { s with bus := .idle, scl := .rel, sda := .rel, muxCur := .unknown, env := rest, draws := s.draws + draws.length,
                 trace := trace ++ resetTrace s.cfg, response := some response }
      else
        { s with bus := .timedOut, scl := .rel, sda := if d.getLsbD 7 then .rel else .low, env := rest,
                 draws := s.draws + draws.length, trace := trace, response := some response })

/-- R207, R204, X-10: after any exchanges that complete, a nack whose cleanup STOP fails in any way: the failure takes the place
of the Nack, the bytes completed before the nack are counted, and the engine is reset or left terminal. The nack is of an
address byte, or of payload byte `d` at index `ds.length` of a Write message. -/
def Obligations.XferCleanupStopFails : Prop :=
  ∀ (chain : Bool) (xs : List Exchange) (later : List Message) (n : Nat) (s : State) (rest : List Level),
    (∀ x ∈ xs, x.fits) → legalConfig s.cfg = true → s.ready = true → n < pollLimit s.cfg → ∀ f ∈ stopFailures s.cfg n,
    let held := s.held || !xs.isEmpty
    (∀ m : Message,
      let run := f.after (exchangesDraws s.cfg n (m :: later) s.held xs ++ addressDraws s.cfg n held m true)
        (exchangesTrace s.cfg n (m :: later) s.held xs ++ addressTrace s.cfg n held m true)
      s.env = run.draws ++ rest →
      exec (.xfer chain (xs.map (·.1) ++ m :: later)) s =
        .next (s.transferFailed run rest (payloadTotal (xs.map (·.1))) (bytesReturned xs))) ∧
    (∀ (a : BitVec 7) (ns : Bool) (ds : List Byte) (d : Byte) (es : List Byte),
      let m := Message.write a ns (ds ++ d :: es)
      let run := f.after
        (exchangesDraws s.cfg n (m :: later) s.held xs ++ addressDraws s.cfg n held m false ++ writeDraws s.cfg n ds ++
          wrbyteDraws s.cfg (fun _ => n) d true)
        (exchangesTrace s.cfg n (m :: later) s.held xs ++ addressTrace s.cfg n held m false ++ writeTrace s.cfg n ds ++
          wrbyteTrace s.cfg (fun _ => n) d true)
      s.env = run.draws ++ rest →
      exec (.xfer chain (xs.map (·.1) ++ m :: later)) s =
        .next (s.transferFailed run rest (payloadTotal (xs.map (·.1)) + ds.length) (bytesReturned xs)))

/-- R204, R206, R107: after any exchanges that complete, a payload byte fails in any way: Timeout in any of its nine clocks, or
ArbitrationLost at a checked 1 bit. In a Write message it is byte `d` at index `ds.length`; in a Read message the bytes `vs`
are received before it, and it is nacked only as the last byte of the last Read message (R205). The bytes completed are
counted, and those received are returned. -/
def Obligations.XferPayloadByteFails : Prop :=
  ∀ (chain : Bool) (xs : List Exchange) (later : List Message) (n : Nat) (s : State) (rest : List Level),
    (∀ x ∈ xs, x.fits) → legalConfig s.cfg = true → s.ready = true → n < pollLimit s.cfg →
    let held := s.held || !xs.isEmpty
    (∀ (a : BitVec 7) (ns : Bool) (ds : List Byte) (d : Byte) (es : List Byte), ∀ f ∈ wrbyteFailures s.cfg n d,
      let m := Message.write a ns (ds ++ d :: es)
      let run := f.after
        (exchangesDraws s.cfg n (m :: later) s.held xs ++ addressDraws s.cfg n held m false ++ writeDraws s.cfg n ds)
        (exchangesTrace s.cfg n (m :: later) s.held xs ++ addressTrace s.cfg n held m false ++ writeTrace s.cfg n ds)
      s.env = run.draws ++ rest →
      exec (.xfer chain (xs.map (·.1) ++ m :: later)) s =
        .next (s.transferFailed run rest (payloadTotal (xs.map (·.1)) + ds.length) (bytesReturned xs))) ∧
    (∀ (a : BitVec 7) (ns : Bool) (len : BitVec 16) (vs : List Byte) (v : Byte), vs.length < len.toNat →
      let m := Message.read a ns len
      ∀ f ∈ rdbyteFailures s.cfg n v (!(isLastRead m later && vs.length + 1 == len.toNat)),
      let run := f.after
        (exchangesDraws s.cfg n (m :: later) s.held xs ++ addressDraws s.cfg n held m false ++ readDraws s.cfg n false vs)
        (exchangesTrace s.cfg n (m :: later) s.held xs ++ addressTrace s.cfg n held m false ++ readTrace s.cfg n false vs)
      s.env = run.draws ++ rest →
      exec (.xfer chain (xs.map (·.1) ++ m :: later)) s =
        .next (s.transferFailed run rest (payloadTotal (xs.map (·.1)) + vs.length) (bytesReturned xs ++ vs)))

/-- R204, R206: the other engine commands of a transfer, failing in any way after any exchanges that complete: the STOP before a
message on a held bus, the START, the address byte, and the final STOP. The bytes of the exchanges are counted and
returned. -/
def Obligations.XferBusConditionOrAddressFails : Prop :=
  ∀ (chain : Bool) (xs : List Exchange) (m : Message) (later : List Message) (n : Nat) (s : State) (rest : List Level),
    (∀ x ∈ xs, x.fits) → legalConfig s.cfg = true → s.ready = true → n < pollLimit s.cfg →
    let held := s.held || !xs.isEmpty
    let before : List Level × List Event :=
      (exchangesDraws s.cfg n (m :: later) s.held xs, exchangesTrace s.cfg n (m :: later) s.held xs)
    let started : List Level × List Event :=
      (before.1 ++ stopBeforeDraws s.cfg n held m, before.2 ++ stopBeforeTrace s.cfg n held m)
    let ends (msgs : List Message) (run : FailedRun) : Prop := s.env = run.draws ++ rest →
      exec (.xfer chain msgs) s = .next (s.transferFailed run rest (payloadTotal (xs.map (·.1))) (bytesReturned xs))
    (held = true → m.noStart = false → ∀ f ∈ stopFailures s.cfg n,
      ends (xs.map (·.1) ++ m :: later) (f.after before.1 before.2)) ∧
    (∀ f ∈ startFailures s.cfg n (held && m.noStart),
      ends (xs.map (·.1) ++ m :: later) (f.after started.1 started.2)) ∧
    (∀ f ∈ wrbyteFailures s.cfg n m.addressByte,
      ends (xs.map (·.1) ++ m :: later) (f.after (started.1 ++ startDraws n false)
        (started.2 ++ startTrace s.cfg (held && m.noStart) n))) ∧
    (chain = false → held = true → ∀ f ∈ stopFailures s.cfg n,
      ends (xs.map (·.1)) (f.after (exchangesDraws s.cfg n [] s.held xs) (exchangesTrace s.cfg n [] s.held xs)))

/-- R204, R207, R209, R271: how every transfer ends, whatever the environment shows. A nack leaves the engine Idle; an
engine failure leaves it reset, the last events being those of RESET, or terminal; a success without chain leaves it
Idle. -/
def Obligations.XferEndState : Prop :=
  ∀ (chain : Bool) (msgs : List Message) (s t : State), legalConfig s.cfg = true → s.ready = true →
    (s.bus = .idle → s.scl = .rel ∧ s.sda = .rel) → exec (.xfer chain msgs) s = .next t →
    (t.status = some 0#4 → chain = false → t.bus = .idle ∧ t.scl = .rel ∧ t.sda = .rel) ∧
    (t.status = some 0#4 → chain = true → msgs ≠ [] → t.bus = .byteInProgress ∧ t.scl = .rel) ∧
    (t.status = some 1#4 → t.bus = .idle ∧ t.scl = .rel ∧ t.sda = .rel) ∧
    (t.status = some 2#4 ∨ t.status = some 3#4 →
      if s.cfg.driverAutoReset then
        t.bus = .idle ∧ t.scl = .rel ∧ t.sda = .rel ∧ t.muxCur = .unknown ∧ ∃ es, t.trace = es ++ resetTrace s.cfg
      else t.bus = (if t.status = some 2#4 then .arbitrationLost else .timedOut) ∧ t.muxCur = s.muxCur)

/-- R206, R107: `COUNT` and `RDATA` of every transfer, whatever the environment shows. -/
def Obligations.XferCountIsBounded : Prop :=
  ∀ (chain : Bool) (msgs : List Message) (s t : State) (r : Response), (Instr.xfer chain msgs).wellFormed = true →
    exec (.xfer chain msgs) s = .next t → t.response = some r →
    r.count.toNat ≤ payloadTotal msgs ∧ r.rdata.length ≤ r.count.toNat ∧
    (r.status = 0#4 → r.count.toNat = payloadTotal msgs)

/-- R213: the address probe, for every address and both directions, from every state in which a transfer may begin; `w` gives
the stretch of each of its waits. On a held bus a STOP comes first. -/
def Obligations.AddressProbe : Prop :=
  ∀ (a : BitVec 7) (m : Message) (b nack : Level) (w : Nat → Nat) (s : State) (rest : List Level),
    m = .write a false [] ∨ m = .read a false 0#16 → legalConfig s.cfg = true → s.ready = true →
    (∀ j ≤ 11, w j < pollLimit s.cfg) → s.cfg.openDrainReadback = true ∨ b = false →
    let draws := (if s.held then stopDraws s.cfg (w 11) else []) ++ startDraws (w 0) b ++
      wrbyteDraws s.cfg (fun j => w (j + 1)) m.addressByte nack ++ stopDraws s.cfg (w 10)
    s.env = draws ++ rest →
    exec (.xfer false [m]) s = .next { s with
      bus := .idle, scl := .rel, sda := .rel, env := rest, draws := s.draws + draws.length,
      trace := (if s.held then stopTrace s.cfg (w 11) else []) ++ startTrace s.cfg false (w 0) ++
        wrbyteTrace s.cfg (fun j => w (j + 1)) m.addressByte nack ++ stopTrace s.cfg (w 10),
      response := some ⟨if nack then 0x10000000#32 else 0#32, 0#32, 0#32, []⟩ }

/-- R71, R102: the address byte is `{address, dir}`, and it is the low byte of the message's descriptor. -/
def Obligations.AddressByteIsDescriptorLowByte : Prop :=
  ∀ m : Message, m.addressByte.toNat = 2 * m.address.toNat + (if m.isRead then 1 else 0) ∧
    m.descriptor.extractLsb' 0 8 = m.addressByte

/-! ## The mux (45_mux.md) -/

/-- R242, R267, R270: a channel is found by its index alone; an unknown one is refused before any other check, in every bus
state. -/
def Obligations.ChannelLookup : Prop :=
  ∀ (c : Byte) (s : State), legalConfig s.cfg = true → s.cfg.muxPresent = true →
    (∀ ch ∈ s.cfg.channels, channelFor s.cfg ch.index = some ch) ∧
    ((∀ ch ∈ s.cfg.channels, ch.index ≠ c) →
      let refused : State :=
        { s with muxCur := .unknown, trace := [], response := some ⟨0x60000000#32, 0#32, 0#32, []⟩ }
      exec (.muxsel c) s = .next refused ∧ ∀ chain msgs, exec (.muxxfer c chain msgs) s = .next refused)

/-- R240: MUXSEL with an index that no channel has is refused and makes the selection unknown; with one that has, it is the
one-byte write of the selector value to the mux chip, and the selection is known exactly where that succeeds. -/
def Obligations.MuxselRule : Prop :=
  ∀ (c : Byte) (s : State), legalConfig s.cfg = true → s.cfg.muxPresent = true →
    ((∀ ch ∈ s.cfg.channels, ch.index ≠ c) → exec (.muxsel c) s = .next
      { s with muxCur := .unknown, trace := [], response := some ⟨0x60000000#32, 0#32, 0#32, []⟩ }) ∧
    (∀ ch ∈ s.cfg.channels, ch.index = c → ∀ t,
      exec (.xfer false [.write s.cfg.muxAddr false [ch.selector]]) s = .next t →
      exec (.muxsel c) s = .next { t with muxCur := if t.status = some 0#4 then .known c else .unknown })

/-- R240: MUXSEL where the mux chip acknowledges and every wait sees `n` low polls: on a held bus a STOP comes first. -/
def Obligations.MuxselSucceeds : Prop :=
  ∀ (c : Byte) (ch : MuxChannel) (n : Nat) (s : State) (rest : List Level), legalConfig s.cfg = true →
    s.cfg.muxPresent = true → ch ∈ s.cfg.channels → ch.index = c → s.ready = true → n < pollLimit s.cfg →
    let draws := (if s.held then stopDraws s.cfg n else []) ++ startDraws n false ++
      wrbyteDraws s.cfg (fun _ => n) (s.cfg.muxAddr ++ 0#1) false ++ wrbyteDraws s.cfg (fun _ => n) ch.selector false ++
      stopDraws s.cfg n
    s.env = draws ++ rest →
    exec (.muxsel c) s = .next { s with
      bus := .idle, scl := .rel, sda := .rel, muxCur := .known c, env := rest, draws := s.draws + draws.length,
      trace := (if s.held then stopTrace s.cfg n else []) ++ startTrace s.cfg false n ++
        wrbyteTrace s.cfg (fun _ => n) (s.cfg.muxAddr ++ 0#1) false ++ wrbyteTrace s.cfg (fun _ => n) ch.selector false ++
        stopTrace s.cfg n,
      response := some ⟨0#32, 1#32, 0#32, []⟩ }

/-- R241, R243, R244: MUXXFER is MUXSEL, always, and then, only if that succeeded, XFER; the events of the select come
first and nothing falls between the two. -/
def Obligations.MuxxferRule : Prop :=
  ∀ (c : Byte) (chain : Bool) (msgs : List Message) (s t u : State), s.cfg.muxPresent = true →
    exec (.muxsel c) s = .next t → exec (.xfer chain msgs) t = .next u →
    exec (.muxxfer c chain msgs) s =
      .next (if t.status = some 0#4 then { u with trace := t.trace ++ u.trace } else t)

/-- R241: MUXXFER where the mux chip and the targets acknowledge everything and every wait sees `n` low polls. -/
def Obligations.MuxxferSucceeds : Prop :=
  ∀ (c : Byte) (ch : MuxChannel) (chain : Bool) (xs : List Exchange) (n : Nat) (s : State) (rest : List Level),
    legalConfig s.cfg = true → s.cfg.muxPresent = true → ch ∈ s.cfg.channels → ch.index = c → s.ready = true →
    n < pollLimit s.cfg → (∀ x ∈ xs, x.fits) →
    let select : Exchange := (.write s.cfg.muxAddr false [ch.selector], [])
    let draws := transferDraws s.cfg n s.held false [select] ++ transferDraws s.cfg n false chain xs
    s.env = draws ++ rest →
    exec (.muxxfer c chain (xs.map (·.1))) s = .next { s with
      bus := if chain && !xs.isEmpty then .byteInProgress else .idle, scl := .rel, sda := .rel, muxCur := .known c,
      env := rest, draws := s.draws + draws.length,
      trace := transferTrace s.cfg n s.held false [select] ++ transferTrace s.cfg n false chain xs,
      response := some ⟨0#32, BitVec.ofNat 32 (payloadTotal (xs.map (·.1))), 0#32, bytesReturned xs⟩ }

/-! ## Encoding (30_encoding.md) -/

/-- R101, R102, R104, R109, R113: decoding the record of a well-formed command gives the command back. -/
def Obligations.DecodeEncodeRoundTrip : Prop :=
  ∀ i : Instr, i.wellFormed = true → decode (encode i) = .ok i

/-- R101-R104, R109: a record that decodes is the record of the command it decodes to, and that command is well formed: no
bit of a record is ignored, and no two records mean the same command. -/
def Obligations.EncodeDecodeRoundTrip : Prop :=
  ∀ (r : Record) (i : Instr), decode r = .ok i → i.wellFormed = true ∧ encode i = r

/-- R110, R111, R266: a record is refused with ILLEGAL_COMMAND, nothing done and nothing changed, exactly if it is
malformed. -/
def Obligations.MalformedRecordsAreRefused : Prop :=
  ∀ (r : Record) (s : State),
    (¬ wellFormedRecord r ∨ (isMuxRecord r = true ∧ s.cfg.muxPresent = false) →
      runRecord r s = .next { s with trace := [], response := some ⟨0x50000000#32, 0#32, 0#32, []⟩ }) ∧
    (∀ t, runRecord r s = .next t → t.status = some 5#4 →
      ¬ wellFormedRecord r ∨ (isMuxRecord r = true ∧ s.cfg.muxPresent = false))

/-- R109, R104: words of the opcode map, written out, and the commands they stand for. -/
def Obligations.OpcodeWordsDecode : Prop :=
  decodeTableWord 32 0x10000000 = some .start ∧ decodeTableWord 32 0x20000000 = some .stop ∧
  decodeTableWord 32 0x30010000 = some (.wrbit true) ∧ decodeTableWord 32 0x40000000 = some .rdbit ∧
  decodeTableWord 32 0x500000A0 = some (.wrbyte 0xA0#8) ∧ decodeTableWord 32 0x60010000 = some (.rdbyte true) ∧
  decodeTableWord 32 0x70000000 = some .reset ∧ decodeTableWord 32 0x80010000 = some (.xfer true []) ∧
  decodeTableWord 32 0x90000001 = some (.muxsel 1#8) ∧ decodeTableWord 32 0xA0000001 = some (.muxxfer 1#8 false []) ∧
  decodeTableWord 32 0xB0000000 = some .getstate ∧ decodeTableWord 32 0x00000000 = none ∧
  decodeTableWord 32 0x10000001 = none

/-- R113: a line of the grammar, its numbers written in decimal or in hexadecimal, parses to its command if each of its values
fits its field, and is rejected otherwise; letter case plays no part; and a line that assembles gives the record that
decodes to the command the line parses to. (The one space after each
token, and hexadecimal digits of either case, are lexical choices of log entry 12.) -/
def Obligations.LinesParseToTheirCommands : Prop :=
  (∀ (hex : Bool) (l : Assembler.Source),
    Assembler.parseLine (Assembler.written (l.texts hex)) = if l.encodable then some l.instr else none) ∧
  (∀ line : List Char, Assembler.parseLine (line.map Assembler.capital) = Assembler.parseLine line) ∧
  (∀ (line : List Char) (r : Record), Assembler.assemble line = some r →
    ∃ i, Assembler.parseLine line = some i ∧ i.wellFormed = true ∧ decode r = .ok i)

/-- R114, R115: a line of each pseudo-instruction parses to the command of its expansion if its operands fit, and is rejected
otherwise; the word that SMB_READ_WORD reads is `{RDATA[1], RDATA[0]}`. (The spaces, and the rejection of a block write of
no byte or more than 32, are choices of log entry 12.) -/
def Obligations.PseudoLinesParseToTheirExpansions : Prop :=
  (∀ (hex : Bool) (l : Assembler.PseudoSource),
    Assembler.parseLine (Assembler.written (l.texts hex)) = if l.encodable then some l.expansion.instr else none) ∧
  (∀ low high : Byte, Assembler.smbWordRead [low, high] = some (high ++ low))

/-! ## Steps (00_scope.md, 20_memory.md) -/

/-- R11, R80, R33: a step takes the next waiting record and runs the command it decodes to, with the lock held for as long
as the command runs. -/
def Obligations.StepRunsDecodedCommand : Prop :=
  ∀ (r : Record) (rest : List Record) (i : Instr) (s t : State), legalConfig s.cfg = true → s.lock = .free →
    s.port = r :: rest → decode r = .ok i → exec i { s with port := rest, lock := .held } = .next t →
    step s = .next { t with lock := .free }

/-- R110, R266, R80: a step whose next waiting record is malformed, or asks for a mux command on a block without a mux, consumes
the record and refuses it in the response: ILLEGAL_COMMAND, no event, nothing else changed. (The consumption of the record
and the lock around it are the model's: log entries 4 and 7.) -/
def Obligations.StepRefusesMalformedRecord : Prop :=
  ∀ (r : Record) (rest : List Record) (s : State), legalConfig s.cfg = true → s.lock = .free → s.port = r :: rest →
    ¬ wellFormedRecord r ∨ (isMuxRecord r = true ∧ s.cfg.muxPresent = false) →
    step s = .next { s with port := rest, trace := [], response := some ⟨0x50000000#32, 0#32, 0#32, []⟩ }

/-- R80: a command that arrives while another engine of the domain holds the lock waits, and without a command nothing
happens (log entries 4 and 7). -/
def Obligations.StepWaits : Prop :=
  ∀ s : State, legalConfig s.cfg = true → s.lock = .held ∨ s.port = [] → step s = .next s

/-- Log entry 6: what `withFetchWord` places is what the next step runs. -/
def Obligations.PlacedWordRuns : Prop :=
  ∀ (s : State) (nbits w : Nat) (i : Instr) (t : State), legalConfig s.cfg = true → decodeTableWord nbits w = some i →
    exec i { s with lock := .held } = .next t → step (s.withFetchWord nbits w) = .next { t with lock := .free }

/-- R86: every waiting command runs: with a free lock, as many steps as records wait empty the port, each of them answering
with a next state. -/
def Obligations.EveryWaitingCommandRuns : Prop :=
  ∀ s : State, legalConfig s.cfg = true → s.lock = .free →
    ∃ t, runSteps s.port.length s = some t ∧ t.port = [] ∧ t.lock = .free ∧ t.cfg = s.cfg

/-- R24, R26, R27, R29, R31, R33: the invariant of the state between commands holds after every step from a state in which
it holds. -/
def Obligations.StepKeepsInvariant : Prop :=
  ∀ s t : State, Inv s → step s = .next t → Inv t

/-- R44, R29: the invariant holds of every constructed block, the block at reset among them. -/
def Obligations.ConstructionMeetsInvariant : Prop :=
  Inv State.reset ∧ ∀ (c : Config) (s : State), State.construct? c = some s → Inv s
end

