-- ==== Sys2Proof/Laws/Encoding.lean ====
section
/-! SUPPORT. The fields of a command word and of a message descriptor, read back from the words that the encoder builds
(30_encoding.md R101, R102), and the masks of the opcode map on such a word (R109). -/

namespace Sys2Proof

/-! ## The command word -/

section cmdWord
variable (op : BitVec 4) (b : Bool) (n d : Byte)

/-- Every bit of a command word. -/
theorem getLsbD_cmdWord (i : Nat) : (cmdWord op b n d).getLsbD i =
    if i < 8 then d.getLsbD i else if i < 16 then n.getLsbD (i - 8) else if i = 16 then b
    else if i < 28 then false else op.getLsbD (i - 28) := by
  simp only [cmdWord, BitVec.getLsbD_append, BitVec.getLsbD_ofBool, BitVec.getLsbD_zero]
  by_cases h1 : i < 8
  · simp [h1]
  by_cases h2 : i < 16
  · simp [h1, h2, show i - 8 < 8 by omega]
  by_cases h3 : i = 16
  · simp [h3]
  have h4 : ¬ i - 8 < 8 := by omega
  have h5 : ¬ i - 8 - 8 < 1 := by omega
  by_cases h6 : i < 28
  · simp [h1, h2, h3, h4, h5, h6, show i - 8 - 8 - 1 < 11 by omega]
  · simp [h1, h2, h3, h4, h5, h6, show ¬ i - 8 - 8 - 1 < 11 by omega, show i - 8 - 8 - 1 - 11 = i - 28 by omega]

@[simp] theorem opField_cmdWord : opField (cmdWord op b n d) = op := by
  apply BitVec.eq_of_getLsbD_eq
  intro i hi
  simp only [opField, BitVec.getLsbD_extractLsb', hi, decide_true, Bool.true_and, getLsbD_cmdWord]
  simp [show ¬ 28 + i < 8 by omega, show ¬ 28 + i < 16 by omega, show ¬ 28 + i = 16 by omega]

@[simp] theorem bField_cmdWord : bField (cmdWord op b n d) = b := by rw [bField, getLsbD_cmdWord]; simp

@[simp] theorem nField_cmdWord : nField (cmdWord op b n d) = n := by
  apply BitVec.eq_of_getLsbD_eq
  intro i hi
  simp only [nField, BitVec.getLsbD_extractLsb', hi, decide_true, Bool.true_and, getLsbD_cmdWord]
  simp [show ¬ 8 + i < 8 by omega, show 8 + i < 16 by omega]

@[simp] theorem dField_cmdWord : dField (cmdWord op b n d) = d := by
  apply BitVec.eq_of_getLsbD_eq
  intro i hi
  simp only [dField, BitVec.getLsbD_extractLsb', hi, decide_true, Bool.true_and, getLsbD_cmdWord]
  simp [hi]

/-- The widest mask, MUXXFER's: opcode and reserved bits. -/
theorem cmdWord_mask_all : cmdWord op b n d &&& 0xFFFE0000#32 = cmdWord op false 0#8 0#8 := by
  apply BitVec.eq_of_getLsbD_eq
  intro i hi
  rw [BitVec.and_comm, BitVec.getLsbD_and, getLsbD_cmdWord, getLsbD_cmdWord]
  interval_cases i <;> rfl

/-- The mask of XFER. -/
theorem cmdWord_mask_xfer : cmdWord op b n 0#8 &&& 0xFFFE00FF#32 = cmdWord op false 0#8 0#8 := by
  apply BitVec.eq_of_getLsbD_eq
  intro i hi
  rw [BitVec.and_comm, BitVec.getLsbD_and, getLsbD_cmdWord, getLsbD_cmdWord]
  interval_cases i <;> rfl

/-- The mask of the commands with `D`. -/
theorem cmdWord_mask_d : cmdWord op false 0#8 d &&& 0xFFFFFF00#32 = cmdWord op false 0#8 0#8 := by
  apply BitVec.eq_of_getLsbD_eq
  intro i hi
  rw [BitVec.and_comm, BitVec.getLsbD_and, getLsbD_cmdWord, getLsbD_cmdWord]
  interval_cases i <;> rfl

/-- The mask of the commands with `B`. -/
theorem cmdWord_mask_b : cmdWord op b 0#8 0#8 &&& 0xFFFEFFFF#32 = cmdWord op false 0#8 0#8 := by
  apply BitVec.eq_of_getLsbD_eq
  intro i hi
  rw [BitVec.and_comm, BitVec.getLsbD_and, getLsbD_cmdWord, getLsbD_cmdWord]
  interval_cases i <;> rfl

end cmdWord

/-! ## The message descriptor -/

section mdWord
variable (len : BitVec 16) (ns : Bool) (addr : BitVec 7) (rw : Bool)

/-- Every bit of a message descriptor. -/
theorem getLsbD_mdWord (i : Nat) : (mdWord len ns addr rw).getLsbD i =
    if i = 0 then rw else if i < 8 then addr.getLsbD (i - 1) else if i = 8 then ns
    else if i < 16 then false else len.getLsbD (i - 16) := by
  simp only [mdWord, BitVec.getLsbD_append, BitVec.getLsbD_ofBool, BitVec.getLsbD_zero]
  by_cases h1 : i = 0
  · simp [h1]
  have h1' : ¬ i < 1 := by omega
  by_cases h2 : i < 8
  · simp [h1, h1', h2, show i - 1 < 7 by omega]
  by_cases h3 : i = 8
  · simp [h3]
  have h4 : ¬ i - 1 < 7 := by omega
  have h5 : ¬ i - 1 - 7 < 1 := by omega
  by_cases h6 : i < 16
  · simp [h1, h1', h2, h3, h4, h5, h6, show i - 1 - 7 - 1 < 7 by omega]
  · simp [h1, h1', h2, h3, h4, h5, h6, show ¬ i - 1 - 7 - 1 < 7 by omega, show i - 1 - 7 - 1 - 7 = i - 16 by omega]

@[simp] theorem lenField_mdWord : lenField (mdWord len ns addr rw) = len := by
  apply BitVec.eq_of_getLsbD_eq
  intro i hi
  simp only [lenField, BitVec.getLsbD_extractLsb', hi, decide_true, Bool.true_and, getLsbD_mdWord]
  simp [show ¬ 16 + i < 8 by omega, show ¬ 16 + i = 8 by omega]

@[simp] theorem rsvField_mdWord : rsvField (mdWord len ns addr rw) = 0#7 := by
  apply BitVec.eq_of_getLsbD_eq
  intro i hi
  simp only [rsvField, BitVec.getLsbD_extractLsb', hi, decide_true, Bool.true_and, getLsbD_mdWord]
  simp [show ¬ 9 + i < 8 by omega, show ¬ 9 + i = 8 by omega, show 9 + i < 16 by omega]

@[simp] theorem nsField_mdWord : nsField (mdWord len ns addr rw) = ns := by rw [nsField, getLsbD_mdWord]; simp

@[simp] theorem addrField_mdWord : addrField (mdWord len ns addr rw) = addr := by
  apply BitVec.eq_of_getLsbD_eq
  intro i hi
  simp only [addrField, BitVec.getLsbD_extractLsb', hi, decide_true, Bool.true_and, getLsbD_mdWord]
  simp [show 1 + i < 8 by omega]

@[simp] theorem rwField_mdWord : rwField (mdWord len ns addr rw) = rw := by rw [rwField, getLsbD_mdWord]; simp

end mdWord

/-! ## Commands that are one word -/

@[simp] theorem decodeAlone_wordRecord (cmd : Word) (i : Instr) : decodeAlone (wordRecord cmd) i = .ok i := rfl

@[simp] theorem wordRecord_cmd (cmd : Word) : (wordRecord cmd).cmd = cmd := rfl

end Sys2Proof
end

