-- ==== Sys2Proof/Laws/State.lean ====
section
/-! SUPPORT. One lemma per field per update of the state: what each named update writes and what it leaves. -/

namespace Sys2Proof.Machine.State

variable (s : State)

/-! `s.note e` -/

@[simp] theorem note_bus (e : Event) : (s.note e).bus = s.bus := rfl
@[simp] theorem note_scl (e : Event) : (s.note e).scl = s.scl := rfl
@[simp] theorem note_sda (e : Event) : (s.note e).sda = s.sda := rfl
@[simp] theorem note_muxCur (e : Event) : (s.note e).muxCur = s.muxCur := rfl
@[simp] theorem note_lock (e : Event) : (s.note e).lock = s.lock := rfl
@[simp] theorem note_cfg (e : Event) : (s.note e).cfg = s.cfg := rfl
@[simp] theorem note_port (e : Event) : (s.note e).port = s.port := rfl
@[simp] theorem note_response (e : Event) : (s.note e).response = s.response := rfl
@[simp] theorem note_trace (e : Event) : (s.note e).trace = s.trace ++ [e] := rfl
@[simp] theorem note_env (e : Event) : (s.note e).env = s.env := rfl
@[simp] theorem note_draws (e : Event) : (s.note e).draws = s.draws := rfl

/-! `s.setBus b` -/

@[simp] theorem setBus_bus (b : BusState) : (s.setBus b).bus = b := rfl
@[simp] theorem setBus_scl (b : BusState) : (s.setBus b).scl = s.scl := rfl
@[simp] theorem setBus_sda (b : BusState) : (s.setBus b).sda = s.sda := rfl
@[simp] theorem setBus_muxCur (b : BusState) : (s.setBus b).muxCur = s.muxCur := rfl
@[simp] theorem setBus_lock (b : BusState) : (s.setBus b).lock = s.lock := rfl
@[simp] theorem setBus_cfg (b : BusState) : (s.setBus b).cfg = s.cfg := rfl
@[simp] theorem setBus_port (b : BusState) : (s.setBus b).port = s.port := rfl
@[simp] theorem setBus_response (b : BusState) : (s.setBus b).response = s.response := rfl
@[simp] theorem setBus_trace (b : BusState) : (s.setBus b).trace = s.trace := rfl
@[simp] theorem setBus_env (b : BusState) : (s.setBus b).env = s.env := rfl
@[simp] theorem setBus_draws (b : BusState) : (s.setBus b).draws = s.draws := rfl

/-! `s.setMux m` -/

@[simp] theorem setMux_bus (m : MuxSelection) : (s.setMux m).bus = s.bus := rfl
@[simp] theorem setMux_scl (m : MuxSelection) : (s.setMux m).scl = s.scl := rfl
@[simp] theorem setMux_sda (m : MuxSelection) : (s.setMux m).sda = s.sda := rfl
@[simp] theorem setMux_muxCur (m : MuxSelection) : (s.setMux m).muxCur = m := rfl
@[simp] theorem setMux_lock (m : MuxSelection) : (s.setMux m).lock = s.lock := rfl
@[simp] theorem setMux_cfg (m : MuxSelection) : (s.setMux m).cfg = s.cfg := rfl
@[simp] theorem setMux_port (m : MuxSelection) : (s.setMux m).port = s.port := rfl
@[simp] theorem setMux_response (m : MuxSelection) : (s.setMux m).response = s.response := rfl
@[simp] theorem setMux_trace (m : MuxSelection) : (s.setMux m).trace = s.trace := rfl
@[simp] theorem setMux_env (m : MuxSelection) : (s.setMux m).env = s.env := rfl
@[simp] theorem setMux_draws (m : MuxSelection) : (s.setMux m).draws = s.draws := rfl

/-! `s.beginCommand` -/

@[simp] theorem beginCommand_bus : (s.beginCommand).bus = s.bus := rfl
@[simp] theorem beginCommand_scl : (s.beginCommand).scl = s.scl := rfl
@[simp] theorem beginCommand_sda : (s.beginCommand).sda = s.sda := rfl
@[simp] theorem beginCommand_muxCur : (s.beginCommand).muxCur = s.muxCur := rfl
@[simp] theorem beginCommand_lock : (s.beginCommand).lock = s.lock := rfl
@[simp] theorem beginCommand_cfg : (s.beginCommand).cfg = s.cfg := rfl
@[simp] theorem beginCommand_port : (s.beginCommand).port = s.port := rfl
@[simp] theorem beginCommand_response : (s.beginCommand).response = s.response := rfl
@[simp] theorem beginCommand_trace : (s.beginCommand).trace = [] := rfl
@[simp] theorem beginCommand_env : (s.beginCommand).env = s.env := rfl
@[simp] theorem beginCommand_draws : (s.beginCommand).draws = s.draws := rfl

/-! `s.setLine .scl d` -/

@[simp] theorem setLineScl_bus (d : Drive) : (s.setLine .scl d).bus = s.bus := rfl
@[simp] theorem setLineScl_scl (d : Drive) : (s.setLine .scl d).scl = d := rfl
@[simp] theorem setLineScl_sda (d : Drive) : (s.setLine .scl d).sda = s.sda := rfl
@[simp] theorem setLineScl_muxCur (d : Drive) : (s.setLine .scl d).muxCur = s.muxCur := rfl
@[simp] theorem setLineScl_lock (d : Drive) : (s.setLine .scl d).lock = s.lock := rfl
@[simp] theorem setLineScl_cfg (d : Drive) : (s.setLine .scl d).cfg = s.cfg := rfl
@[simp] theorem setLineScl_port (d : Drive) : (s.setLine .scl d).port = s.port := rfl
@[simp] theorem setLineScl_response (d : Drive) : (s.setLine .scl d).response = s.response := rfl
@[simp] theorem setLineScl_trace (d : Drive) : (s.setLine .scl d).trace = s.trace ++ [.set .scl d] := rfl
@[simp] theorem setLineScl_env (d : Drive) : (s.setLine .scl d).env = s.env := rfl
@[simp] theorem setLineScl_draws (d : Drive) : (s.setLine .scl d).draws = s.draws := rfl

/-! `s.setLine .sda d` -/

@[simp] theorem setLineSda_bus (d : Drive) : (s.setLine .sda d).bus = s.bus := rfl
@[simp] theorem setLineSda_scl (d : Drive) : (s.setLine .sda d).scl = s.scl := rfl
@[simp] theorem setLineSda_sda (d : Drive) : (s.setLine .sda d).sda = d := rfl
@[simp] theorem setLineSda_muxCur (d : Drive) : (s.setLine .sda d).muxCur = s.muxCur := rfl
@[simp] theorem setLineSda_lock (d : Drive) : (s.setLine .sda d).lock = s.lock := rfl
@[simp] theorem setLineSda_cfg (d : Drive) : (s.setLine .sda d).cfg = s.cfg := rfl
@[simp] theorem setLineSda_port (d : Drive) : (s.setLine .sda d).port = s.port := rfl
@[simp] theorem setLineSda_response (d : Drive) : (s.setLine .sda d).response = s.response := rfl
@[simp] theorem setLineSda_trace (d : Drive) : (s.setLine .sda d).trace = s.trace ++ [.set .sda d] := rfl
@[simp] theorem setLineSda_env (d : Drive) : (s.setLine .sda d).env = s.env := rfl
@[simp] theorem setLineSda_draws (d : Drive) : (s.setLine .sda d).draws = s.draws := rfl

/-! `s.delay n` -/

@[simp] theorem delay_bus (n : Nat) : (s.delay n).bus = s.bus := rfl
@[simp] theorem delay_scl (n : Nat) : (s.delay n).scl = s.scl := rfl
@[simp] theorem delay_sda (n : Nat) : (s.delay n).sda = s.sda := rfl
@[simp] theorem delay_muxCur (n : Nat) : (s.delay n).muxCur = s.muxCur := rfl
@[simp] theorem delay_lock (n : Nat) : (s.delay n).lock = s.lock := rfl
@[simp] theorem delay_cfg (n : Nat) : (s.delay n).cfg = s.cfg := rfl
@[simp] theorem delay_port (n : Nat) : (s.delay n).port = s.port := rfl
@[simp] theorem delay_response (n : Nat) : (s.delay n).response = s.response := rfl
@[simp] theorem delay_trace (n : Nat) : (s.delay n).trace = s.trace ++ [.wait n] := rfl
@[simp] theorem delay_env (n : Nat) : (s.delay n).env = s.env := rfl
@[simp] theorem delay_draws (n : Nat) : (s.delay n).draws = s.draws := rfl

/-! `s.delayRf` -/

@[simp] theorem delayRf_bus : (s.delayRf).bus = s.bus := rfl
@[simp] theorem delayRf_scl : (s.delayRf).scl = s.scl := rfl
@[simp] theorem delayRf_sda : (s.delayRf).sda = s.sda := rfl
@[simp] theorem delayRf_muxCur : (s.delayRf).muxCur = s.muxCur := rfl
@[simp] theorem delayRf_lock : (s.delayRf).lock = s.lock := rfl
@[simp] theorem delayRf_cfg : (s.delayRf).cfg = s.cfg := rfl
@[simp] theorem delayRf_port : (s.delayRf).port = s.port := rfl
@[simp] theorem delayRf_response : (s.delayRf).response = s.response := rfl
@[simp] theorem delayRf_trace : (s.delayRf).trace = s.trace ++ [.wait s.cfg.riseFallDelay] := rfl
@[simp] theorem delayRf_env : (s.delayRf).env = s.env := rfl
@[simp] theorem delayRf_draws : (s.delayRf).draws = s.draws := rfl

/-! `s.delayHold` -/

@[simp] theorem delayHold_bus : (s.delayHold).bus = s.bus := rfl
@[simp] theorem delayHold_scl : (s.delayHold).scl = s.scl := rfl
@[simp] theorem delayHold_sda : (s.delayHold).sda = s.sda := rfl
@[simp] theorem delayHold_muxCur : (s.delayHold).muxCur = s.muxCur := rfl
@[simp] theorem delayHold_lock : (s.delayHold).lock = s.lock := rfl
@[simp] theorem delayHold_cfg : (s.delayHold).cfg = s.cfg := rfl
@[simp] theorem delayHold_port : (s.delayHold).port = s.port := rfl
@[simp] theorem delayHold_response : (s.delayHold).response = s.response := rfl
@[simp] theorem delayHold_trace : (s.delayHold).trace = s.trace ++ [.wait s.cfg.holdDelay] := rfl
@[simp] theorem delayHold_env : (s.delayHold).env = s.env := rfl
@[simp] theorem delayHold_draws : (s.delayHold).draws = s.draws := rfl

/-! `s.raiseClock d` -/

@[simp] theorem raiseClock_bus (d : Drive) : (s.raiseClock d).bus = s.bus := rfl
@[simp] theorem raiseClock_scl (d : Drive) : (s.raiseClock d).scl = .rel := rfl
@[simp] theorem raiseClock_sda (d : Drive) : (s.raiseClock d).sda = d := rfl
@[simp] theorem raiseClock_muxCur (d : Drive) : (s.raiseClock d).muxCur = s.muxCur := rfl
@[simp] theorem raiseClock_lock (d : Drive) : (s.raiseClock d).lock = s.lock := rfl
@[simp] theorem raiseClock_cfg (d : Drive) : (s.raiseClock d).cfg = s.cfg := rfl
@[simp] theorem raiseClock_port (d : Drive) : (s.raiseClock d).port = s.port := rfl
@[simp] theorem raiseClock_response (d : Drive) : (s.raiseClock d).response = s.response := rfl
@[simp] theorem raiseClock_trace (d : Drive) : (s.raiseClock d).trace = s.trace ++ [.set .scl .low] ++ [.wait s.cfg.riseFallDelay] ++ [.set .sda d] ++ [.wait s.cfg.riseFallDelay] ++
      [.set .scl .rel] := rfl
@[simp] theorem raiseClock_env (d : Drive) : (s.raiseClock d).env = s.env := rfl
@[simp] theorem raiseClock_draws (d : Drive) : (s.raiseClock d).draws = s.draws := rfl

/-! `s.sampled l` -/

@[simp] theorem sampled_bus (l : Line) : (s.sampled l).bus = s.bus := rfl
@[simp] theorem sampled_scl (l : Line) : (s.sampled l).scl = s.scl := rfl
@[simp] theorem sampled_sda (l : Line) : (s.sampled l).sda = s.sda := rfl
@[simp] theorem sampled_muxCur (l : Line) : (s.sampled l).muxCur = s.muxCur := rfl
@[simp] theorem sampled_lock (l : Line) : (s.sampled l).lock = s.lock := rfl
@[simp] theorem sampled_cfg (l : Line) : (s.sampled l).cfg = s.cfg := rfl
@[simp] theorem sampled_port (l : Line) : (s.sampled l).port = s.port := rfl
@[simp] theorem sampled_response (l : Line) : (s.sampled l).response = s.response := rfl
@[simp] theorem sampled_trace (l : Line) : (s.sampled l).trace = s.trace ++ [.get l (s.sense l)] := rfl
@[simp] theorem sampled_env (l : Line) : (s.sampled l).env = s.env.tail := rfl
@[simp] theorem sampled_draws (l : Line) : (s.sampled l).draws = s.draws + 1 := rfl

/-! `s.answer r` -/

@[simp] theorem answer_bus (r : Result) : (s.answer r).bus = s.bus := rfl
@[simp] theorem answer_scl (r : Result) : (s.answer r).scl = s.scl := rfl
@[simp] theorem answer_sda (r : Result) : (s.answer r).sda = s.sda := rfl
@[simp] theorem answer_muxCur (r : Result) : (s.answer r).muxCur = s.muxCur := rfl
@[simp] theorem answer_lock (r : Result) : (s.answer r).lock = s.lock := rfl
@[simp] theorem answer_cfg (r : Result) : (s.answer r).cfg = s.cfg := rfl
@[simp] theorem answer_port (r : Result) : (s.answer r).port = s.port := rfl
@[simp] theorem answer_response (r : Result) : (s.answer r).response = some r.toResponse := rfl
@[simp] theorem answer_trace (r : Result) : (s.answer r).trace = s.trace := rfl
@[simp] theorem answer_env (r : Result) : (s.answer r).env = s.env := rfl
@[simp] theorem answer_draws (r : Result) : (s.answer r).draws = s.draws := rfl

/-! `s.releaseLock` -/

@[simp] theorem releaseLock_bus : (s.releaseLock).bus = s.bus := rfl
@[simp] theorem releaseLock_scl : (s.releaseLock).scl = s.scl := rfl
@[simp] theorem releaseLock_sda : (s.releaseLock).sda = s.sda := rfl
@[simp] theorem releaseLock_muxCur : (s.releaseLock).muxCur = s.muxCur := rfl
@[simp] theorem releaseLock_lock : (s.releaseLock).lock = .free := rfl
@[simp] theorem releaseLock_cfg : (s.releaseLock).cfg = s.cfg := rfl
@[simp] theorem releaseLock_port : (s.releaseLock).port = s.port := rfl
@[simp] theorem releaseLock_response : (s.releaseLock).response = s.response := rfl
@[simp] theorem releaseLock_trace : (s.releaseLock).trace = s.trace := rfl
@[simp] theorem releaseLock_env : (s.releaseLock).env = s.env := rfl
@[simp] theorem releaseLock_draws : (s.releaseLock).draws = s.draws := rfl

/-! `s.raiseBoth` -/

/-- The events with which START begins (R141). -/
def raiseBothTrace : List Event :=
  (if s.bus == .idle then [] else [.set .scl .low, .wait s.cfg.riseFallDelay]) ++
  [.set .sda .rel, .wait s.cfg.riseFallDelay, .set .scl .rel]

@[simp] theorem raiseBoth_bus : s.raiseBoth.bus = s.bus := by
  unfold raiseBoth; split <;> simp
@[simp] theorem raiseBoth_scl : s.raiseBoth.scl = .rel := by
  unfold raiseBoth; split <;> simp
@[simp] theorem raiseBoth_sda : s.raiseBoth.sda = .rel := by
  unfold raiseBoth; split <;> simp
@[simp] theorem raiseBoth_muxCur : s.raiseBoth.muxCur = s.muxCur := by
  unfold raiseBoth; split <;> simp
@[simp] theorem raiseBoth_lock : s.raiseBoth.lock = s.lock := by
  unfold raiseBoth; split <;> simp
@[simp] theorem raiseBoth_cfg : s.raiseBoth.cfg = s.cfg := by
  unfold raiseBoth; split <;> simp
@[simp] theorem raiseBoth_port : s.raiseBoth.port = s.port := by
  unfold raiseBoth; split <;> simp
@[simp] theorem raiseBoth_response : s.raiseBoth.response = s.response := by
  unfold raiseBoth; split <;> simp
@[simp] theorem raiseBoth_trace : s.raiseBoth.trace = s.trace ++ s.raiseBothTrace := by
  unfold raiseBoth raiseBothTrace; split <;> simp
@[simp] theorem raiseBoth_env : s.raiseBoth.env = s.env := by
  unfold raiseBoth; split <;> simp
@[simp] theorem raiseBoth_draws : s.raiseBoth.draws = s.draws := by
  unfold raiseBoth; split <;> simp

/-! ## What a sample returns depends on the configuration, the drive of its line and the draw alone -/

@[simp] theorem sense_note (e : Event) (l : Line) : (s.note e).sense l = s.sense l := rfl
@[simp] theorem sense_setBus (b : BusState) (l : Line) : (s.setBus b).sense l = s.sense l := rfl
@[simp] theorem sense_setMux (m : MuxSelection) (l : Line) : (s.setMux m).sense l = s.sense l := rfl
@[simp] theorem sense_delay (n : Nat) (l : Line) : (s.delay n).sense l = s.sense l := rfl
@[simp] theorem sense_delayRf (l : Line) : (s.delayRf).sense l = s.sense l := rfl
@[simp] theorem sense_delayHold (l : Line) : (s.delayHold).sense l = s.sense l := rfl
@[simp] theorem sense_beginCommand (l : Line) : (s.beginCommand).sense l = s.sense l := rfl

/-- A line that the master has released shows the draw (R62). -/
theorem sense_released (l : Line) (h : s.drv l = .rel) : s.sense l = s.draw := by
  simp [sense, h]

/-- A line that the master pulls low samples low where the readback parameter is set (R62). -/
theorem sense_pulled (l : Line) (h : s.drv l = .low) (hr : s.cfg.openDrainReadback = true) : s.sense l = false := by
  simp [sense, h, hr]

/-- The draw is the head of the script (R62). -/
theorem draw_script (e : Level) (rest : List Level) (h : s.env = e :: rest) : s.draw = e := by
  simp [draw, h]

@[simp] theorem held_setLine (l : Line) (d : Drive) : (s.setLine l d).held = s.held := by cases l <;> rfl
@[simp] theorem held_delayRf : s.delayRf.held = s.held := rfl
@[simp] theorem held_beginCommand : s.beginCommand.held = s.held := rfl
@[simp] theorem ready_beginCommand : s.beginCommand.ready = s.ready := rfl

end Sys2Proof.Machine.State
end

