-- ==== Sys2Proof/Laws/Lines.lean ====
section
/-! SUPPORT. What the line primitives and the bounded wait do: one lemma for a wait that ends well, one for a wait that runs
out, one for everything a wait can do, and the rule by which the end of a command is derived from the ends of its parts. -/

namespace Sys2Proof.Machine

/-! ## Ends of commands -/

/-- The command ends in a value and state with `Q`, or in a failure and state with `F`. -/
def Res.Ends {α : Type} (r : Res α) (Q : α → State → Prop) (F : Failure → State → Prop) : Prop :=
  match r with
  | .ok a t => Q a t
  | .fail f t => F f t

section Ends
variable {α β : Type}

@[simp] theorem Res.ok_ends (a : α) (t : State) (Q : α → State → Prop) (F : Failure → State → Prop) :
    (Res.ok a t).Ends Q F ↔ Q a t := Iff.rfl

@[simp] theorem Res.fail_ends (f : Failure) (t : State) (Q : α → State → Prop) (F : Failure → State → Prop) :
    (Res.fail f t : Res α).Ends Q F ↔ F f t := Iff.rfl

@[simp] theorem Res.ok_andThen (a : α) (t : State) (k : α → State → Res β) : (Res.ok a t).andThen k = k a t := rfl

@[simp] theorem Res.fail_andThen (f : Failure) (t : State) (k : α → State → Res β) :
    (Res.fail f t : Res α).andThen k = .fail f t := rfl

theorem Res.Ends.andThen {r : Res α} {k : α → State → Res β} {Q : α → State → Prop} {Q' : β → State → Prop}
    {F : Failure → State → Prop} (h : r.Ends Q F) (hk : ∀ a t, Q a t → (k a t).Ends Q' F) : (r.andThen k).Ends Q' F := by
  cases r with
  | ok a t => exact hk a t h
  | fail f t => exact h

theorem Res.Ends.mono {r : Res α} {Q Q' : α → State → Prop} {F F' : Failure → State → Prop} (h : r.Ends Q F)
    (hQ : ∀ a t, Q a t → Q' a t) (hF : ∀ f t, F f t → F' f t) : r.Ends Q' F' := by
  cases r with
  | ok a t => exact hQ a t h
  | fail f t => exact hF f t h

end Ends

/-! ## What a wait does -/

/-- A state in which START may begin is idle or held. -/
theorem ready_cases (s : State) (h : s.ready = true) :
    s.bus = .idle ∧ s.held = false ∨ s.bus ≠ .idle ∧ s.held = true := by
  unfold State.ready State.held at *
  cases hb : s.bus <;> simp_all

/-- Released SCL shows the draw. -/
theorem sense_scl (s : State) (h : s.scl = .rel) : s.sense .scl = s.draw := s.sense_released .scl h

/-- Released SDA shows the draw. -/
theorem sense_sda (s : State) (h : s.sda = .rel) : s.sense .sda = s.draw := s.sense_released .sda h

/-- The state after a wait that saw `m` low polls and then a high one. -/
def State.waited (m : Nat) (s : State) : State :=
  { s with trace := s.trace ++ lowTrace s.cfg m ++ [.get .scl true], env := s.env.drop (m + 1), draws := s.draws + (m + 1) }

/-- The state after a wait that ran out after `m` low polls. -/
def State.waitedOut (m : Nat) (s : State) : State :=
  { s with bus := .timedOut, trace := s.trace ++ lowTrace s.cfg m, env := s.env.drop m, draws := s.draws + m }

/-- Everything a wait can do (R64): it succeeds after some low polls and one high poll, or it times out after some low
polls. -/
theorem waitLoop_ends (fuel k : Nat) (s : State) :
    (waitLoop fuel k s).Ends (fun _ t => ∃ m, t = s.waited m) (fun f t => f = .timeout ∧ ∃ m, t = s.waitedOut m) := by
  have out : ∀ s : State, s.afterFailure .timeout = s.waitedOut 0 := fun s => by
    simp [State.afterFailure, State.setBus, State.waitedOut, lowTrace]
  induction fuel generalizing k s with
  | zero => exact ⟨rfl, 0, out s⟩
  | succ fuel ih =>
    unfold waitLoop
    split
    · exact ⟨rfl, 0, out s⟩
    · split
      · rename_i h
        exact ⟨0, by simp [State.sampled, State.drawn, State.note, State.waited, lowTrace, h]⟩
      · rename_i h
        have hs : s.sense .scl = false := by simpa using h
        refine (ih (k + 1) ((s.sampled .scl).delay s.cfg.pollInterval)).mono ?_ ?_
        · rintro _ t ⟨m, rfl⟩
          exact ⟨m + 1, by simp [State.sampled, State.drawn, State.note, State.delay, State.waited, lowTrace, hs]; omega⟩
        · rintro f t ⟨hf, m, rfl⟩
          exact ⟨hf, m + 1, by
            simp [State.sampled, State.drawn, State.note, State.delay, State.waitedOut, lowTrace, hs]; omega⟩

/-- A wait on released SCL that sees `n` low polls and then a high one succeeds, if the budget lasts (R66). -/
theorem waitLoop_stretch (n : Nat) : ∀ (fuel k : Nat) (s : State) (rest : List Level),
    s.scl = .rel → s.env = stretchDraws n ++ rest → (k + n) * s.cfg.pollInterval < s.cfg.timeout → n < fuel →
    waitLoop fuel k s =
      .ok () { s with trace := s.trace ++ stretchTrace s.cfg n, env := rest, draws := s.draws + (n + 1) } := by
  unfold stretchTrace
  induction n with
  | zero =>
    intro fuel k s rest hscl henv hk hf
    obtain ⟨fuel, rfl⟩ : ∃ m, fuel = m + 1 := ⟨fuel - 1, by omega⟩
    have hd : s.sense .scl = true := by
      rw [sense_scl s hscl, State.draw_script _ true rest (by simpa [stretchDraws] using henv)]
    unfold waitLoop
    rw [if_neg (by simpa using hk), if_pos hd]
    simp [State.sampled, State.drawn, State.note, hd, henv, stretchDraws, lowTrace]
  | succ n ih =>
    intro fuel k s rest hscl henv hk hf
    obtain ⟨fuel, rfl⟩ : ∃ m, fuel = m + 1 := ⟨fuel - 1, by omega⟩
    have henv' : s.env = false :: (stretchDraws n ++ rest) := by
      simpa [stretchDraws, List.replicate_succ] using henv
    have hd : s.sense .scl = false := by
      rw [sense_scl s hscl, State.draw_script _ _ _ henv']
    have hlt : ¬ s.cfg.timeout ≤ k * s.cfg.pollInterval := by
      have : k * s.cfg.pollInterval ≤ (k + (n + 1)) * s.cfg.pollInterval := Nat.mul_le_mul_right _ (by omega)
      omega
    unfold waitLoop
    rw [if_neg hlt, if_neg (by simp [hd])]
    rw [ih fuel (k + 1) ((s.sampled .scl).delay s.cfg.pollInterval) rest hscl (by simp [henv'])
      (by simpa [Nat.add_comm, Nat.add_left_comm, Nat.add_assoc] using hk) (by omega)]
    simp [State.sampled, State.drawn, State.note, State.delay, hd, lowTrace]; omega

/-- A wait on released SCL that sees `n` low polls fails with Timeout where the budget ends at poll `n` (R64). -/
theorem waitLoop_timeout (n : Nat) : ∀ (fuel k : Nat) (s : State) (rest : List Level),
    s.scl = .rel → s.env = List.replicate n false ++ rest → (∀ j < n, (k + j) * s.cfg.pollInterval < s.cfg.timeout) →
    s.cfg.timeout ≤ (k + n) * s.cfg.pollInterval → n ≤ fuel →
    waitLoop fuel k s = .fail .timeout
      { s with bus := .timedOut, trace := s.trace ++ lowTrace s.cfg n, env := rest, draws := s.draws + n } := by
  induction n with
  | zero =>
    intro fuel k s rest hscl henv hlow hend hf
    have henv' : s.env = rest := by simpa using henv
    subst henv'
    cases fuel with
    | zero => simp [waitLoop, failWith, State.afterFailure, State.setBus, lowTrace]
    | succ fuel =>
      unfold waitLoop
      rw [if_pos (by simpa using hend)]
      simp [failWith, State.afterFailure, State.setBus, lowTrace]
  | succ n ih =>
    intro fuel k s rest hscl henv hlow hend hf
    obtain ⟨fuel, rfl⟩ : ∃ m, fuel = m + 1 := ⟨fuel - 1, by omega⟩
    have henv' : s.env = false :: (List.replicate n false ++ rest) := by
      simpa [List.replicate_succ] using henv
    have hd : s.sense .scl = false := by
      rw [sense_scl s hscl, State.draw_script _ _ _ henv']
    unfold waitLoop
    rw [if_neg (by have := hlow 0 (by omega); simp at this; omega), if_neg (by simp [hd])]
    rw [ih fuel (k + 1) ((s.sampled .scl).delay s.cfg.pollInterval) rest hscl (by simp [henv'])
      (by
        intro j hj
        have := hlow (j + 1) (by omega)
        simpa [Nat.add_comm, Nat.add_left_comm, Nat.add_assoc] using this)
      (by simpa [Nat.add_comm, Nat.add_left_comm, Nat.add_assoc] using hend) (by omega)]
    simp [State.sampled, State.drawn, State.note, State.delay, hd, lowTrace]; omega

/-- What a legal configuration gives (R29). -/
theorem legalConfig_iff (c : Config) :
    legalConfig c = true ↔ 2 * c.holdDelay < c.timeout ∧ 1 ≤ c.pollInterval ∧ uniqueIndices c.channels = true := by
  simp [legalConfig, and_assoc]

/-- A stretch within the budget lasts fewer polls than the timeout has ticks. -/
theorem polls_lt_timeout {c : Config} {n : Nat} (h : legalConfig c = true) (hn : n * c.pollInterval < c.timeout) :
    n < c.timeout := by
  have := ((legalConfig_iff c).1 h).2.1
  exact lt_of_le_of_lt (Nat.le_mul_of_pos_right n this) hn

/-- `WaitSclHigh` with a stretch within the budget (R66). -/
theorem waitSclHigh_stretch (n : Nat) (s : State) (rest : List Level) (hl : legalConfig s.cfg = true) (hscl : s.scl = .rel)
    (henv : s.env = stretchDraws n ++ rest) (hn : n * s.cfg.pollInterval < s.cfg.timeout) :
    waitSclHigh s =
      .ok () { s with trace := s.trace ++ stretchTrace s.cfg n, env := rest, draws := s.draws + (n + 1) } :=
  waitLoop_stretch n _ 0 s rest hscl henv (by simpa using hn) (polls_lt_timeout hl hn)

end Sys2Proof.Machine
end

