-- ==== Sys2Proof/Laws/Engine.lean ====
section
/-! SUPPORT. What the engine commands do where the environment co-operates: one equation each, from the draws of the script
to the state after (R141, R142, R160, R161, R180, R181). -/

namespace Sys2Proof.Machine

variable {s : State} {n : Nat} {rest : List Level}

/-- A sample whose value and draw are known. -/
theorem State.sampled_eq {t : State} {l : Line} {v e : Level} {rest : List Level} (hv : t.sense l = v)
    (he : t.env = e :: rest) :
    t.sampled l = { t with trace := t.trace ++ [.get l v], env := rest, draws := t.draws + 1 } := by
  simp [State.sampled, State.drawn, State.note, hv, he]

/-- A released SDA whose draw is known. -/
theorem State.sense_sda_script {t : State} {e : Level} {rest : List Level} (hr : t.sda = .rel) (he : t.env = e :: rest) :
    t.sense .sda = e := by
  rw [sense_sda t hr, State.draw_script _ _ _ he]

/-- A pulled SDA reads low where readback is set or the environment shows low (R62). -/
theorem State.sense_sda_pulled {t : State} {e : Level} {rest : List Level} (hp : t.sda = .low) (he : t.env = e :: rest)
    (h : t.cfg.openDrainReadback = true ∨ e = false) : t.sense .sda = false := by
  rcases h with h | h
  · exact t.sense_pulled .sda hp h
  · subst h
    simp [State.sense, t.draw_script _ _ he]

/-- START on a co-operating bus (R141). -/
theorem engStart_succeeds (b : Level) (hl : legalConfig s.cfg = true) (hr : s.ready = true)
    (henv : s.env = startDraws n b ++ rest) (hb : s.cfg.openDrainReadback = true ∨ b = false)
    (hn : n * s.cfg.pollInterval < s.cfg.timeout) :
    engStart s = .ok () { s with bus := .started, scl := .rel, sda := .low, trace := s.trace ++ startTrace s.cfg s.held n,
                                 env := rest, draws := s.draws + (startDraws n b).length } := by
  unfold engStart
  rw [waitSclHigh_stretch n s.raiseBoth (true :: b :: rest) (by simpa using hl) (by simp)
    (by simpa [startDraws] using henv) (by simpa using hn)]
  simp only [hr, Bool.not_true, Bool.false_eq_true, if_false, Res.ok_andThen]
  rw [State.sense_sda_script (e := true) (rest := b :: rest) (by simp) (by rfl),
    State.sampled_eq (v := true) (e := true) (rest := b :: rest) (State.sense_sda_script (by simp) (by rfl)) (by rfl)]
  rw [State.sense_sda_pulled (e := b) (rest := rest) (by rfl) (by rfl) (by simpa using hb),
    State.sampled_eq (v := false) (e := b) (rest := rest) (State.sense_sda_pulled (by rfl) (by rfl) (by simpa using hb))
      (by rfl)]
  rcases ready_cases s hr with ⟨hi, hh⟩ | ⟨hi, hh⟩ <;>
  simp [hi, hh, State.note, State.setLine, State.setDrv, State.delayRf, State.delayHold, State.delay, State.setBus,
    startTrace, State.raiseBothTrace, startDraws, stretchDraws, Nat.add_assoc]

/-- STOP on a co-operating bus (R142). -/
theorem engStop_succeeds (hl : legalConfig s.cfg = true) (hh : s.held = true) (henv : s.env = stopDraws s.cfg n ++ rest)
    (hn : n * s.cfg.pollInterval < s.cfg.timeout) :
    engStop s = .ok () { s with bus := .idle, scl := .rel, sda := .rel, trace := s.trace ++ stopTrace s.cfg n, env := rest,
                                draws := s.draws + (stopDraws s.cfg n).length } := by
  unfold engStop
  rw [waitSclHigh_stretch n (s.raiseClock .low) ((if s.cfg.arbCheckData then [true] else []) ++ rest) (by simpa using hl)
    (by simp) (by simpa [stopDraws] using henv) (by simpa using hn)]
  simp only [hh, Bool.not_true, Bool.false_eq_true, if_false, Res.ok_andThen]
  cases ha : s.cfg.arbCheckData
  · simp [ha, State.note, State.setLine, State.setDrv, State.delayRf, State.delayHold, State.delay, State.setBus, stopTrace,
      stopDraws, stretchDraws]
  · simp only [State.raiseClock_cfg, State.delayRf_cfg, State.setLineSda_cfg, State.delayHold_cfg, ha, if_true]
    rw [State.sense_sda_script (e := true) (rest := rest) (by rfl) (by rfl),
      State.sampled_eq (v := true) (e := true) (rest := rest) (State.sense_sda_script (by rfl) (by rfl)) (by rfl)]
    simp [ha, State.note, State.setLine, State.setDrv, State.delayRf, State.delayHold, State.delay, State.setBus, stopTrace,
      stopDraws, stretchDraws, Nat.add_assoc]

/-- WRBIT on a co-operating bus (R160). -/
theorem engWrbit_succeeds (b : Level) (hl : legalConfig s.cfg = true) (hh : s.held = true)
    (henv : s.env = wrbitDraws s.cfg n b ++ rest) (hn : n * s.cfg.pollInterval < s.cfg.timeout) :
    engWrbit b s = .ok () { s with bus := .byteInProgress, scl := .rel, sda := bitDrive b,
                                   trace := s.trace ++ wrbitTrace s.cfg n b, env := rest,
                                   draws := s.draws + (wrbitDraws s.cfg n b).length } := by
  unfold engWrbit
  rw [waitSclHigh_stretch n (s.raiseClock (bitDrive b))
    ((if b && s.cfg.arbCheckData then [true] else []) ++ rest) (by simpa using hl)
    (by simp) (by simpa [wrbitDraws] using henv) (by simpa using hn)]
  simp only [hh, Bool.not_true, Bool.false_eq_true, if_false, Res.ok_andThen, State.raiseClock_cfg]
  cases ha : (b && s.cfg.arbCheckData)
  · simp [ha, State.delayHold, State.delay, State.note, State.setBus, wrbitTrace, wrbitDraws, stretchDraws, bitDrive]
  · obtain ⟨rfl, hc⟩ : b = true ∧ s.cfg.arbCheckData = true := by simpa using ha
    rw [State.sense_sda_script (e := true) (rest := rest) (by rfl) (by rfl),
      State.sampled_eq (v := true) (e := true) (rest := rest) (State.sense_sda_script (by rfl) (by rfl)) (by rfl)]
    simp [hc, State.delayHold, State.delay, State.note, State.setBus, wrbitTrace, wrbitDraws, stretchDraws, bitDrive, Nat.add_assoc]

/-- RDBIT on a co-operating bus (R161). -/
theorem engRdbit_succeeds (v : Level) (hl : legalConfig s.cfg = true) (hh : s.held = true)
    (henv : s.env = rdbitDraws n v ++ rest) (hn : n * s.cfg.pollInterval < s.cfg.timeout) :
    engRdbit s = .ok v { s with bus := .byteInProgress, scl := .rel, sda := .rel,
                                trace := s.trace ++ rdbitTrace s.cfg n v, env := rest,
                                draws := s.draws + (rdbitDraws n v).length } := by
  unfold engRdbit
  rw [waitSclHigh_stretch n (s.raiseClock .rel) (v :: rest) (by simpa using hl)
    (by simp) (by simpa [rdbitDraws] using henv) (by simpa using hn)]
  simp only [hh, Bool.not_true, Bool.false_eq_true, if_false, Res.ok_andThen]
  rw [State.sense_sda_script (e := v) (rest := rest) (by simp) (by rfl),
    State.sampled_eq (v := v) (e := v) (rest := rest) (State.sense_sda_script (by simp) (by rfl)) (by rfl)]
  simp [State.delayHold, State.delay, State.note, State.setBus, rdbitTrace, rdbitDraws, stretchDraws, Nat.add_assoc]

/-- The stretches of a row of bits stay within the budget. -/
abbrev Stretches (c : Config) (bits : List (Nat × Level)) : Prop := ∀ p ∈ bits, p.1 * c.pollInterval < c.timeout

/-- The drive that the last bit of a row leaves on SDA. -/
def lastDrive (before : Drive) (bits : List (Nat × Level)) : Drive :=
  match bits.getLast? with
  | some p => bitDrive p.2
  | none => before

/-- A row of sent bits on a co-operating bus, with its first bit (R180). -/
theorem sendBits_succeeds (p : Nat × Level) (bits : List (Nat × Level)) : ∀ (s : State) (rest : List Level),
    legalConfig s.cfg = true → s.held = true → Stretches s.cfg (p :: bits) → s.env = sendDraws s.cfg (p :: bits) ++ rest →
    sendBits ((p :: bits).map (·.2)) s =
      .ok () { s with bus := .byteInProgress, scl := .rel, sda := lastDrive .rel (p :: bits),
                      trace := s.trace ++ sendTrace s.cfg (p :: bits), env := rest,
                      draws := s.draws + (sendDraws s.cfg (p :: bits)).length } := by
  induction bits generalizing p with
  | nil =>
    intro s rest hl hh hw henv
    simp only [List.map_cons, List.map_nil, sendBits]
    rw [engWrbit_succeeds (n := p.1) (rest := rest) p.2 hl hh (by simpa [sendDraws] using henv) (hw p (by simp))]
    simp [lastDrive, sendTrace, sendDraws]
  | cons q bits ih =>
    intro s rest hl hh hw henv
    rw [List.map_cons, sendBits]
    rw [engWrbit_succeeds (n := p.1) (rest := sendDraws s.cfg (q :: bits) ++ rest) p.2 hl hh
      (by simpa [sendDraws] using henv) (hw p (by simp)), Res.ok_andThen]
    rw [ih q _ rest ?_ ?_ ?_ ?_]
    · simp [lastDrive, sendTrace, sendDraws, Nat.add_assoc]
    · exact hl
    · rfl
    · exact fun r hr => hw r (List.mem_cons_of_mem _ hr)
    · rfl

/-- A byte from received bits, the bits `n - 1` down to 0 still missing. -/
def fillBits : (n : Nat) → Byte → List Level → Byte
  | n + 1, v, b :: bs => fillBits n (withBit v n b) bs
  | _, v, _ => v

/-- A row of received bits on a co-operating bus, with its first bit (R181). -/
theorem receiveBits_succeeds (p : Nat × Level) (bits : List (Nat × Level)) : ∀ (v : Byte) (s : State) (rest : List Level),
    legalConfig s.cfg = true → s.held = true → Stretches s.cfg (p :: bits) → s.env = receiveDraws (p :: bits) ++ rest →
    receiveBits (bits.length + 1) v s =
      .ok (fillBits (bits.length + 1) v ((p :: bits).map (·.2)))
        { s with bus := .byteInProgress, scl := .rel, sda := .rel, trace := s.trace ++ receiveTrace s.cfg (p :: bits),
                 env := rest, draws := s.draws + (receiveDraws (p :: bits)).length } := by
  induction bits generalizing p with
  | nil =>
    intro v s rest hl hh hw henv
    simp only [List.length_nil, receiveBits]
    rw [engRdbit_succeeds (n := p.1) (rest := rest) p.2 hl hh (by simpa [receiveDraws] using henv) (hw p (by simp))]
    simp [receiveTrace, receiveDraws, fillBits]
  | cons q bits ih =>
    intro v s rest hl hh hw henv
    rw [List.length_cons, receiveBits]
    rw [engRdbit_succeeds (n := p.1) (rest := receiveDraws (q :: bits) ++ rest) p.2 hl hh
      (by simpa [receiveDraws] using henv) (hw p (by simp)), Res.ok_andThen]
    rw [ih q _ _ rest ?_ ?_ ?_ ?_]
    · simp [receiveTrace, receiveDraws, fillBits, Nat.add_assoc]
    · exact hl
    · rfl
    · exact fun r hr => hw r (List.mem_cons_of_mem _ hr)
    · rfl

/-- Filling the eight bits of a byte in wire order gives the byte back (R72). -/
theorem fillBits_bitsMsbFirst (v : Byte) : fillBits 8 0#8 (bitsMsbFirst v) = v := by
  revert v; decide

/-- Each of the nine stretches of a byte stays within the budget. -/
abbrev ByteStretches (c : Config) (w : Nat → Nat) : Prop := ∀ i ≤ 8, w i * c.pollInterval < c.timeout

theorem stretchedBits_stretches {c : Config} {w : Nat → Nat} (hw : ByteStretches c w) (d : Byte) :
    Stretches c (stretchedBits w d) := by
  intro p hp
  simp only [stretchedBits, List.mem_cons, List.not_mem_nil, or_false] at hp
  rcases hp with rfl | rfl | rfl | rfl | rfl | rfl | rfl | rfl <;> exact hw _ (by omega)

/-- The eight bits of a sent byte on a co-operating bus (R180). -/
theorem sendByte_succeeds (d : Byte) (w : Nat → Nat) (hl : legalConfig s.cfg = true) (hh : s.held = true)
    (hw : ByteStretches s.cfg w) (henv : s.env = sendDraws s.cfg (stretchedBits w d) ++ rest) :
    sendBits (bitsMsbFirst d) s = .ok ()
      { s with bus := .byteInProgress, scl := .rel, sda := lastDrive .rel (stretchedBits w d),
               trace := s.trace ++ sendTrace s.cfg (stretchedBits w d), env := rest,
               draws := s.draws + (sendDraws s.cfg (stretchedBits w d)).length } := by
  have h := sendBits_succeeds (w 0, d.getLsbD 7) (stretchedBits w d).tail s rest hl hh (stretchedBits_stretches hw d)
    (by rw [henv]; rfl)
  exact h

/-- The eight bits of a received byte on a co-operating bus (R181). -/
theorem receiveByte_succeeds (v : Byte) (w : Nat → Nat) (hl : legalConfig s.cfg = true) (hh : s.held = true)
    (hw : ByteStretches s.cfg w) (henv : s.env = receiveDraws (stretchedBits w v) ++ rest) :
    receiveBits 8 0#8 s = .ok v
      { s with bus := .byteInProgress, scl := .rel, sda := .rel, trace := s.trace ++ receiveTrace s.cfg (stretchedBits w v),
               env := rest, draws := s.draws + (receiveDraws (stretchedBits w v)).length } := by
  have h := receiveBits_succeeds (w 0, v.getLsbD 7) (stretchedBits w v).tail 0#8 s rest hl hh
    (stretchedBits_stretches hw v) (by rw [henv]; rfl)
  rw [show (fillBits ((stretchedBits w v).tail.length + 1) 0#8
    (((w 0, v.getLsbD 7) :: (stretchedBits w v).tail).map (·.2))) = v from fillBits_bitsMsbFirst v] at h
  exact h

/-- WRBYTE on a co-operating bus (R180); `v` is the level of the acknowledgment, low is ack. -/
theorem engWrbyte_succeeds (d : Byte) (w : Nat → Nat) (v : Level) (hl : legalConfig s.cfg = true) (hh : s.held = true)
    (hw : ByteStretches s.cfg w) (henv : s.env = wrbyteDraws s.cfg w d v ++ rest) :
    engWrbyte d s = .ok (!v) { s with bus := .byteInProgress, scl := .rel, sda := .rel,
                                      trace := s.trace ++ wrbyteTrace s.cfg w d v, env := rest,
                                      draws := s.draws + (wrbyteDraws s.cfg w d v).length } := by
  unfold engWrbyte
  rw [sendByte_succeeds (rest := rdbitDraws (w 8) v ++ rest) d w hl hh hw (by rw [henv, wrbyteDraws, List.append_assoc])]
  simp only [hh, Bool.not_true, Bool.false_eq_true, if_false, Res.ok_andThen]
  rw [engRdbit_succeeds (n := w 8) (rest := rest) v ?_ ?_ ?_ ?_]
  · simp [wrbyteTrace, wrbyteDraws, Nat.add_assoc]
  · exact hl
  · rfl
  · rfl
  · exact hw 8 (by omega)

/-- RDBYTE on a co-operating bus (R181). -/
theorem engRdbyte_succeeds (v : Byte) (w : Nat → Nat) (a : Bool) (hl : legalConfig s.cfg = true) (hh : s.held = true)
    (hw : ByteStretches s.cfg w) (henv : s.env = rdbyteDraws s.cfg w v a ++ rest) :
    engRdbyte a s = .ok v { s with bus := .byteInProgress, scl := .rel, sda := bitDrive (!a),
                                   trace := s.trace ++ rdbyteTrace s.cfg w v a, env := rest,
                                   draws := s.draws + (rdbyteDraws s.cfg w v a).length } := by
  unfold engRdbyte
  rw [receiveByte_succeeds (rest := wrbitDraws s.cfg (w 8) (!a) ++ rest) v w hl hh hw
    (by rw [henv, rdbyteDraws, List.append_assoc])]
  simp only [hh, Bool.not_true, Bool.false_eq_true, if_false, Res.ok_andThen]
  rw [engWrbit_succeeds (n := w 8) (rest := rest) (!a) ?_ ?_ ?_ ?_]
  · simp [rdbyteTrace, rdbyteDraws, Nat.add_assoc]
  · exact hl
  · rfl
  · rfl
  · exact hw 8 (by omega)

end Sys2Proof.Machine
end

