-- ==== Sys2Proof/Laws/Ends.lean ====
section
/-! SUPPORT. Everything an engine command can do: one lemma per command, with its value and state where it succeeds and its
state where it fails (R141-R143, R160, R161, R180, R181, R262, R263, R271). -/

namespace Sys2Proof.Machine

/-- What no engine command writes, RESET apart: the configuration, the bus lock, the port, the response and the cached
selection. -/
structure Frame (s t : State) : Prop where
  cfg      : t.cfg = s.cfg
  lock     : t.lock = s.lock
  port     : t.port = s.port
  response : t.response = s.response
  muxCur   : t.muxCur = s.muxCur

theorem Frame.refl (s : State) : Frame s s := ⟨rfl, rfl, rfl, rfl, rfl⟩

theorem Frame.trans {s t u : State} (h : Frame s t) (k : Frame t u) : Frame s u :=
  ⟨k.cfg.trans h.cfg, k.lock.trans h.lock, k.port.trans h.port, k.response.trans h.response, k.muxCur.trans h.muxCur⟩

/-! ## Silent traces: the SDA drive changes under a low clock only (R67) -/

/-- The events make no bus condition, whatever the drives before them. -/
def Silent (es : List Event) : Prop := ∀ scl sda, conditions scl sda es = []

theorem conditions_append (es fs : List Event) : ∀ scl sda, ∃ scl' sda',
    conditions scl sda (es ++ fs) = conditions scl sda es ++ conditions scl' sda' fs := by
  induction es with
  | nil => exact fun scl sda => ⟨scl, sda, rfl⟩
  | cons e es ih =>
    intro scl sda
    match e with
    | .set .scl d => exact ih d sda
    | .set .sda d =>
      obtain ⟨a, b, h⟩ := ih scl d
      exact ⟨a, b, by simp [conditions, h]⟩
    | .get _ _ => exact ih scl sda
    | .wait _ => exact ih scl sda

theorem Silent.append {es fs : List Event} (h : Silent es) (k : Silent fs) : Silent (es ++ fs) := by
  intro scl sda
  obtain ⟨a, b, hab⟩ := conditions_append es fs scl sda
  rw [hab, h, k]; rfl

theorem silent_lowTrace (c : Config) (n : Nat) : Silent (lowTrace c n) := by
  induction n with
  | zero => exact fun _ _ => rfl
  | succ n ih => exact fun scl sda => ih scl sda

theorem silent_nil : Silent [] := fun _ _ => rfl

theorem silent_quiet (es : List Event) (h : ∀ e ∈ es, ∀ l d, e ≠ .set l d) : Silent es := by
  induction es with
  | nil => exact silent_nil
  | cons e es ih =>
    have := ih fun e' he => h e' (by simp [he])
    intro scl sda
    match e with
    | .set l d => exact absurd rfl (h _ (by simp) l d)
    | .get _ _ => exact this scl sda
    | .wait _ => exact this scl sda

/-- The head of a bit cycle. -/
theorem silent_raiseClock (t : Nat) (d : Drive) :
    Silent [.set .scl .low, .wait t, .set .sda d, .wait t, .set .scl .rel] := by
  intro scl sda
  cases sda <;> cases d <;> rfl

/-! ## Sums over traces -/

theorem ticks_append (es fs : List Event) : ticks (es ++ fs) = ticks es + ticks fs := by
  induction es with
  | nil => simp [ticks]
  | cons e es ih => cases e <;> simp [ticks, ih, Nat.add_assoc]

theorem lowPolls_append (es fs : List Event) : lowPolls (es ++ fs) = lowPolls es + lowPolls fs := by
  induction es with
  | nil => simp [lowPolls]
  | cons e es ih =>
    match e with
    | .get .scl false => simp [lowPolls, ih]; omega
    | .get .scl true => simp [lowPolls, ih]
    | .get .sda _ => simp [lowPolls, ih]
    | .set _ _ => simp [lowPolls, ih]
    | .wait _ => simp [lowPolls, ih]

@[simp] theorem ticks_lowTrace (c : Config) (n : Nat) : ticks (lowTrace c n) = n * c.pollInterval := by
  induction n with
  | zero => simp [lowTrace, ticks]
  | succ n ih => simp [lowTrace, ticks, ih, Nat.succ_mul, Nat.add_comm]

@[simp] theorem lowPolls_lowTrace (c : Config) (n : Nat) : lowPolls (lowTrace c n) = n := by
  induction n with
  | zero => rfl
  | succ n ih => simp [lowTrace, lowPolls, ih]

theorem lastScl_append (es fs : List Event) : lastScl (es ++ fs) = (lastScl fs).or (lastScl es) := by
  induction es with
  | nil => simp [lastScl]
  | cons e es ih =>
    match e with
    | .get .scl v => simp [lastScl, ih]
    | .get .sda _ => simp [lastScl, ih]
    | .set _ _ => simp [lastScl, ih]
    | .wait _ => simp [lastScl, ih]

/-! ## The wait -/

/-- Everything `WaitSclHigh` can do (R64). -/
theorem waitSclHigh_ends (s : State) :
    (waitSclHigh s).Ends (fun _ t => ∃ m, t = s.waited m) (fun f t => f = .timeout ∧ ∃ m, t = s.waitedOut m) :=
  waitLoop_ends _ _ s

section waited
variable (m : Nat) (s : State)
@[simp] theorem State.waited_bus : (s.waited m).bus = s.bus := rfl
@[simp] theorem State.waited_scl : (s.waited m).scl = s.scl := rfl
@[simp] theorem State.waited_sda : (s.waited m).sda = s.sda := rfl
@[simp] theorem State.waited_cfg : (s.waited m).cfg = s.cfg := rfl
@[simp] theorem State.waited_trace : (s.waited m).trace = s.trace ++ stretchTrace s.cfg m := by
  simp [State.waited, stretchTrace]
@[simp] theorem State.waitedOut_bus : (s.waitedOut m).bus = .timedOut := rfl
@[simp] theorem State.waitedOut_scl : (s.waitedOut m).scl = s.scl := rfl
@[simp] theorem State.waitedOut_sda : (s.waitedOut m).sda = s.sda := rfl
@[simp] theorem State.waitedOut_trace : (s.waitedOut m).trace = s.trace ++ lowTrace s.cfg m := rfl
@[simp] theorem State.waited_lock : (s.waited m).lock = s.lock := rfl
@[simp] theorem State.waited_port : (s.waited m).port = s.port := rfl
@[simp] theorem State.waited_response : (s.waited m).response = s.response := rfl
@[simp] theorem State.waited_muxCur : (s.waited m).muxCur = s.muxCur := rfl
@[simp] theorem State.waitedOut_lock : (s.waitedOut m).lock = s.lock := rfl
@[simp] theorem State.waitedOut_port : (s.waitedOut m).port = s.port := rfl
@[simp] theorem State.waitedOut_response : (s.waitedOut m).response = s.response := rfl
@[simp] theorem State.waitedOut_muxCur : (s.waitedOut m).muxCur = s.muxCur := rfl
@[simp] theorem State.waitedOut_cfg : (s.waitedOut m).cfg = s.cfg := rfl
theorem State.waited_frame : Frame s (s.waited m) := ⟨rfl, rfl, rfl, rfl, rfl⟩
theorem State.waitedOut_frame : Frame s (s.waitedOut m) := ⟨rfl, rfl, rfl, rfl, rfl⟩
end waited

theorem silent_stretchTrace (c : Config) (n : Nat) : Silent (stretchTrace c n) :=
  (silent_lowTrace c n).append (silent_quiet _ (by simp))

/-! ## Frames of the plain updates -/

theorem State.raiseClock_frame (d : Drive) (s : State) : Frame s (s.raiseClock d) := ⟨rfl, rfl, rfl, rfl, rfl⟩
theorem State.raiseBoth_frame (s : State) : Frame s s.raiseBoth := ⟨by simp, by simp, by simp, by simp, by simp⟩
theorem State.sampled_frame (l : Line) (s : State) : Frame s (s.sampled l) := ⟨rfl, rfl, rfl, rfl, rfl⟩
theorem State.setBus_frame (b : BusState) (s : State) : Frame s (s.setBus b) := ⟨rfl, rfl, rfl, rfl, rfl⟩
theorem State.delayHold_frame (s : State) : Frame s s.delayHold := ⟨rfl, rfl, rfl, rfl, rfl⟩
theorem State.delayRf_frame (s : State) : Frame s s.delayRf := ⟨rfl, rfl, rfl, rfl, rfl⟩
theorem State.setLine_frame (l : Line) (d : Drive) (s : State) : Frame s (s.setLine l d) := by
  cases l <;> exact ⟨rfl, rfl, rfl, rfl, rfl⟩

/-! ## Failures -/

/-- The state after a failure (R262, R271): IllegalState changes nothing; the bus failures enter their terminal state with
SCL released, and some events were added. -/
def FailedAs (s : State) (f : Failure) (t : State) : Prop :=
  match f with
  | .illegalState => t = s
  | .arbitrationLost => Frame s t ∧ t.bus = .arbitrationLost ∧ t.scl = .rel ∧ ∃ es, t.trace = s.trace ++ es
  | .timeout => Frame s t ∧ t.bus = .timedOut ∧ t.scl = .rel ∧ ∃ es, t.trace = s.trace ++ es

theorem FailedAs.frame {s t : State} {f : Failure} (h : FailedAs s f t) : Frame s t := by
  cases f with
  | illegalState => cases h; exact .refl s
  | arbitrationLost => exact h.1
  | timeout => exact h.1

/-- A failure that is not IllegalState, after some events, is a failure from the start. -/
theorem FailedAs.after {s t u : State} {f : Failure} {es : List Event} (hf : f ≠ .illegalState) (hst : Frame s t)
    (htr : t.trace = s.trace ++ es) (h : FailedAs t f u) : FailedAs s f u := by
  cases f with
  | illegalState => exact absurd rfl hf
  | arbitrationLost => exact ⟨hst.trans h.1, h.2.1, h.2.2.1, by
      obtain ⟨fs, hfs⟩ := h.2.2.2; exact ⟨es ++ fs, by rw [hfs, htr, List.append_assoc]⟩⟩
  | timeout => exact ⟨hst.trans h.1, h.2.1, h.2.2.1, by
      obtain ⟨fs, hfs⟩ := h.2.2.2; exact ⟨es ++ fs, by rw [hfs, htr, List.append_assoc]⟩⟩

/-! ## START and STOP -/

/-- A bus failure after some events (R271). -/
theorem FailedAs.lost {s t : State} (es : List Event) (hf : Frame s t) (hb : t.bus = .arbitrationLost) (hc : t.scl = .rel)
    (ht : t.trace = s.trace ++ es) : FailedAs s .arbitrationLost t := ⟨hf, hb, hc, es, ht⟩

theorem FailedAs.timedOut {s t : State} (es : List Event) (hf : Frame s t) (hb : t.bus = .timedOut) (hc : t.scl = .rel)
    (ht : t.trace = s.trace ++ es) : FailedAs s .timeout t := ⟨hf, hb, hc, es, ht⟩

/-- Everything START can do (R141). -/
theorem engStart_ends (s : State) :
    (engStart s).Ends
      (fun _ t => s.ready = true ∧ Frame s t ∧ t.bus = .started ∧ t.scl = .rel ∧ t.sda = .low ∧
        ∃ m, t.trace = s.trace ++ startTrace s.cfg s.held m)
      (fun f t => FailedAs s f t ∧ (f = .illegalState → s.ready = false)) := by
  unfold engStart
  split
  · rename_i h
    exact ⟨rfl, fun _ => by simpa using h⟩
  · rename_i h
    have hr : s.ready = true := by simpa using h
    refine (waitSclHigh_ends s.raiseBoth).mono (fun _ _ h => h) ?_ |>.andThen ?_
    · rintro f t ⟨rfl, m, rfl⟩
      refine ⟨.timedOut (s.raiseBothTrace ++ lowTrace s.cfg m) (s.raiseBoth_frame.trans (State.waitedOut_frame m _)) rfl
        (by simp) (by simp), by simp⟩
    · rintro _ t ⟨m, rfl⟩
      have hfr := s.raiseBoth_frame.trans (State.waited_frame m _)
      split
      · refine ⟨FailedAs.lost (s.raiseBothTrace ++ (stretchTrace s.cfg m ++
          [.get .sda ((s.raiseBoth.waited m).sense .sda)])) (hfr.trans ?_) ?_ ?_ ?_, by simp⟩
        · constructor <;> simp [State.afterFailure]
        · simp [State.afterFailure]
        · simp [State.afterFailure]
        · simp [State.afterFailure]
      · rename_i ha
        have ha : (s.raiseBoth.waited m).sense .sda = true := by simpa using ha
        dsimp only
        split
        · rename_i hb
          refine ⟨FailedAs.lost (s.raiseBothTrace ++ (stretchTrace s.cfg m ++
            [.get .sda true, .set .sda .low, .wait s.cfg.riseFallDelay, .get .sda true])) (hfr.trans ?_) ?_ ?_ ?_, by simp⟩
          · constructor <;> simp [State.afterFailure]
          · simp [State.afterFailure]
          · simp [State.afterFailure]
          · simp [State.afterFailure, ha, hb]
        · rename_i hb
          have hb := Bool.eq_false_iff.2 hb
          refine ⟨hr, hfr.trans (by constructor <;> simp), by simp, by simp, by simp, m, ?_⟩
          simp only [State.setBus_trace, State.delayHold_trace, State.sampled_trace, State.delayRf_trace,
            State.setLineSda_trace, ha, hb]
          rcases ready_cases s hr with ⟨hi, hh⟩ | ⟨hi, hh⟩ <;> simp [startTrace, State.raiseBothTrace, hi, hh]

/-- Everything STOP can do (R142). -/
theorem engStop_ends (s : State) :
    (engStop s).Ends
      (fun _ t => s.held = true ∧ Frame s t ∧ t.bus = .idle ∧ t.scl = .rel ∧ t.sda = .rel ∧
        ∃ m, t.trace = s.trace ++ stopTrace s.cfg m)
      (fun f t => FailedAs s f t ∧ (f = .illegalState → s.held = false) ∧
        (f = .arbitrationLost → s.cfg.arbCheckData = true)) := by
  unfold engStop
  split
  · rename_i h
    exact ⟨rfl, fun _ => by simpa using h, by simp⟩
  · rename_i h
    have hh : s.held = true := by simpa using h
    refine (waitSclHigh_ends (s.raiseClock .low)).mono (fun _ _ h => h) ?_ |>.andThen ?_
    · rintro f t ⟨rfl, m, rfl⟩
      exact ⟨.timedOut (riseTrace s.cfg .low ++ lowTrace s.cfg m) (by constructor <;> simp) (by simp) (by simp) (by simp), by simp⟩
    · rintro _ t ⟨m, rfl⟩
      dsimp only
      split
      · rename_i hc
        have hc : s.cfg.arbCheckData = true := hc
        split
        · rename_i ha
          have ha : State.sense .sda (State.setLine .sda .rel (State.waited m (State.raiseClock .low s)).delayHold).delayRf =
            false := by simpa using ha
          refine ⟨FailedAs.lost (riseTrace s.cfg .low ++ (stretchTrace s.cfg m ++
            [.wait s.cfg.holdDelay, .set .sda .rel, .wait s.cfg.riseFallDelay, .get .sda false])) ?_ ?_ ?_ ?_,
            by simp, fun _ => hc⟩
          · constructor <;> simp [State.afterFailure]
          · simp [State.afterFailure]
          · simp [State.afterFailure]
          · simp [State.afterFailure, ha]
        · rename_i ha
          have ha : State.sense .sda (State.setLine .sda .rel (State.waited m (State.raiseClock .low s)).delayHold).delayRf =
            true := by simpa using ha
          refine ⟨hh, by constructor <;> simp, by simp, by simp, by simp, m, ?_⟩
          simp only [State.setBus_trace, State.sampled_trace, ha]
          simp [stopTrace, hc]
      · rename_i hc
        have hc : s.cfg.arbCheckData = false := by simpa using hc
        exact ⟨hh, by constructor <;> simp, by simp, by simp, by simp, m, by simp [stopTrace, hc]⟩

/-! ## Bits -/

/-- Everything WRBIT can do (R160): ArbitrationLost only on a checked 1 bit, and no bus condition in any case. -/
theorem engWrbit_ends (b : Level) (s : State) :
    (engWrbit b s).Ends
      (fun _ t => s.held = true ∧ Frame s t ∧ t.bus = .byteInProgress ∧ t.scl = .rel ∧ t.sda = bitDrive b ∧
        ∃ m, t.trace = s.trace ++ wrbitTrace s.cfg m b)
      (fun f t => FailedAs s f t ∧ (f = .illegalState → s.held = false) ∧
        (f = .arbitrationLost → b = true ∧ s.cfg.arbCheckData = true) ∧ ∃ es, t.trace = s.trace ++ es ∧ Silent es) := by
  unfold engWrbit
  split
  · rename_i h
    exact ⟨rfl, fun _ => by simpa using h, by simp, [], by simp [State.afterFailure], silent_nil⟩
  · rename_i h
    have hh : s.held = true := by simpa using h
    have silent := silent_raiseClock s.cfg.riseFallDelay (bitDrive b)
    refine (waitSclHigh_ends (s.raiseClock (bitDrive b))).mono (fun _ _ h => h) ?_ |>.andThen ?_
    · rintro f t ⟨rfl, m, rfl⟩
      have ht : ((s.raiseClock (bitDrive b)).waitedOut m).trace =
        s.trace ++ (riseTrace s.cfg (bitDrive b) ++ lowTrace s.cfg m) := by simp
      exact ⟨.timedOut _ (by constructor <;> simp) (by simp) (by simp) ht, by simp, by simp, _, ht, silent.append (silent_lowTrace _ m)⟩
    · rintro _ t ⟨m, rfl⟩
      split
      · rename_i hc
        have hc : b = true ∧ s.cfg.arbCheckData = true := by simpa using hc
        split
        · have ht : ((((s.raiseClock (bitDrive b)).waited m).sampled .sda).afterFailure .arbitrationLost).trace =
            s.trace ++ (riseTrace s.cfg (bitDrive b) ++ stretchTrace s.cfg m ++
              [.get .sda (((s.raiseClock (bitDrive b)).waited m).sense .sda)]) := by simp [State.afterFailure]
          exact ⟨.lost _ (by constructor <;> simp [State.afterFailure]) (by simp [State.afterFailure]) (by simp [State.afterFailure]) ht, by simp, fun _ => hc, _, ht,
            (silent.append (silent_stretchTrace _ m)).append (silent_quiet _ (by simp))⟩
        · rename_i ha
          have ha : State.sense .sda (State.waited m (State.raiseClock (bitDrive b) s)) = true := by
            simpa using ha
          refine ⟨hh, by constructor <;> simp, by simp, by simp, by simp, m, ?_⟩
          simp only [State.setBus_trace, State.delayHold_trace, State.sampled_trace, ha]
          simp [wrbitTrace, hc]
      · rename_i hc
        have hc : (b && s.cfg.arbCheckData) = false := by simpa using hc
        refine ⟨hh, by constructor <;> simp, by simp, by simp, by simp, m, ?_⟩
        simp [wrbitTrace, hc]

/-- Everything RDBIT can do (R161): never ArbitrationLost, and no bus condition in any case. -/
theorem engRdbit_ends (s : State) :
    (engRdbit s).Ends
      (fun v t => s.held = true ∧ Frame s t ∧ t.bus = .byteInProgress ∧ t.scl = .rel ∧ t.sda = .rel ∧
        ∃ m, t.trace = s.trace ++ rdbitTrace s.cfg m v)
      (fun f t => FailedAs s f t ∧ (f = .illegalState → s.held = false) ∧ f ≠ .arbitrationLost ∧
        ∃ es, t.trace = s.trace ++ es ∧ Silent es) := by
  unfold engRdbit
  split
  · rename_i h
    exact ⟨rfl, fun _ => by simpa using h, by simp, [], by simp [State.afterFailure], silent_nil⟩
  · rename_i h
    have hh : s.held = true := by simpa using h
    refine (waitSclHigh_ends (s.raiseClock .rel)).mono (fun _ _ h => h) ?_ |>.andThen ?_
    · rintro f t ⟨rfl, m, rfl⟩
      have ht : ((s.raiseClock .rel).waitedOut m).trace = s.trace ++ (riseTrace s.cfg .rel ++ lowTrace s.cfg m) := by simp
      exact ⟨.timedOut _ (by constructor <;> simp) (by simp) (by simp) ht, by simp, by simp, _, ht,
        (silent_raiseClock s.cfg.riseFallDelay .rel).append (silent_lowTrace _ m)⟩
    · rintro _ t ⟨m, rfl⟩
      exact ⟨hh, by constructor <;> simp, by simp, by simp, by simp, m, by simp [rdbitTrace]⟩

theorem silent_wrbitTrace (c : Config) (m : Nat) (b : Level) : Silent (wrbitTrace c m b) :=
  (((silent_raiseClock _ _).append (silent_stretchTrace c m)).append
    (silent_quiet _ (by split <;> simp))).append (silent_quiet _ (by simp))

theorem silent_rdbitTrace (c : Config) (m : Nat) (v : Level) : Silent (rdbitTrace c m v) :=
  ((silent_raiseClock _ _).append (silent_stretchTrace c m)).append (silent_quiet _ (by simp))

/-! ## Bytes -/

theorem held_of_byteInProgress {s : State} (h : s.bus = .byteInProgress) : s.held = true := by simp [State.held, h]

/-- How a bit command of a byte can fail on a held bus: not by IllegalState. -/
def FailedOnBus (s : State) (f : Failure) (t : State) : Prop :=
  f ≠ .illegalState ∧ FailedAs s f t ∧ ∃ es, t.trace = s.trace ++ es ∧ Silent es

theorem FailedOnBus.after {s t u : State} {f : Failure} {es : List Event} (hst : Frame s t) (htr : t.trace = s.trace ++ es)
    (hes : Silent es) (h : FailedOnBus t f u) : FailedOnBus s f u := by
  obtain ⟨hf, hfail, fs, hfs, hsil⟩ := h
  exact ⟨hf, hfail.after hf hst htr, es ++ fs, by rw [hfs, htr, List.append_assoc], hes.append hsil⟩

theorem silent_sendTrace (c : Config) (ps : List (Nat × Level)) : Silent (sendTrace c ps) := by
  induction ps with
  | nil => exact silent_nil
  | cons p ps ih => exact (silent_wrbitTrace c p.1 p.2).append ih

theorem silent_receiveTrace (c : Config) (ps : List (Nat × Level)) : Silent (receiveTrace c ps) := by
  induction ps with
  | nil => exact silent_nil
  | cons p ps ih => exact (silent_rdbitTrace c p.1 p.2).append ih

/-- Everything a row of sent bits can do on a held bus (R180): ArbitrationLost only on a checked 1 bit. -/
theorem sendBits_ends (bits : List Level) : ∀ s : State, s.held = true →
    (sendBits bits s).Ends
      (fun _ t => t.held = true ∧ Frame s t ∧ (bits = [] → t = s) ∧
        (bits ≠ [] → t.bus = .byteInProgress ∧ t.scl = .rel) ∧
        ∃ ps : List (Nat × Level), ps.map (·.2) = bits ∧ t.trace = s.trace ++ sendTrace s.cfg ps)
      (fun f t => FailedOnBus s f t ∧ (f = .arbitrationLost → true ∈ bits ∧ s.cfg.arbCheckData = true)) := by
  induction bits with
  | nil => exact fun s hh => ⟨hh, .refl s, by simp, by simp, [], rfl, by simp [sendTrace]⟩
  | cons b bits ih =>
    intro s hh
    rw [sendBits]
    refine (engWrbit_ends b s).mono (fun _ _ h => h) ?_ |>.andThen ?_
    · rintro f t ⟨hf, hi, ha, hes⟩
      have hne : f ≠ .illegalState := fun h => by simp [hi h] at hh
      exact ⟨⟨hne, hf, hes⟩, fun h => ⟨by simp [(ha h).1], (ha h).2⟩⟩
    · rintro _ t ⟨-, hfr, hb, hc, -, m, htr⟩
      refine (ih t (held_of_byteInProgress hb)).mono ?_ ?_
      · rintro _ u ⟨huh, huf, hue, hub, ps, hps, hut⟩
        refine ⟨huh, hfr.trans huf, by simp, fun _ => ?_, (m, b) :: ps, by simp [hps], ?_⟩
        · by_cases he : bits = []
          · rw [hue he]; exact ⟨hb, hc⟩
          · exact hub he
        · rw [hut, htr, hfr.cfg]; simp [sendTrace]
      · rintro f u ⟨hf, ha⟩
        exact ⟨hf.after hfr htr (silent_wrbitTrace _ _ _), fun h => ⟨by simp [(ha h).1], hfr.cfg ▸ (ha h).2⟩⟩

/-- Everything a row of received bits can do on a held bus (R181): never ArbitrationLost. -/
theorem receiveBits_ends (n : Nat) : ∀ (v : Byte) (s : State), s.held = true →
    (receiveBits n v s).Ends
      (fun r t => t.held = true ∧ Frame s t ∧
        ∃ ps : List (Nat × Level), ps.length = n ∧ r = fillBits n v (ps.map (·.2)) ∧
          t.trace = s.trace ++ receiveTrace s.cfg ps)
      (fun f t => FailedOnBus s f t ∧ f ≠ .arbitrationLost) := by
  induction n with
  | zero => exact fun v s hh => ⟨hh, .refl s, [], rfl, rfl, by simp [receiveTrace]⟩
  | succ n ih =>
    intro v s hh
    rw [receiveBits]
    refine (engRdbit_ends s).mono (fun _ _ h => h) ?_ |>.andThen ?_
    · rintro f t ⟨hf, hi, ha, hes⟩
      exact ⟨⟨fun h => by simp [hi h] at hh, hf, hes⟩, ha⟩
    · rintro b t ⟨-, hfr, hb, -, -, m, htr⟩
      refine (ih (withBit v n b) t (held_of_byteInProgress hb)).mono ?_ ?_
      · rintro r u ⟨huh, huf, ps, hlen, rfl, hut⟩
        exact ⟨huh, hfr.trans huf, (m, b) :: ps, by simp [hlen], by simp [fillBits],
          by rw [hut, htr, hfr.cfg]; simp [receiveTrace]⟩
      · rintro f u ⟨hf, ha⟩
        exact ⟨hf.after hfr htr (silent_rdbitTrace _ _ _), ha⟩

/-- Everything WRBYTE can do (R180): ArbitrationLost only in a checked 1 bit of the byte, and no bus condition in any
case. -/
theorem engWrbyte_ends (d : Byte) (s : State) :
    (engWrbyte d s).Ends
      (fun ack t => s.held = true ∧ Frame s t ∧ t.bus = .byteInProgress ∧ t.scl = .rel ∧ t.sda = .rel ∧
        ∃ (ps : List (Nat × Level)) (m : Nat), ps.map (·.2) = bitsMsbFirst d ∧
          t.trace = s.trace ++ (sendTrace s.cfg ps ++ rdbitTrace s.cfg m (!ack)))
      (fun f t => FailedAs s f t ∧ (f = .illegalState → s.held = false) ∧
        (f = .arbitrationLost → true ∈ bitsMsbFirst d ∧ s.cfg.arbCheckData = true) ∧
        ∃ es, t.trace = s.trace ++ es ∧ Silent es) := by
  unfold engWrbyte
  split
  · rename_i h
    exact ⟨rfl, fun _ => by simpa using h, by simp, [], by simp [State.afterFailure], silent_nil⟩
  · rename_i h
    have hh : s.held = true := by simpa using h
    refine (sendBits_ends _ s hh).mono (fun _ _ h => h) ?_ |>.andThen ?_
    · rintro f t ⟨⟨hne, hf, hes⟩, ha⟩
      exact ⟨hf, fun h => absurd h hne, ha, hes⟩
    · rintro _ t ⟨hth, hfr, -, -, ps, hps, htr⟩
      refine (engRdbit_ends t).mono (fun _ _ h => h) ?_ |>.andThen ?_
      · rintro f u ⟨hf, hi, ha, es, hes, hsil⟩
        have hne : f ≠ .illegalState := fun h => by simp [hi h] at hth
        exact ⟨hf.after hne hfr htr, fun h => absurd h hne, fun h => absurd h ha, sendTrace s.cfg ps ++ es,
          by rw [hes, htr, List.append_assoc], (silent_sendTrace _ _).append hsil⟩
      · rintro v u ⟨-, huf, hub, huc, hud, m, hut⟩
        exact ⟨hh, hfr.trans huf, hub, huc, hud, ps, m, hps, by rw [hut, htr, hfr.cfg]; simp⟩

/-- Everything RDBYTE can do (R181): ArbitrationLost only in the ninth clock of a checked nack, and no bus condition in any
case. -/
theorem engRdbyte_ends (a : Bool) (s : State) :
    (engRdbyte a s).Ends
      (fun v t => s.held = true ∧ Frame s t ∧ t.bus = .byteInProgress ∧ t.scl = .rel ∧ t.sda = bitDrive (!a) ∧
        ∃ (ps : List (Nat × Level)) (m : Nat), ps.length = 8 ∧ v = fillBits 8 0#8 (ps.map (·.2)) ∧
          t.trace = s.trace ++ (receiveTrace s.cfg ps ++ wrbitTrace s.cfg m (!a)))
      (fun f t => FailedAs s f t ∧ (f = .illegalState → s.held = false) ∧
        (f = .arbitrationLost → a = false ∧ s.cfg.arbCheckData = true) ∧ ∃ es, t.trace = s.trace ++ es ∧ Silent es) := by
  unfold engRdbyte
  split
  · rename_i h
    exact ⟨rfl, fun _ => by simpa using h, by simp, [], by simp [State.afterFailure], silent_nil⟩
  · rename_i h
    have hh : s.held = true := by simpa using h
    refine (receiveBits_ends 8 0#8 s hh).mono (fun _ _ h => h) ?_ |>.andThen ?_
    · rintro f t ⟨⟨hne, hf, hes⟩, ha⟩
      exact ⟨hf, fun h => absurd h hne, fun h => absurd h ha, hes⟩
    · rintro v t ⟨hth, hfr, ps, hlen, rfl, htr⟩
      refine (engWrbit_ends (!a) t).mono (fun _ _ h => h) ?_ |>.andThen ?_
      · rintro f u ⟨hf, hi, ha, es, hes, hsil⟩
        have hne : f ≠ .illegalState := fun h => by simp [hi h] at hth
        exact ⟨hf.after hne hfr htr, fun h => absurd h hne, fun h => ⟨by simpa using (ha h).1, hfr.cfg ▸ (ha h).2⟩,
          receiveTrace s.cfg ps ++ es, by rw [hes, htr, List.append_assoc], (silent_receiveTrace _ _).append hsil⟩
      · rintro _ u ⟨-, huf, hub, huc, hud, m, hut⟩
        exact ⟨hh, hfr.trans huf, hub, huc, hud, ps, m, hlen, rfl, by rw [hut, htr, hfr.cfg]; simp⟩

end Sys2Proof.Machine
end

