-- ==== Sys2Proof/Laws/Transfer.lean ====
section
/-! SUPPORT. What a transfer does where the environment co-operates: the payload phases, one message, the messages of a list
(R200-R203, R205, R208, R209). -/

namespace Sys2Proof.Machine

@[simp] theorem Run.go_andThen {α β : Type} (a : α) (t : State) (k : α → State → Run β) : (Run.go a t).andThen k = k a t := rfl

@[simp] theorem Run.ended_andThen {α β : Type} (r : Result) (t : State) (k : α → State → Run β) :
    (Run.ended r t : Run α).andThen k = .ended r t := rfl

@[simp] theorem eng_ok {α : Type} (p : Progress) (a : α) (t : State) : eng p (.ok a t) = .go a t := rfl

/-! ## The last Read message (R205) -/

theorem lastReadFrom_eq_none (ms : List Message) : ∀ i, lastReadFrom i ms = none ↔ ms.any (·.isRead) = false := by
  induction ms with
  | nil => simp [lastReadFrom]
  | cons m ms ih =>
    intro i
    have := ih (i + 1)
    cases h : lastReadFrom (i + 1) ms <;> cases hm : m.isRead <;> simp_all [lastReadFrom]

theorem lastReadFrom_le (ms : List Message) : ∀ i k, lastReadFrom i ms = some k → i ≤ k := by
  induction ms with
  | nil => simp [lastReadFrom]
  | cons m ms ih =>
    intro i k h
    cases h' : lastReadFrom (i + 1) ms with
    | some j =>
      have := ih _ _ h'
      simp [lastReadFrom, h'] at h
      omega
    | none =>
      simp [lastReadFrom, h'] at h
      omega

/-- The message after `pre` is the one that `lastReadFrom` finds iff it is Read and none after it is. -/
theorem lastReadFrom_append (pre : List Message) (m : Message) (rest : List Message) :
    ∀ i, (lastReadFrom i (pre ++ m :: rest) == some (i + pre.length)) = isLastRead m rest := by
  induction pre with
  | nil =>
    intro i
    have hn := lastReadFrom_eq_none rest (i + 1)
    have hl := lastReadFrom_le rest (i + 1)
    cases h : lastReadFrom (i + 1) rest with
    | none => cases hm : m.isRead <;> simp_all [lastReadFrom, isLastRead]
    | some k =>
      have hk : i ≠ k := by have := hl k h; omega
      have : rest.any (·.isRead) = true := by
        cases hr : rest.any (·.isRead) with
        | true => rfl
        | false => rw [hn.2 hr] at h; cases h
      simp [lastReadFrom, h, isLastRead, this, Ne.symm hk]
  | cons a pre ih =>
    intro i
    have h1 := ih (i + 1)
    have e : i + (a :: pre).length = i + 1 + pre.length := by simp; omega
    rw [e, ← h1]
    cases h : lastReadFrom (i + 1) (pre ++ m :: rest) with
    | some k => simp [lastReadFrom, h]
    | none =>
      cases ha : a.isRead <;> simp [lastReadFrom, h, ha]
      omega

/-! ## Payload phases -/

variable {n : Nat}

/-- Acknowledged payload bytes (R203). -/
theorem sendPayload_succeeds (ds : List Byte) : ∀ (p : Progress) (k : Nat) (s : State) (rest : List Level),
    legalConfig s.cfg = true → s.bus = .byteInProgress → s.scl = .rel → s.sda = .rel →
    n * s.cfg.pollInterval < s.cfg.timeout → s.env = writeDraws s.cfg n ds ++ rest →
    sendPayload p k ds s = .go { p with count := p.count + ds.length }
      { s with trace := s.trace ++ writeTrace s.cfg n ds, env := rest, draws := s.draws + (writeDraws s.cfg n ds).length } := by
  induction ds with
  | nil =>
    intro p k s rest hl hb hc hd hn henv
    have : s.env = rest := by simpa [writeDraws] using henv
    simp [sendPayload, writeTrace, writeDraws, ← this]
  | cons d ds ih =>
    intro p k s rest hl hb hc hd hn henv
    rw [sendPayload, engWrbyte_succeeds (rest := writeDraws s.cfg n ds ++ rest) d (fun _ => n) false hl
      (by simp [State.held, hb]) (fun _ _ => hn) (by simpa [writeDraws] using henv)]
    simp only [eng_ok, Run.go_andThen, Bool.not_false, Bool.not_true, Bool.false_eq_true, if_false]
    rw [ih _ _ _ rest ?_ ?_ ?_ ?_ ?_ ?_]
    · simp [writeTrace, writeDraws, hb, hc, hd, Nat.add_assoc, Nat.add_comm]
    · exact hl
    · rfl
    · rfl
    · rfl
    · exact hn
    · rfl

/-- The drive of SDA after the payload of a Read message. -/
def sdaAfterRead (before : Drive) (last : Bool) (vs : List Byte) : Drive :=
  if vs.isEmpty then before else if last then .rel else .low

/-- Received payload bytes (R205). -/
theorem receivePayload_succeeds (last : Bool) (vs : List Byte) : ∀ (p : Progress) (s : State) (rest : List Level),
    legalConfig s.cfg = true → s.bus = .byteInProgress → s.scl = .rel →
    n * s.cfg.pollInterval < s.cfg.timeout → s.env = readDraws s.cfg n last vs ++ rest →
    receivePayload last vs.length p s = .go { count := p.count + vs.length, rdata := p.rdata ++ vs }
      { s with sda := sdaAfterRead s.sda last vs, trace := s.trace ++ readTrace s.cfg n last vs, env := rest,
               draws := s.draws + (readDraws s.cfg n last vs).length } := by
  induction vs with
  | nil =>
    intro p s rest hl hb hc hn henv
    have : s.env = rest := by simpa [readDraws] using henv
    simp [receivePayload, readTrace, readDraws, sdaAfterRead, ← this]
  | cons v vs ih =>
    intro p s rest hl hb hc hn henv
    have he : (vs.length == 0) = vs.isEmpty := by cases vs <;> rfl
    rw [List.length_cons, receivePayload, he,
      engRdbyte_succeeds (rest := readDraws s.cfg n last vs ++ rest) v (fun _ => n) (!(last && vs.isEmpty)) hl
      (by simp [State.held, hb]) (fun _ _ => hn) (by simpa [readDraws] using henv)]
    simp only [eng_ok, Run.go_andThen]
    rw [ih _ _ rest ?_ ?_ ?_ ?_ ?_]
    · cases vs <;> cases last <;>
        simp [readTrace, readDraws, hb, hc, Nat.add_assoc, Nat.add_comm, sdaAfterRead, bitDrive]
    · exact hl
    · rfl
    · rfl
    · exact hn
    · rfl

/-- The drive of SDA after an exchange. -/
def sdaAfter (last : Bool) (x : Exchange) : Drive :=
  if x.1.isRead then sdaAfterRead .rel last x.2 else .rel

/-- The payload phase of an exchange. -/
theorem transferPayload_succeeds (last : Bool) (x : Exchange) (hx : x.fits) (p : Progress) (s : State) (rest : List Level)
    (hl : legalConfig s.cfg = true) (hb : s.bus = .byteInProgress) (hc : s.scl = .rel) (hd : s.sda = .rel)
    (hn : n * s.cfg.pollInterval < s.cfg.timeout) (henv : s.env = payloadDraws s.cfg n last x ++ rest) :
    transferPayload last p x.1 s = .go { count := p.count + x.1.len, rdata := p.rdata ++ x.2 }
      { s with sda := sdaAfter last x, trace := s.trace ++ payloadTrace s.cfg n last x, env := rest,
               draws := s.draws + (payloadDraws s.cfg n last x).length } := by
  obtain ⟨m, vs⟩ := x
  cases m with
  | write a ns payload =>
    have hv : vs = [] := by simpa [Exchange.fits, Message.isRead] using hx
    subst hv
    simp only [transferPayload, payloadTrace, payloadDraws] at henv ⊢
    rw [sendPayload_succeeds (n := n) payload p 0 s rest hl hb hc hd hn henv]
    simp [Message.len, sdaAfter, Message.isRead, hd]
  | read a ns len =>
    have hv : vs.length = len.toNat := by simpa [Exchange.fits, Message.isRead, Message.len] using hx
    simp only [transferPayload, payloadTrace, payloadDraws, ← hv] at henv ⊢
    rw [receivePayload_succeeds (n := n) last vs p s rest hl hb hc hn henv]
    simp [Message.len, sdaAfter, Message.isRead, hd, hv]

/-! ## Messages -/

theorem ready_of_held {s : State} (h : s.held = true) : s.ready = true := by simp [State.ready, h]

/-- A held bus without no_start gets STOP first (R201): the bus is free or still held as the message wants it. -/
theorem stopFirst_succeeds (m : Message) (p : Progress) (s : State) (rest : List Level) (hl : legalConfig s.cfg = true)
    (hr : s.ready = true) (hn : n * s.cfg.pollInterval < s.cfg.timeout)
    (henv : s.env = (if s.held && !m.noStart then stopDraws s.cfg n else []) ++ rest) :
    ∃ t, (if s.held && !m.noStart then eng p (engStop s) else .go () s) = .go () t ∧
      t.ready = true ∧ t.held = (s.held && m.noStart) ∧ t.env = rest ∧
      t = { s with bus := t.bus, scl := t.scl, sda := t.sda,
                   trace := s.trace ++ (if s.held && !m.noStart then stopTrace s.cfg n else []), env := rest,
                   draws := s.draws + (if s.held && !m.noStart then stopDraws s.cfg n else []).length } := by
  cases hc : (s.held && !m.noStart)
  · have he : s.env = rest := by simpa [hc] using henv
    refine ⟨s, by simp, hr, ?_, he, by simp [← he]⟩
    cases hh : s.held <;> simp_all
  · obtain ⟨hh, hm⟩ : s.held = true ∧ m.noStart = false := by simpa using hc
    rw [engStop_succeeds (n := n) (rest := rest) hl hh (by simpa [hc] using henv) hn]
    exact ⟨_, rfl, by simp [State.ready], by simp [State.held, hm], rfl, by simp⟩

/-- A message whose address byte is answered at level `v` (low is ack), up to the end of that byte. -/
theorem addressed (m : Message) (v : Level) (p : Progress) (s : State) (rest : List Level) (hl : legalConfig s.cfg = true)
    (hr : s.ready = true) (hn : n * s.cfg.pollInterval < s.cfg.timeout)
    (henv : s.env = (if s.held && !m.noStart then stopDraws s.cfg n else []) ++ startDraws n false ++
      wrbyteDraws s.cfg (fun _ => n) m.addressByte v ++ rest) (last : Bool) :
    ∃ t, runMessage last p m s = (if v then nackExit p 0 t else transferPayload last p m t) ∧
      t = { s with bus := .byteInProgress, scl := .rel, sda := .rel,
                   trace := s.trace ++ ((if s.held && !m.noStart then stopTrace s.cfg n else []) ++
                     startTrace s.cfg (s.held && m.noStart) n ++ wrbyteTrace s.cfg (fun _ => n) m.addressByte v),
                   env := rest,
                   draws := s.draws + ((if s.held && !m.noStart then stopDraws s.cfg n else []) ++ startDraws n false ++
                     wrbyteDraws s.cfg (fun _ => n) m.addressByte v).length } := by
  obtain ⟨t, ht, htr, hth, hte, hteq⟩ := stopFirst_succeeds m p s
    (startDraws n false ++ wrbyteDraws s.cfg (fun _ => n) m.addressByte v ++ rest) hl hr hn (by simpa using henv)
  have hcfg : t.cfg = s.cfg := by rw [hteq]
  rw [runMessage, ht, Run.go_andThen,
    engStart_succeeds (n := n) (rest := wrbyteDraws s.cfg (fun _ => n) m.addressByte v ++ rest) false (hcfg ▸ hl) htr
      (by simpa using hte) (.inr rfl) (by rw [hcfg]; exact hn), eng_ok, Run.go_andThen,
    engWrbyte_succeeds (rest := rest) m.addressByte (fun _ => n) v ?_ ?_ ?_ ?_, eng_ok, Run.go_andThen]
  · refine ⟨_, by rw [Bool.not_not], ?_⟩
    rw [hth, hcfg]
    have e1 : t.trace = _ := congrArg State.trace hteq
    have e2 : t.draws = _ := congrArg State.draws hteq
    have e3 : t.muxCur = _ := congrArg State.muxCur hteq
    have e4 : t.lock = _ := congrArg State.lock hteq
    have e5 : t.port = _ := congrArg State.port hteq
    have e6 : t.response = _ := congrArg State.response hteq
    simp only [e1, e2, e3, e4, e5, e6]
    simp [Nat.add_assoc]
  · exact hcfg ▸ hl
  · rfl
  · exact fun _ _ => by simpa [hcfg] using hn
  · simp [hcfg]

/-- One exchange (R201, R202). -/
theorem runMessage_succeeds (last : Bool) (x : Exchange) (hx : x.fits) (p : Progress) (s : State) (rest : List Level)
    (hl : legalConfig s.cfg = true) (hr : s.ready = true) (hn : n * s.cfg.pollInterval < s.cfg.timeout)
    (henv : s.env = exchangeDraws s.cfg n s.held last x ++ rest) :
    runMessage last p x.1 s = .go { count := p.count + x.1.len, rdata := p.rdata ++ x.2 }
      { s with bus := .byteInProgress, scl := .rel, sda := sdaAfter last x,
               trace := s.trace ++ exchangeTrace s.cfg n s.held last x, env := rest,
               draws := s.draws + (exchangeDraws s.cfg n s.held last x).length } := by
  obtain ⟨t, ht, rfl⟩ := addressed x.1 false p s (payloadDraws s.cfg n last x ++ rest) hl hr hn
    (by simpa [exchangeDraws] using henv) last
  rw [ht]
  simp only [Bool.false_eq_true, if_false]
  rw [transferPayload_succeeds (n := n) last x hx p _ rest ?_ ?_ ?_ ?_ ?_ ?_]
  · simp [exchangeTrace, exchangeDraws, Nat.add_assoc]
  · exact hl
  · rfl
  · rfl
  · rfl
  · exact hn
  · rfl

/-- The drive of SDA after a row of exchanges. -/
def sdaAfterAll (before : Drive) (later : List Message) : List Exchange → Drive
  | [] => before
  | x :: xs => sdaAfterAll (sdaAfter (isLastRead x.1 (xs.map (·.1) ++ later)) x) later xs

/-- Which message the sequencer takes for the last Read one, seen from message number `i` on. -/
def KnowsLastRead (lastRead : Option Nat) (i : Nat) (ms : List Message) : Prop :=
  ∀ pre m rest, ms = pre ++ m :: rest → (lastRead == some (i + pre.length)) = isLastRead m rest

theorem knowsLastRead (ms : List Message) : KnowsLastRead (lastReadFrom 0 ms) 0 ms := by
  rintro pre m rest rfl
  exact lastReadFrom_append pre m rest 0

theorem KnowsLastRead.tail {lastRead : Option Nat} {i : Nat} {m : Message} {ms : List Message}
    (h : KnowsLastRead lastRead i (m :: ms)) : KnowsLastRead lastRead (i + 1) ms := by
  rintro pre m' rest rfl
  have := h (m :: pre) m' rest rfl
  rw [List.length_cons, show i + (pre.length + 1) = i + 1 + pre.length by omega] at this
  exact this

/-- A row of exchanges, then the messages that follow (R200). -/
theorem runMessages_succeeds (lastRead : Option Nat) (later : List Message) (xs : List Exchange) :
    ∀ (i : Nat) (p : Progress) (s : State) (rest : List Level),
    KnowsLastRead lastRead i (xs.map (·.1) ++ later) → (∀ x ∈ xs, x.fits) → legalConfig s.cfg = true → s.ready = true →
    n * s.cfg.pollInterval < s.cfg.timeout → s.env = exchangesDraws s.cfg n later s.held xs ++ rest →
    runMessages lastRead i p (xs.map (·.1) ++ later) s =
      runMessages lastRead (i + xs.length)
        { count := p.count + payloadTotal (xs.map (·.1)), rdata := p.rdata ++ bytesReturned xs } later
        { s with bus := if xs.isEmpty then s.bus else .byteInProgress, scl := if xs.isEmpty then s.scl else .rel,
                 sda := sdaAfterAll s.sda later xs,
                 trace := s.trace ++ exchangesTrace s.cfg n later s.held xs, env := rest,
                 draws := s.draws + (exchangesDraws s.cfg n later s.held xs).length } := by
  induction xs with
  | nil =>
    intro i p s rest hk hf hl hr hn henv
    have : s.env = rest := by simpa [exchangesDraws] using henv
    simp [payloadTotal, bytesReturned, exchangesTrace, exchangesDraws, sdaAfterAll, ← this]
  | cons x xs ih =>
    intro i p s rest hk hf hl hr hn henv
    rw [List.map_cons, List.cons_append, runMessages]
    have hlast := hk [] x.1 (xs.map (·.1) ++ later) rfl
    rw [List.length_nil, Nat.add_zero] at hlast
    rw [hlast, runMessage_succeeds (n := n) (rest := exchangesDraws s.cfg n later true xs ++ rest) _ x (hf x (by simp)) p s
      (hl := hl) (hr := hr) (hn := hn) (henv := by simpa [exchangesDraws] using henv), Run.go_andThen]
    rw [ih _ _ _ rest ?_ ?_ ?_ ?_ ?_ ?_]
    · have hb : (if xs.isEmpty = true then BusState.byteInProgress else .byteInProgress) = .byteInProgress := by simp
      have hs : (if xs.isEmpty = true then Drive.rel else .rel) = .rel := by simp
      have e : ({ s with bus := .byteInProgress } : State).held = true := rfl
      simp only [hb, hs, List.isEmpty_cons, Bool.false_eq_true, if_false]
      simp [payloadTotal, bytesReturned, exchangesTrace, exchangesDraws, sdaAfterAll, Nat.add_assoc, State.held,
        Nat.add_comm, Nat.add_left_comm]
    · exact hk.tail
    · exact fun y hy => hf y (by simp [hy])
    · exact hl
    · rfl
    · exact hn
    · rfl

/-- After the exchanges of a whole transfer SDA is released: the last byte of the last Read message is nacked. -/
theorem sdaAfterAll_rel (xs : List Exchange) : ∀ d, d = .rel ∨ xs ≠ [] → sdaAfterAll d [] xs = .rel := by
  induction xs with
  | nil => intro d h; simpa [sdaAfterAll] using h
  | cons x xs ih =>
    intro d _
    rw [sdaAfterAll]
    refine ih _ ?_
    cases xs with
    | cons y ys => exact .inr (by simp)
    | nil =>
      left
      by_cases hr : x.1.isRead = true <;> simp [sdaAfter, sdaAfterRead, isLastRead, hr]

/-- A transfer of at least one message on a co-operating bus (R200, R209): Ok, every payload byte counted, every byte
returned. -/
theorem transfer_succeeds (chain : Bool) (xs : List Exchange) (s : State) (rest : List Level) (hx : xs ≠ [])
    (hf : ∀ x ∈ xs, x.fits) (hl : legalConfig s.cfg = true) (hr : s.ready = true)
    (hn : n * s.cfg.pollInterval < s.cfg.timeout) (henv : s.env = transferDraws s.cfg n s.held chain xs ++ rest) :
    transfer chain (xs.map (·.1)) s =
      ({ outcome := .ok, count := payloadTotal (xs.map (·.1)), rdata := bytesReturned xs },
       { s with bus := if chain then .byteInProgress else .idle, scl := .rel, sda := .rel,
                trace := s.trace ++ transferTrace s.cfg n s.held chain xs, env := rest,
                draws := s.draws + (transferDraws s.cfg n s.held chain xs).length }) := by
  have he : xs.isEmpty = false := by simpa using hx
  have hm := runMessages_succeeds (n := n) (lastReadFrom 0 (xs.map (·.1))) [] xs 0 ⟨0, []⟩ s
    ((if !chain then stopDraws s.cfg n else []) ++ rest)
    (by simpa using knowsLastRead (xs.map (·.1))) hf hl hr hn (by simpa [transferDraws, he] using henv)
  rw [List.append_nil, runMessages, he, sdaAfterAll_rel xs s.sda (.inr hx)] at hm
  rw [transfer, runTransfer, hm]
  simp only [hr, Bool.not_true, Bool.false_eq_true, if_false, Run.go_andThen]
  cases chain
  · rw [if_pos (by rfl), engStop_succeeds (n := n) (rest := rest) ?_ ?_ ?_ ?_]
    · simp [transferTrace, transferDraws, he, Progress.ending, Nat.add_assoc]
    · exact hl
    · rfl
    · rfl
    · exact hn
  · simp [transferTrace, transferDraws, he, Progress.ending]

end Sys2Proof.Machine
end

