-- ==== Sys2Proof/Laws/Failures.lean ====
section
/-! SUPPORT. The failing runs of engine commands (Safety.lean): their fields, which runs the lists hold, that each command fails
in each of them, and what such a failure makes of a transfer (R64, R66, R141, R142, R160, R161, R180, R181, R204). -/

namespace Sys2Proof.Machine

@[simp] theorem FailedRun.after_draws (draws : List Level) (trace : List Event) (f : FailedRun) :
    (f.after draws trace).draws = draws ++ f.draws := rfl
@[simp] theorem FailedRun.after_trace (draws : List Level) (trace : List Event) (f : FailedRun) :
    (f.after draws trace).trace = trace ++ f.trace := rfl
@[simp] theorem FailedRun.after_bus (draws : List Level) (trace : List Event) (f : FailedRun) :
    (f.after draws trace).bus = f.bus := rfl
@[simp] theorem FailedRun.after_sda (draws : List Level) (trace : List Event) (f : FailedRun) :
    (f.after draws trace).sda = f.sda := rfl

theorem mem_startFailures {c : Config} {n : Nat} {repeated : Bool} {f : FailedRun} : f ∈ startFailures c n repeated ↔
    f = ⟨List.replicate (pollLimit c) false, startHead c repeated ++ lowTrace c (pollLimit c), .timedOut, .rel⟩ ∨
    f = ⟨stretchDraws n ++ [false], startHead c repeated ++ stretchTrace c n ++ [.get .sda false],
      .arbitrationLost, .rel⟩ ∨
    c.openDrainReadback = false ∧
      f = ⟨stretchDraws n ++ [true, true], startHead c repeated ++ stretchTrace c n ++
        [.get .sda true, .set .sda .low, .wait c.riseFallDelay, .get .sda true], .arbitrationLost, .low⟩ := by
  by_cases h : c.openDrainReadback = true <;> simp [startFailures, h]

theorem mem_stopFailures {c : Config} {n : Nat} {f : FailedRun} : f ∈ stopFailures c n ↔
    f = clockTimeout c .low ∨ c.arbCheckData = true ∧
      f = ⟨stretchDraws n ++ [false], riseTrace c .low ++ stretchTrace c n ++
        [.wait c.holdDelay, .set .sda .rel, .wait c.riseFallDelay, .get .sda false], .arbitrationLost, .rel⟩ := by
  by_cases h : c.arbCheckData = true <;> simp [stopFailures, h]

theorem mem_wrbitFailures {c : Config} {n : Nat} {b : Level} {f : FailedRun} : f ∈ wrbitFailures c n b ↔
    f = clockTimeout c (bitDrive b) ∨ (b = true ∧ c.arbCheckData = true) ∧
      f = ⟨stretchDraws n ++ [false], riseTrace c .rel ++ stretchTrace c n ++ [.get .sda false], .arbitrationLost, .rel⟩ := by
  cases b <;> by_cases h : c.arbCheckData = true <;> simp [wrbitFailures, h]

/-- A byte that fails to be sent fails in bit `j`, the bits before it sent, or in its ninth clock. -/
theorem mem_wrbyteFailures {c : Config} {n : Nat} {d : Byte} {f : FailedRun} : f ∈ wrbyteFailures c n d ↔
    (∃ j < 8, ∃ g ∈ wrbitFailures c n (d.getLsbD (7 - j)),
      f = g.after (sendDraws c ((stretchedBits (fun _ => n) d).take j)) (sendTrace c ((stretchedBits (fun _ => n) d).take j))) ∨
    f = (clockTimeout c .rel).after (sendDraws c (stretchedBits (fun _ => n) d)) (sendTrace c (stretchedBits (fun _ => n) d)) := by
  simp only [wrbyteFailures, rdbitFailures, List.mem_append, List.mem_flatMap, List.mem_range, List.mem_map,
    List.mem_singleton, exists_eq_left, eq_comm (a := f)]

/-- A byte that fails to be received fails in bit `j`, the bits before it received, or in its ninth clock. -/
theorem mem_rdbyteFailures {c : Config} {n : Nat} {v : Byte} {sendAck : Bool} {f : FailedRun} :
    f ∈ rdbyteFailures c n v sendAck ↔
    (∃ j < 8, f = (clockTimeout c .rel).after (receiveDraws ((stretchedBits (fun _ => n) v).take j))
      (receiveTrace c ((stretchedBits (fun _ => n) v).take j))) ∨
    ∃ g ∈ wrbitFailures c n (!sendAck),
      f = g.after (receiveDraws (stretchedBits (fun _ => n) v)) (receiveTrace c (stretchedBits (fun _ => n) v)) := by
  simp only [rdbyteFailures, rdbitFailures, List.mem_append, List.mem_flatMap, List.mem_range, List.mem_map,
    List.mem_singleton, exists_eq_left, eq_comm (a := f)]

/-! ## Each command fails in each of its failing runs -/

/-- The outcome of a failing run. -/
def FailedRun.failure (f : FailedRun) : Failure := if f.bus = .timedOut then .timeout else .arbitrationLost

/-- The state after a failing run. -/
def State.failedBy (f : FailedRun) (rest : List Level) (s : State) : State :=
  { s with bus := f.bus, scl := .rel, sda := f.sda, trace := s.trace ++ f.trace, env := rest,
           draws := s.draws + f.draws.length }

@[simp] theorem FailedRun.after_failure (draws : List Level) (trace : List Event) (f : FailedRun) :
    (f.after draws trace).failure = f.failure := rfl

/-- `POLL_LIMIT` counts the polls within the budget (R66). -/
theorem lt_pollLimit {c : Config} (h : 1 ≤ c.pollInterval) (k : Nat) :
    k < pollLimit c ↔ k * c.pollInterval < c.timeout := by
  rw [pollLimit, ← Nat.succ_le_iff, Nat.le_div_iff_mul_le h, Nat.succ_mul]
  omega

variable {s : State} {n : Nat} {rest : List Level} {f : FailedRun}

/-- `WaitSclHigh` with `POLL_LIMIT` low polls fails with Timeout (R64, R66). -/
theorem waitSclHigh_timeout (s : State) (rest : List Level) (hl : legalConfig s.cfg = true) (hscl : s.scl = .rel)
    (henv : s.env = List.replicate (pollLimit s.cfg) false ++ rest) :
    waitSclHigh s = .fail .timeout
      { s with bus := .timedOut, trace := s.trace ++ lowTrace s.cfg (pollLimit s.cfg), env := rest,
               draws := s.draws + pollLimit s.cfg } := by
  have hp := ((legalConfig_iff _).1 hl).2.1
  have key := lt_pollLimit hp
  refine waitLoop_timeout _ _ 0 s rest hscl henv (fun j hj => by simpa using (key j).1 hj) ?_ ?_
  · have := mt (key (pollLimit s.cfg)).2 (Nat.lt_irrefl _)
    simpa using this
  · by_contra h
    have := (key s.cfg.timeout).1 (by omega)
    have := Nat.le_mul_of_pos_right s.cfg.timeout hp
    omega

theorem engStop_fails (hl : legalConfig s.cfg = true) (hh : s.held = true) (hn : n * s.cfg.pollInterval < s.cfg.timeout)
    (hf : f ∈ stopFailures s.cfg n) (henv : s.env = f.draws ++ rest) :
    engStop s = .fail f.failure (s.failedBy f rest) := by
  unfold engStop
  rcases mem_stopFailures.1 hf with rfl | ⟨ha, rfl⟩
  · rw [waitSclHigh_timeout (s.raiseClock .low) rest (by simpa using hl) (by simp) (by simpa [clockTimeout] using henv)]
    simp [hh, clockTimeout, FailedRun.failure, State.failedBy]
  · rw [waitSclHigh_stretch n (s.raiseClock .low) (false :: rest) (by simpa using hl) (by simp) (by simpa using henv)
      (by simpa using hn)]
    simp only [hh, Bool.not_true, Bool.false_eq_true, if_false, Res.ok_andThen, State.raiseClock_cfg, State.delayRf_cfg,
      State.setLineSda_cfg, State.delayHold_cfg, ha, if_true]
    rw [State.sense_sda_script (e := false) (rest := rest) (by rfl) (by rfl),
      State.sampled_eq (v := false) (e := false) (rest := rest) (State.sense_sda_script (by rfl) (by rfl)) (by rfl)]
    simp [failWith, State.afterFailure, State.setBus, FailedRun.failure, State.failedBy, State.note, State.setLine,
      State.setDrv, State.delayRf, State.delayHold, State.delay, stretchDraws, Nat.add_assoc]

theorem engWrbit_fails (b : Level) (hl : legalConfig s.cfg = true) (hh : s.held = true)
    (hn : n * s.cfg.pollInterval < s.cfg.timeout) (hf : f ∈ wrbitFailures s.cfg n b) (henv : s.env = f.draws ++ rest) :
    engWrbit b s = .fail f.failure (s.failedBy f rest) := by
  unfold engWrbit
  rcases mem_wrbitFailures.1 hf with rfl | ⟨⟨rfl, ha⟩, rfl⟩
  · rw [waitSclHigh_timeout (s.raiseClock (bitDrive b)) rest (by simpa using hl) (by simp)
      (by simpa [clockTimeout] using henv)]
    simp [hh, clockTimeout, FailedRun.failure, State.failedBy]
  · rw [waitSclHigh_stretch n (s.raiseClock (bitDrive true)) (false :: rest) (by simpa using hl) (by simp)
      (by simpa using henv) (by simpa using hn)]
    simp only [hh, Bool.not_true, Bool.false_eq_true, if_false, Res.ok_andThen, State.raiseClock_cfg, ha, Bool.and_self,
      if_true]
    rw [State.sense_sda_script (e := false) (rest := rest) (by rfl) (by rfl),
      State.sampled_eq (v := false) (e := false) (rest := rest) (State.sense_sda_script (by rfl) (by rfl)) (by rfl)]
    simp [failWith, State.afterFailure, State.setBus, FailedRun.failure, State.failedBy, stretchDraws, bitDrive, Nat.add_assoc]

theorem engRdbit_fails (hl : legalConfig s.cfg = true) (hh : s.held = true)
    (henv : s.env = (clockTimeout s.cfg .rel).draws ++ rest) :
    engRdbit s = .fail .timeout (s.failedBy (clockTimeout s.cfg .rel) rest) := by
  unfold engRdbit
  rw [waitSclHigh_timeout (s.raiseClock .rel) rest (by simpa using hl) (by simp) (by simpa [clockTimeout] using henv)]
  simp [hh, clockTimeout, State.failedBy]

theorem engStart_fails (hl : legalConfig s.cfg = true) (hr : s.ready = true)
    (hn : n * s.cfg.pollInterval < s.cfg.timeout) (hf : f ∈ startFailures s.cfg n s.held) (henv : s.env = f.draws ++ rest) :
    engStart s = .fail f.failure (s.failedBy f rest) := by
  unfold engStart
  rcases mem_startFailures.1 hf with rfl | rfl | ⟨hb, rfl⟩
  · rw [waitSclHigh_timeout s.raiseBoth rest (by simpa using hl) (by simp) (by simpa using henv)]
    rcases ready_cases s hr with ⟨hi, hh⟩ | ⟨hi, hh⟩ <;>
    simp [hr, hi, hh, FailedRun.failure, State.failedBy, startHead, State.raiseBothTrace]
  · rw [waitSclHigh_stretch n s.raiseBoth (false :: rest) (by simpa using hl) (by simp) (by simpa using henv)
      (by simpa using hn)]
    simp only [hr, Bool.not_true, Bool.false_eq_true, if_false, Res.ok_andThen]
    rw [State.sense_sda_script (e := false) (rest := rest) (by simp) (by rfl),
      State.sampled_eq (v := false) (e := false) (rest := rest) (State.sense_sda_script (by simp) (by rfl)) (by rfl)]
    rcases ready_cases s hr with ⟨hi, hh⟩ | ⟨hi, hh⟩ <;>
    simp [hi, hh, failWith, State.afterFailure, State.setBus, FailedRun.failure, State.failedBy, startHead,
      State.raiseBothTrace, stretchDraws, Nat.add_assoc]
  · rw [waitSclHigh_stretch n s.raiseBoth (true :: true :: rest) (by simpa using hl) (by simp) (by simpa using henv)
      (by simpa using hn)]
    simp only [hr, Bool.not_true, Bool.false_eq_true, if_false, Res.ok_andThen]
    rw [State.sense_sda_script (e := true) (rest := true :: rest) (by simp) (by rfl),
      State.sampled_eq (v := true) (e := true) (rest := true :: rest) (State.sense_sda_script (by simp) (by rfl)) (by rfl)]
    have high {t : State} (hc : t.cfg = s.cfg) (he : t.env = true :: rest) : t.sense .sda = true := by
      simp [State.sense, hc, hb, t.draw_script _ _ he]
    rw [high (by simp) (by rfl),
      State.sampled_eq (v := true) (e := true) (rest := rest) (high (by simp) (by rfl)) (by rfl)]
    rcases ready_cases s hr with ⟨hi, hh⟩ | ⟨hi, hh⟩ <;>
    simp [hi, hh, failWith, State.afterFailure, State.setBus, FailedRun.failure, State.failedBy, startHead, State.note,
      State.setLine, State.setDrv, State.delayRf, State.delay, State.raiseBothTrace, stretchDraws, Nat.add_assoc]

/-- A row of sent bits fails in bit `j`. -/
theorem sendBits_fails (bits : List (Nat × Level)) : ∀ (j : Nat) (s : State) (f : FailedRun) (hj : j < bits.length),
    legalConfig s.cfg = true → s.held = true → Stretches s.cfg bits → n * s.cfg.pollInterval < s.cfg.timeout →
    f ∈ wrbitFailures s.cfg n bits[j].2 → s.env = sendDraws s.cfg (bits.take j) ++ f.draws ++ rest →
    sendBits (bits.map (·.2)) s =
      .fail f.failure (s.failedBy (f.after (sendDraws s.cfg (bits.take j)) (sendTrace s.cfg (bits.take j))) rest) := by
  induction bits with
  | nil => intro j s f hj; simp at hj
  | cons p bits ih =>
    intro j s f hj hl hh hw hn hf henv
    rw [List.map_cons, sendBits]
    cases j with
    | zero =>
      rw [engWrbit_fails p.2 hl hh hn hf (by simpa [sendDraws] using henv)]
      simp [sendDraws, sendTrace, FailedRun.after]
    | succ j =>
      rw [engWrbit_succeeds (n := p.1) (rest := sendDraws s.cfg (bits.take j) ++ f.draws ++ rest) p.2 hl hh
        (by simpa [sendDraws] using henv) (hw p (by simp)), Res.ok_andThen]
      rw [ih j _ f (by simpa using hj) ?_ ?_ ?_ ?_ ?_ ?_]
      · simp [State.failedBy, sendDraws, sendTrace, Nat.add_assoc]
      · exact hl
      · rfl
      · exact fun q hq => hw q (List.mem_cons_of_mem _ hq)
      · exact hn
      · exact hf
      · rfl

/-- A row of received bits times out in bit `j`. -/
theorem receiveBits_fails (bits : List (Nat × Level)) : ∀ (j : Nat) (v : Byte) (s : State), j < bits.length →
    legalConfig s.cfg = true → s.held = true → Stretches s.cfg bits →
    s.env = receiveDraws (bits.take j) ++ (clockTimeout s.cfg .rel).draws ++ rest →
    receiveBits bits.length v s = .fail .timeout
      (s.failedBy ((clockTimeout s.cfg .rel).after (receiveDraws (bits.take j)) (receiveTrace s.cfg (bits.take j))) rest) := by
  induction bits with
  | nil => intro j v s hj; simp at hj
  | cons p bits ih =>
    intro j v s hj hl hh hw henv
    rw [List.length_cons, receiveBits]
    cases j with
    | zero =>
      rw [engRdbit_fails (rest := rest) hl hh (by simpa [receiveDraws] using henv)]
      simp [receiveDraws, receiveTrace, FailedRun.after]
    | succ j =>
      rw [engRdbit_succeeds (n := p.1) (rest := receiveDraws (bits.take j) ++ (clockTimeout s.cfg .rel).draws ++ rest) p.2 hl hh
        (by simpa [receiveDraws] using henv) (hw p (by simp)), Res.ok_andThen]
      rw [ih j _ _ (by simpa using hj) ?_ ?_ ?_ ?_]
      · simp [State.failedBy, receiveDraws, receiveTrace, Nat.add_assoc]
      · exact hl
      · rfl
      · exact fun q hq => hw q (List.mem_cons_of_mem _ hq)
      · rfl

theorem stretchedBits_get (w : Nat → Nat) (d : Byte) (j : Nat) (hj : j < 8) :
    ((stretchedBits w d)[j]'hj).2 = d.getLsbD (7 - j) := by
  interval_cases j <;> rfl

theorem engWrbyte_fails (d : Byte) (hl : legalConfig s.cfg = true) (hh : s.held = true)
    (hn : n * s.cfg.pollInterval < s.cfg.timeout) (hf : f ∈ wrbyteFailures s.cfg n d) (henv : s.env = f.draws ++ rest) :
    engWrbyte d s = .fail f.failure (s.failedBy f rest) := by
  have hw : Stretches s.cfg (stretchedBits (fun _ => n) d) := stretchedBits_stretches (fun _ _ => hn) d
  unfold engWrbyte
  rw [if_neg (by simp [hh])]
  rcases mem_wrbyteFailures.1 hf with ⟨j, hj, g, hg, rfl⟩ | rfl
  · have h := sendBits_fails (n := n) (rest := rest) (stretchedBits (fun _ => n) d) j s g hj hl hh hw hn
      (by rw [stretchedBits_get _ _ _ hj]; exact hg) (by simpa using henv)
    rw [show (stretchedBits (fun _ => n) d).map (·.2) = bitsMsbFirst d from rfl] at h
    rw [h]
    rfl
  · rw [sendByte_succeeds (rest := (clockTimeout s.cfg .rel).draws ++ rest) d (fun _ => n) hl hh (fun _ _ => hn)
      (by rw [henv, FailedRun.after_draws, List.append_assoc]), Res.ok_andThen, engRdbit_fails (rest := rest) ?_ ?_ ?_]
    · simp [State.failedBy, FailedRun.after, FailedRun.failure, clockTimeout, Nat.add_assoc]
    · exact hl
    · rfl
    · rfl

theorem engRdbyte_fails (v : Byte) (sendAck : Bool) (hl : legalConfig s.cfg = true) (hh : s.held = true)
    (hn : n * s.cfg.pollInterval < s.cfg.timeout) (hf : f ∈ rdbyteFailures s.cfg n v sendAck)
    (henv : s.env = f.draws ++ rest) : engRdbyte sendAck s = .fail f.failure (s.failedBy f rest) := by
  have hw : Stretches s.cfg (stretchedBits (fun _ => n) v) := stretchedBits_stretches (fun _ _ => hn) v
  unfold engRdbyte
  rw [if_neg (by simp [hh])]
  rcases mem_rdbyteFailures.1 hf with ⟨j, hj, rfl⟩ | ⟨g, hg, rfl⟩
  · have h := receiveBits_fails (rest := rest) (stretchedBits (fun _ => n) v) j 0#8 s hj hl hh hw (by simpa using henv)
    have h' : receiveBits 8 0#8 s = _ := h
    rw [h']
    rfl
  · rw [receiveByte_succeeds (rest := g.draws ++ rest) v (fun _ => n) hl hh (fun _ _ => hn)
      (by rw [henv, FailedRun.after_draws, List.append_assoc]), Res.ok_andThen,
      engWrbit_fails (n := n) (f := g) (rest := rest) (!sendAck) ?_ ?_ ?_ ?_ ?_]
    · simp [State.failedBy, Nat.add_assoc]
    · exact hl
    · rfl
    · exact hn
    · exact hg
    · rfl

/-- An engine command that fails ends the transfer, after RESET where `DRIVER_AUTO_RESET` is set (R204). -/
theorem eng_failed {α : Type} (p : Progress) (f : FailedRun) (t : State) :
    eng p (.fail f.failure t : Res α) =
      .ended (p.ending f.failure.outcome) (if t.cfg.driverAutoReset then engReset t else t) := by
  unfold FailedRun.failure
  split <;> rfl

end Sys2Proof.Machine
end

