-- ==== Sys2Proof/Laws/Notation.lean ====
section
/-! SUPPORT. What the reader of lines (30_encoding.md R113 to R115) makes of written lines: the tokens of a line, the numbers
that numerals stand for, payloads, messages and message lists. -/

namespace Sys2Proof.Assembler

/-! ## Characters -/

theorem ofNat_toNat_of_lt {n : Nat} (h : n < 128) : (Char.ofNat n).toNat = n := by
  have : ∀ m : Fin 128, (Char.ofNat m.val).toNat = m.val := by decide
  exact this ⟨n, h⟩

/-- The capital of a small letter lies 32 below it; no other character has another capital. -/
theorem capital_cases (c : Char) :
    (97 ≤ c.toNat ∧ c.toNat ≤ 122 ∧ (capital c).toNat = c.toNat - 32) ∨
    (¬ (97 ≤ c.toNat ∧ c.toNat ≤ 122) ∧ capital c = c) := by
  unfold capital
  split
  · next h => exact .inl ⟨h.1, h.2, ofNat_toNat_of_lt (by omega)⟩
  · next h => exact .inr ⟨h, rfl⟩

@[simp] theorem capital_capital (c : Char) : capital (capital c) = capital c := by
  rcases capital_cases c with ⟨h1, h2, h3⟩ | ⟨-, h⟩
  · rcases capital_cases (capital c) with ⟨h4, -, -⟩ | ⟨-, h⟩
    · omega
    · exact h
  · rw [h]; exact h

@[simp] theorem isWordChar_capital (c : Char) : isWordChar (capital c) = isWordChar c := by
  rcases capital_cases c with ⟨h1, h2, h3⟩ | ⟨-, h⟩
  · rw [Bool.eq_iff_iff]; simp [isWordChar, h3]; omega
  · rw [h]

@[simp] theorem isSpace_capital (c : Char) : isSpace (capital c) = isSpace c := by
  rcases capital_cases c with ⟨h1, h2, h3⟩ | ⟨-, h⟩
  · rw [Bool.eq_iff_iff]; simp [isSpace, h3]; omega
  · rw [h]

/-- The punctuation of R113 has no letters in it. -/
theorem punctuation_eq_none_of_isWordChar {c : Char} (h : isWordChar c = true) : punctuation c = none := by
  simp only [isWordChar, Bool.or_eq_true, Bool.and_eq_true, decide_eq_true_eq, beq_iff_eq] at h
  unfold punctuation
  split <;> first | rfl | omega

/-- Letter case plays no part in the tokens of a line. -/
theorem tokens_map_capital (line : List Char) (collected : List Char) :
    tokens collected (line.map capital) = tokens collected line := by
  induction line generalizing collected with
  | nil => rfl
  | cons c cs ih =>
    simp only [List.map_cons, tokens, isWordChar_capital, isSpace_capital, capital_capital, ih]
    by_cases h : isWordChar c = true
    · simp [h]
    · rcases capital_cases c with ⟨h1, h2, -⟩ | ⟨-, h'⟩
      · exact absurd (by simp [isWordChar]; omega) h
      · rw [h']

/-! ## The tokens of a line -/

/-- The token of a text. -/
def tokenOf : List Char → Token
  | [c] => (punctuation c).getD (.word [capital c])
  | w => .word (w.map capital)

/-- A text is a word, or one character of punctuation. -/
def IsWord (w : List Char) : Prop := w ≠ [] ∧ ∀ c ∈ w, isWordChar c = true
def IsText (w : List Char) : Prop := IsWord w ∨ ∃ c, w = [c] ∧ (punctuation c).isSome = true

theorem tokenOf_word {w : List Char} (h : IsWord w) : tokenOf w = .word (w.map capital) := by
  unfold tokenOf
  split
  · next c => simp [punctuation_eq_none_of_isWordChar (h.2 c (by simp))]
  · rfl

theorem tokens_append_word (w rest collected : List Char) (h : ∀ c ∈ w, isWordChar c = true) :
    tokens collected (w ++ rest) = tokens ((w.map capital).reverse ++ collected) rest := by
  induction w generalizing collected with
  | nil => rfl
  | cons c cs ih =>
    have := h c (by simp)
    simp [tokens, this, ih _ fun d hd => h d (by simp [hd])]

theorem tokens_space (collected rest : List Char) :
    tokens collected (' ' :: rest) = (tokens [] rest).map (flush collected) := by
  rw [tokens]; rfl

/-- One text and the space after it. -/
theorem tokens_text {w : List Char} (h : IsText w) (rest : List Char) :
    tokens [] (w ++ ' ' :: rest) = (tokens [] rest).map (tokenOf w :: ·) := by
  rcases h with h | ⟨c, rfl, h⟩
  · rw [tokens_append_word w _ _ h.2, tokens_space, tokenOf_word h]
    congr 1
    funext ts
    simp [flush, h.1]
  · obtain ⟨t, ht⟩ := Option.isSome_iff_exists.mp h
    have hw : isWordChar c = false := by
      by_contra hc
      simp [punctuation_eq_none_of_isWordChar (by simpa using hc)] at ht
    rw [List.singleton_append, tokens, if_neg (by simp [hw])]
    simp only [ht, tokens_space, tokenOf, Option.getD_some]
    cases tokens [] rest <;> simp [flush]

/-- The tokens of a written line are those of its texts. -/
theorem tokens_written (texts : List (List Char)) (h : ∀ w ∈ texts, IsText w) :
    tokens [] (written texts) = some (texts.map tokenOf) := by
  induction texts with
  | nil => rfl
  | cons w ws ih =>
    have : written (w :: ws) = w ++ ' ' :: written ws := by simp [written]
    rw [this, tokens_text (h w (by simp)), ih fun v hv => h v (by simp [hv])]
    rfl

/-! ## Numbers -/

theorem digitChar_facts {d : Nat} (h : d < 16) :
    isWordChar (Nat.digitChar d) = true ∧ digitValue (capital (Nat.digitChar d)) = some d ∧
      capital (Nat.digitChar d) ≠ 'X' := by
  have : ∀ e : Fin 16, isWordChar (Nat.digitChar e.val) = true ∧
      digitValue (capital (Nat.digitChar e.val)) = some e.val ∧ capital (Nat.digitChar e.val) ≠ 'X' := by decide
  exact this ⟨d, h⟩

theorem digits_append (base : Nat) (xs ys : List Char) (v : Nat) :
    digits base v (xs ++ ys) = (digits base v xs).bind fun u => digits base u ys := by
  induction xs generalizing v with
  | nil => rfl
  | cons x xs ih =>
    simp only [List.cons_append, digits]
    cases digitValue x with
    | none => rfl
    | some d => simp only; split <;> simp [ih]

theorem numeralDigits_ne_nil (base fuel n : Nat) : numeralDigits base (fuel + 1) n ≠ [] := by
  simp [numeralDigits]

/-- Every character of a numeral is a digit. -/
theorem numeralDigits_mem {base : Nat} (hb : 0 < base) (hb' : base ≤ 16) (fuel n : Nat) :
    ∀ c ∈ numeralDigits base fuel n, ∃ d < 16, c = Nat.digitChar d := by
  induction fuel generalizing n with
  | zero => simp [numeralDigits]
  | succ fuel ih =>
    intro c hc
    simp only [numeralDigits, List.mem_append, List.mem_singleton] at hc
    rcases hc with hc | rfl
    · split at hc
      · simp at hc
      · exact ih _ c hc
    · exact ⟨n % base, by have := Nat.mod_lt n hb; omega, rfl⟩

/-- A numeral stands for its number. -/
theorem digits_numeralDigits {base : Nat} (hb : 1 < base) (hb' : base ≤ 16) (fuel n : Nat) (h : n < fuel) :
    digits base 0 ((numeralDigits base fuel n).map capital) = some n := by
  induction fuel generalizing n with
  | zero => omega
  | succ fuel ih =>
    have hmod : n % base < base := Nat.mod_lt n (by omega)
    have last (u : Nat) : digits base u [capital (Nat.digitChar (n % base))] = some (base * u + n % base) := by
      simp [digits, (digitChar_facts (show n % base < 16 by omega)).2.1, hmod]
    simp only [numeralDigits, List.map_append, List.map_cons, List.map_nil, digits_append]
    split
    · next hlt => rw [List.map_nil, digits, Option.bind_some, last, Nat.mod_eq_of_lt hlt, Nat.mul_zero, Nat.zero_add]
    · next hge =>
      have hdiv : n / base < fuel := by
        have := Nat.div_lt_self (show 0 < n by omega) hb
        omega
      rw [ih _ hdiv, Option.bind_some, last, Nat.div_add_mod]

theorem number_decimal {cs : List Char} (h : cs ≠ []) (h' : ∀ c ∈ cs, c ≠ 'X') : number cs = digits 10 0 cs := by
  unfold number
  split
  · exact absurd rfl h
  · exact absurd rfl (h' 'X' (by simp))
  · exact absurd rfl (h' 'X' (by simp))
  · rfl

theorem number_hexadecimal {cs : List Char} (h : cs ≠ []) : number ('0' :: 'X' :: cs) = digits 16 0 cs := by
  cases cs with
  | nil => exact absurd rfl h
  | cons c cs => rfl

theorem isWord_numeral (hex : Bool) (n : Nat) : IsWord (numeral hex n) := by
  have all (base : Nat) (hb : 0 < base) (hb' : base ≤ 16) :
      ∀ c ∈ numeralDigits base (n + 1) n, isWordChar c = true := by
    intro c hc
    obtain ⟨d, hd, rfl⟩ := numeralDigits_mem hb hb' _ _ c hc
    exact (digitChar_facts hd).1
  cases hex with
  | false => exact ⟨numeralDigits_ne_nil 10 n n, all 10 (by omega) (by omega)⟩
  | true =>
    refine ⟨by simp [numeral], ?_⟩
    simp only [numeral, if_true, List.mem_cons]
    rintro c (rfl | rfl | hc)
    · rfl
    · rfl
    · exact all 16 (by omega) (by omega) c hc

/-- Decimal and hexadecimal numerals stand for their numbers (R113). -/
theorem number_numeral (hex : Bool) (n : Nat) : number ((numeral hex n).map capital) = some n := by
  cases hex with
  | false =>
    rw [show numeral false n = numeralDigits 10 (n + 1) n from rfl, number_decimal]
    · exact digits_numeralDigits (by omega) (by omega) _ _ (by omega)
    · simpa using numeralDigits_ne_nil 10 n n
    · intro c hc
      obtain ⟨d, hd, rfl⟩ := List.mem_map.mp hc
      obtain ⟨e, he, rfl⟩ := numeralDigits_mem (by omega) (by omega) _ _ d hd
      exact (digitChar_facts he).2.2
  | true =>
    rw [show (numeral true n).map capital = '0' :: 'X' :: (numeralDigits 16 (n + 1) n).map capital from rfl,
      number_hexadecimal (by simpa using numeralDigits_ne_nil 16 n n)]
    exact digits_numeralDigits (by omega) (by omega) _ _ (by omega)

/-- The token of a number. -/
theorem tokenOf_numeral (hex : Bool) (n : Nat) : tokenOf (numeral hex n) = .word ((numeral hex n).map capital) :=
  tokenOf_word (isWord_numeral hex n)

/-- A number fills a field exactly if it fits. -/
theorem field_numeral (w : Nat) (hex : Bool) (n : Nat) :
    field w ((numeral hex n).map capital) = if n < 2 ^ w then some (BitVec.ofNat w n) else none := by
  simp [field, number_numeral]

/-! ## Payloads -/

theorem isText_of_mem_payloadTexts (hex : Bool) (payload : List Nat) : ∀ w ∈ payloadTexts hex payload, IsText w := by
  have rest : ∀ bs : List Nat, ∀ w ∈ List.intercalate [[',']] (bs.map fun b => [numeral hex b]), IsText w := by
    intro bs
    induction bs with
    | nil => simp [List.intercalate]
    | cons b bs ih =>
      cases bs with
      | nil => simpa [List.intercalate] using .inl (isWord_numeral hex b)
      | cons b' bs =>
        simp only [List.map_cons, List.intercalate_cons_cons, List.mem_append, List.mem_singleton] at ih ⊢
        rintro w ((rfl | rfl) | h)
        · exact .inl (isWord_numeral hex b)
        · exact .inr ⟨',', rfl, rfl⟩
        · exact ih w h
  intro w hw
  simp only [payloadTexts, List.cons_append, List.mem_cons, List.mem_append, List.not_mem_nil, or_false] at hw
  rcases hw with rfl | hw | rfl
  · exact .inr ⟨'[', rfl, rfl⟩
  · exact rest payload w hw
  · exact .inr ⟨']', rfl, rfl⟩

/-- The bytes after the first one, as `bytesTail` reads them. -/
theorem bytesTail_numerals (hex : Bool) (payload : List Nat) :
    bytesTail ((payload.flatMap fun b => [[','], numeral hex b]).map tokenOf ++ [.closeBracket]) =
      if payload.all (fun b => decide (b < 256)) then some (payload.map (BitVec.ofNat 8)) else none := by
  induction payload with
  | nil => rfl
  | cons b bs ih =>
    have : tokenOf [','] = .comma := rfl
    simp only [List.flatMap_cons, List.map_cons, List.cons_append, List.nil_append, this,
       tokenOf_numeral, bytesTail, field_numeral, ih, List.all_cons]
    by_cases hb : b < 256 <;> by_cases hbs : bs.all (fun b => decide (b < 256)) = true <;> simp_all

theorem intercalate_comma (hex : Bool) (b : Nat) (bs : List Nat) :
    List.intercalate [[',']] ((b :: bs).map fun b => [numeral hex b]) =
      numeral hex b :: bs.flatMap fun b => [[','], numeral hex b] := by
  induction bs generalizing b with
  | nil => simp [List.intercalate]
  | cons b' bs ih =>
    have := ih b'
    simp only [List.map_cons] at this ⊢
    rw [List.intercalate_cons_cons, this]
    simp

/-- A written payload reads as its bytes, if each of them is one. -/
theorem bytes_payloadTexts (hex : Bool) (payload : List Nat) :
    bytes ((payloadTexts hex payload).map tokenOf).tail =
      if payload.all (fun b => decide (b < 256)) then some (payload.map (BitVec.ofNat 8)) else none := by
  have close : tokenOf [']'] = .closeBracket := rfl
  cases payload with
  | nil => rfl
  | cons b bs =>
    rw [payloadTexts, intercalate_comma]
    simp only [List.cons_append, List.map_cons, List.map_append, List.map_nil, List.tail_cons,
      close, tokenOf_numeral, bytes, field_numeral, bytesTail_numerals, List.all_cons]
    by_cases hb : b < 256 <;> by_cases hbs : bs.all (fun b => decide (b < 256)) = true <;> simp_all

/-! ## Messages -/

theorem isText_of_mem_message (hex : Bool) (m : SourceMessage) : ∀ w ∈ m.texts hex, IsText w := by
  intro w hw
  have word (h : w.all isWordChar = true) (h' : w ≠ []) : IsText w := .inl ⟨h', by simpa using h⟩
  cases m with
  | write a ns payload =>
    simp only [SourceMessage.texts, keyword, List.mem_append, List.mem_cons, List.not_mem_nil, or_false] at hw
    rcases hw with ((rfl | rfl) | hw) | hw
    · exact word rfl (by simp)
    · exact .inl (isWord_numeral hex a)
    · cases ns <;> simp at hw; subst hw; exact word rfl (by simp)
    · exact isText_of_mem_payloadTexts hex payload w hw
  | read a ns len =>
    simp only [SourceMessage.texts, keyword, List.mem_append, List.mem_cons, List.not_mem_nil, or_false] at hw
    rcases hw with ((rfl | rfl) | hw) | rfl
    · exact word rfl (by simp)
    · exact .inl (isWord_numeral hex a)
    · cases ns <;> simp at hw; subst hw; exact word rfl (by simp)
    · exact .inl (isWord_numeral hex len)

/-- What `message` makes of a written message, apart from the length of its payload. -/
theorem message_texts (hex : Bool) (m : SourceMessage) : message ((m.texts hex).map tokenOf) =
    match m with
    | .write a _ payload =>
      if a < 128 ∧ payload.all (fun b => decide (b < 256)) = true then some m.message else none
    | .read a _ len => if a < 128 ∧ len < 65536 then some m.message else none := by
  have hW : tokenOf ['W'] = .word ['W'] := rfl
  have hR : tokenOf ['R'] = .word ['R'] := rfl
  have hN : tokenOf ['N', 'S'] = .word ['N', 'S'] := rfl
  cases m with
  | write a ns payload =>
    have hb := bytes_payloadTexts hex payload
    obtain ⟨ts, hts⟩ : ∃ ts, (payloadTexts hex payload).map tokenOf = .openBracket :: ts := ⟨_, rfl⟩
    rw [hts, List.tail_cons] at hb
    cases ns <;>
      simp only [SourceMessage.texts, keyword, Bool.false_eq_true, if_false, if_true, List.map_cons,
        List.cons_append, List.nil_append, hts, hW, hN, tokenOf_numeral, message, writeMessage, field_numeral,
        hb] <;>
      by_cases ha : a < 128 <;> by_cases hp : payload.all (fun b => decide (b < 256)) = true <;>
      simp_all [SourceMessage.message]
  | read a ns len =>
    cases ns <;>
      simp only [SourceMessage.texts, keyword, Bool.false_eq_true, if_false, if_true, List.map_cons,
        List.map_nil, List.cons_append, List.nil_append, hR, hN, tokenOf_numeral, message, readMessage, field_numeral] <;>
      by_cases ha : a < 128 <;> by_cases hl : len < 65536 <;> simp_all [SourceMessage.message]

/-- `message` reads a written message with a legal payload length exactly if it is encodable. -/
theorem message_texts_of_length (hex : Bool) (m : SourceMessage)
    (h : ∀ a ns payload, m = .write a ns payload → payload.length < 65536) :
    message ((m.texts hex).map tokenOf) = if m.encodable then some m.message else none := by
  rw [message_texts]
  cases m with
  | write a ns payload => simp [SourceMessage.encodable, h a ns payload rfl]
  | read a ns len => simp [SourceMessage.encodable]

/-! ## Message lists -/

/-- A message holds neither a semicolon nor a brace. -/
theorem message_token_ne (hex : Bool) (m : SourceMessage) :
    ∀ t ∈ (m.texts hex).map tokenOf, t ≠ .semicolon ∧ t ≠ .closeBrace := by
  have numeral (n : Nat) : tokenOf (numeral hex n) ≠ .semicolon ∧ tokenOf (numeral hex n) ≠ .closeBrace := by
    simp [tokenOf_numeral]
  have payload (bs : List Nat) : ∀ w ∈ payloadTexts hex bs, tokenOf w ≠ .semicolon ∧ tokenOf w ≠ .closeBrace := by
    intro w hw
    cases bs with
    | nil =>
      simp only [payloadTexts, List.map_nil, List.intercalate, List.intersperse_nil, List.flatten_nil, List.cons_append,
        List.nil_append, List.mem_cons, List.not_mem_nil, or_false] at hw
      rcases hw with rfl | rfl <;> decide
    | cons b bs =>
      rw [payloadTexts, intercalate_comma] at hw
      simp only [List.cons_append, List.mem_cons, List.mem_append, List.mem_flatMap, List.not_mem_nil, or_false] at hw
      rcases hw with rfl | rfl | ⟨b', -, rfl | rfl⟩ | rfl
      · decide
      · exact numeral b
      · decide
      · exact numeral b'
      · decide
  intro t ht
  obtain ⟨w, hw, rfl⟩ := List.mem_map.mp ht
  cases m with
  | write a ns bs =>
    simp only [SourceMessage.texts, keyword, List.mem_append, List.mem_cons, List.not_mem_nil, or_false] at hw
    rcases hw with ((rfl | rfl) | hw) | hw
    · decide
    · exact numeral a
    · cases ns <;> simp at hw; subst hw; decide
    · exact payload bs w hw
  | read a ns len =>
    simp only [SourceMessage.texts, keyword, List.mem_append, List.mem_cons, List.not_mem_nil, or_false] at hw
    rcases hw with ((rfl | rfl) | hw) | rfl
    · decide
    · exact numeral a
    · cases ns <;> simp at hw; subst hw; decide
    · exact numeral len

theorem messagesFrom_append (ts rest collected : List Token) (h : ∀ t ∈ ts, t ≠ .semicolon ∧ t ≠ .closeBrace) :
    messagesFrom collected (ts ++ rest) = messagesFrom (ts.reverse ++ collected) rest := by
  induction ts generalizing collected with
  | nil => rfl
  | cons t ts ih =>
    have ⟨h1, h2⟩ := h t (by simp)
    rw [List.cons_append, messagesFrom]
    · rw [ih _ fun u hu => h u (by simp [hu])]; simp
    · intro h3 _; exact h2 h3
    · exact h1

/-- A written message list reads as its messages, if `message` reads each of them. -/
theorem messagesFrom_texts (hex : Bool) (m : SourceMessage) (ms : List SourceMessage) :
    messagesFrom [] ((List.intercalate [[';']] ((m :: ms).map (·.texts hex)) ++ [[Char.ofNat 125]]).map tokenOf) =
      (m :: ms).mapM fun m => message ((m.texts hex).map tokenOf) := by
  have close : tokenOf [Char.ofNat 125] = .closeBrace := rfl
  have semicolon : tokenOf [';'] = .semicolon := rfl
  induction ms generalizing m with
  | nil =>
    simp only [List.map_cons, List.map_nil, List.intercalate_singleton, List.map_append, close]
    rw [messagesFrom_append _ _ _ (message_token_ne hex m)]
    simp only [messagesFrom, List.append_nil, List.reverse_reverse, List.mapM_cons, List.mapM_nil]
    cases message ((m.texts hex).map tokenOf) <;> rfl
  | cons m' ms ih =>
    have ih := ih m'
    simp only [List.map_cons] at ih ⊢
    rw [List.intercalate_cons_cons, List.append_assoc, List.append_assoc, List.map_append, List.map_append,
      messagesFrom_append _ _ _ (message_token_ne hex m)]
    simp only [List.map_cons, List.map_nil, semicolon, List.cons_append, List.nil_append, messagesFrom, List.append_nil,
      List.reverse_reverse, ih, List.mapM_cons (a := m)]
    cases message ((m.texts hex).map tokenOf) with
    | none => rfl
    | some x =>
      cases (m' :: ms).mapM fun m => message ((m.texts hex).map tokenOf) <;> rfl

end Sys2Proof.Assembler
end

