-- ==== Sys2Proof/Laws/PerInstr.lean ====
section
/-! SUPPORT. One family of statements about every command as syntax: the command word of its record matches its row of the
opcode map (30_encoding.md R109). -/

namespace Sys2Proof

/-- The row of the opcode map that a command belongs to (R109). -/
def Instr.opcode : Instr → Opcode
  | .start => .start
  | .stop => .stop
  | .wrbit _ => .wrbit
  | .rdbit => .rdbit
  | .wrbyte _ => .wrbyte
  | .rdbyte _ => .rdbyte
  | .reset => .reset
  | .xfer _ _ => .xfer
  | .muxsel _ => .muxsel
  | .muxxfer _ _ _ => .muxxfer
  | .getstate => .getstate

namespace Laws.EncodeMatchesRow

/-- The command word of the record has the opcode of the command's row and matches the row under its mask. -/
def Statement (i : Instr) : Prop :=
  opcodeOf (opField (encode i).cmd) = some i.opcode ∧ (encode i).cmd &&& i.opcode.mask = i.opcode.pattern

theorem start : Statement .start := ⟨by decide, by decide⟩
theorem stop : Statement .stop := ⟨by decide, by decide⟩
theorem wrbit (b : Bool) : Statement (.wrbit b) := by cases b <;> exact ⟨by decide, by decide⟩
theorem rdbit : Statement .rdbit := ⟨by decide, by decide⟩
theorem wrbyte (d : Byte) : Statement (.wrbyte d) :=
  ⟨by simp [encode, opcodeOf, Instr.opcode], cmdWord_mask_d 0x5#4 d⟩
theorem rdbyte (a : Bool) : Statement (.rdbyte a) := by cases a <;> exact ⟨by decide, by decide⟩
theorem reset : Statement .reset := ⟨by decide, by decide⟩
theorem xfer (chain : Bool) (msgs : List Message) : Statement (.xfer chain msgs) :=
  ⟨by simp [encode, opcodeOf, Instr.opcode], cmdWord_mask_xfer 0x8#4 chain _⟩
theorem muxsel (channel : Byte) : Statement (.muxsel channel) :=
  ⟨by simp [encode, opcodeOf, Instr.opcode], cmdWord_mask_d 0x9#4 channel⟩
theorem muxxfer (channel : Byte) (chain : Bool) (msgs : List Message) : Statement (.muxxfer channel chain msgs) :=
  ⟨by simp [encode, opcodeOf, Instr.opcode], cmdWord_mask_all 0xA#4 chain _ channel⟩
theorem getstate : Statement .getstate := ⟨by decide, by decide⟩

end Laws.EncodeMatchesRow

end Sys2Proof
end

