-- ==== Sys2Proof/Laws/Rebase.lean ====
section
/-! SUPPORT. No command reads the trace or the last response, and none reads the cached selection before it writes it (R32):
every operation commutes with putting events in front of the trace, with another response, and with forgetting the
selection. -/

namespace Sys2Proof.Machine

/-- The state with earlier events in front of its trace, another response, and its cached selection kept or forgotten. -/
def State.rebase (keep : Bool) (ans : Option Response) (es : List Event) (s : State) : State :=
  { s with trace := es ++ s.trace, response := ans, muxCur := if keep then s.muxCur else .unknown }

/-- Change the state of an end. -/
def Res.mapState {α : Type} (T : State → State) : Res α → Res α
  | .ok a s => .ok a (T s)
  | .fail f s => .fail f (T s)

/-- Change the state of an end. -/
def Run.mapState {α : Type} (T : State → State) : Run α → Run α
  | .go a s => .go a (T s)
  | .ended r s => .ended r (T s)

theorem Res.mapState_andThen {α β : Type} {T : State → State} {r : Res α} {k k' : α → State → Res β}
    (h : ∀ a s, k a (T s) = (k' a s).mapState T) : (r.mapState T).andThen k = (r.andThen k').mapState T := by
  cases r with
  | ok a s => exact h a s
  | fail f s => rfl

theorem Run.mapState_andThen {α β : Type} {T : State → State} {r : Run α} {k k' : α → State → Run β}
    (h : ∀ a s, k a (T s) = (k' a s).mapState T) : (r.mapState T).andThen k = (r.andThen k').mapState T := by
  cases r with
  | go a s => exact h a s
  | ended res s => rfl

variable (keep : Bool) (ans : Option Response) (es : List Event)

/-! ## Plain operations -/

section plain
variable (s : State)
@[simp] theorem State.rebase_cfg : (s.rebase keep ans es).cfg = s.cfg := rfl
@[simp] theorem State.rebase_bus : (s.rebase keep ans es).bus = s.bus := rfl
@[simp] theorem State.rebase_held : (s.rebase keep ans es).held = s.held := rfl
@[simp] theorem State.rebase_ready : (s.rebase keep ans es).ready = s.ready := rfl
@[simp] theorem State.rebase_sense (l : Line) : (s.rebase keep ans es).sense l = s.sense l := by cases l <;> rfl
@[simp] theorem State.rebase_note (e : Event) : (s.rebase keep ans es).note e = (s.note e).rebase keep ans es := by
  simp [State.note, State.rebase]
@[simp] theorem State.rebase_setBus (b : BusState) : (s.rebase keep ans es).setBus b = (s.setBus b).rebase keep ans es := rfl
@[simp] theorem State.rebase_setLine (l : Line) (d : Drive) : (s.rebase keep ans es).setLine l d = (s.setLine l d).rebase keep ans es := by
  cases l <;> simp [State.setLine, State.setDrv, State.note, State.rebase]
@[simp] theorem State.rebase_delay (t : Nat) : (s.rebase keep ans es).delay t = (s.delay t).rebase keep ans es := by simp [State.delay]
@[simp] theorem State.rebase_delayRf : (s.rebase keep ans es).delayRf = s.delayRf.rebase keep ans es := by simp [State.delayRf]
@[simp] theorem State.rebase_delayHold : (s.rebase keep ans es).delayHold = s.delayHold.rebase keep ans es := by simp [State.delayHold]
@[simp] theorem State.rebase_raiseClock (d : Drive) : (s.rebase keep ans es).raiseClock d = (s.raiseClock d).rebase keep ans es := by
  simp [State.raiseClock]
@[simp] theorem State.rebase_raiseBoth : (s.rebase keep ans es).raiseBoth = s.raiseBoth.rebase keep ans es := by
  unfold State.raiseBoth
  rw [State.rebase_bus]
  split <;> simp
@[simp] theorem State.rebase_sampled (l : Line) : (s.rebase keep ans es).sampled l = (s.sampled l).rebase keep ans es := by
  simp only [State.sampled, State.rebase_sense]
  exact (s.drawn).rebase_note keep ans es _
@[simp] theorem State.rebase_afterFailure (f : Failure) : (s.rebase keep ans es).afterFailure f = (s.afterFailure f).rebase keep ans es := by
  cases f <;> rfl
@[simp] theorem releaseBus_rebase : releaseBus (s.rebase keep ans es) = (releaseBus s).rebase keep ans es := by
  simp [releaseBus, State.setMux, State.setBus, State.rebase]
end plain

@[simp] theorem failWith_rebase {α : Type} (f : Failure) (s : State) :
    (failWith f (s.rebase keep ans es) : Res α) = (failWith f s).mapState (State.rebase keep ans es) := by
  simp [failWith, Res.mapState]

theorem waitLoop_rebase (fuel : Nat) : ∀ (k : Nat) (s : State),
    waitLoop fuel k (s.rebase keep ans es) = (waitLoop fuel k s).mapState (State.rebase keep ans es) := by
  induction fuel with
  | zero => exact fun k s => failWith_rebase keep ans es _ s
  | succ fuel ih =>
    intro k s
    unfold waitLoop
    simp only [State.rebase_cfg, State.rebase_sense]
    split
    · exact failWith_rebase keep ans es _ s
    · split
      · simp [Res.mapState]
      · rw [State.rebase_sampled, State.rebase_delay, ih]

@[simp] theorem waitSclHigh_rebase (s : State) :
    waitSclHigh (s.rebase keep ans es) = (waitSclHigh s).mapState (State.rebase keep ans es) := waitLoop_rebase keep ans es _ 0 s

/-! ## Engine commands -/

theorem engStart_rebase (s : State) : engStart (s.rebase keep ans es) = (engStart s).mapState (State.rebase keep ans es) := by
  unfold engStart
  simp only [State.rebase_ready, State.rebase_raiseBoth, waitSclHigh_rebase]
  split
  · exact failWith_rebase keep ans es _ s
  · refine Res.mapState_andThen fun _ t => ?_
    simp only [State.rebase_sense, State.rebase_sampled, State.rebase_setLine, State.rebase_delayRf]
    split
    · exact failWith_rebase keep ans es _ _
    · split
      · exact failWith_rebase keep ans es _ _
      · simp [Res.mapState]

theorem engStop_rebase (s : State) : engStop (s.rebase keep ans es) = (engStop s).mapState (State.rebase keep ans es) := by
  unfold engStop
  simp only [State.rebase_held, State.rebase_raiseClock, waitSclHigh_rebase]
  split
  · exact failWith_rebase keep ans es _ s
  · refine Res.mapState_andThen fun _ t => ?_
    simp only [State.rebase_delayHold, State.rebase_setLine, State.rebase_delayRf, State.rebase_cfg, State.rebase_sense,
      State.rebase_sampled]
    split
    · split
      · exact failWith_rebase keep ans es _ _
      · simp [Res.mapState]
    · simp [Res.mapState]

theorem engWrbit_rebase (b : Level) (s : State) :
    engWrbit b (s.rebase keep ans es) = (engWrbit b s).mapState (State.rebase keep ans es) := by
  unfold engWrbit
  simp only [State.rebase_held, State.rebase_raiseClock, waitSclHigh_rebase]
  split
  · exact failWith_rebase keep ans es _ s
  · refine Res.mapState_andThen fun _ t => ?_
    simp only [State.rebase_cfg, State.rebase_sense, State.rebase_sampled]
    split
    · split
      · exact failWith_rebase keep ans es _ _
      · simp [Res.mapState]
    · simp [Res.mapState]

theorem engRdbit_rebase (s : State) : engRdbit (s.rebase keep ans es) = (engRdbit s).mapState (State.rebase keep ans es) := by
  unfold engRdbit
  simp only [State.rebase_held, State.rebase_raiseClock, waitSclHigh_rebase]
  split
  · exact failWith_rebase keep ans es _ s
  · refine Res.mapState_andThen fun _ t => ?_
    simp [Res.mapState]

theorem sendBits_rebase (bits : List Level) : ∀ s : State,
    sendBits bits (s.rebase keep ans es) = (sendBits bits s).mapState (State.rebase keep ans es) := by
  induction bits with
  | nil => exact fun s => rfl
  | cons b bits ih =>
    intro s
    rw [sendBits, sendBits, engWrbit_rebase]
    exact Res.mapState_andThen fun _ t => ih t

theorem receiveBits_rebase (n : Nat) : ∀ (v : Byte) (s : State),
    receiveBits n v (s.rebase keep ans es) = (receiveBits n v s).mapState (State.rebase keep ans es) := by
  induction n with
  | zero => exact fun v s => rfl
  | succ n ih =>
    intro v s
    rw [receiveBits, receiveBits, engRdbit_rebase]
    exact Res.mapState_andThen fun b t => ih _ t

theorem engWrbyte_rebase (d : Byte) (s : State) :
    engWrbyte d (s.rebase keep ans es) = (engWrbyte d s).mapState (State.rebase keep ans es) := by
  unfold engWrbyte
  simp only [State.rebase_held, sendBits_rebase]
  split
  · exact failWith_rebase keep ans es _ s
  · refine Res.mapState_andThen fun _ t => ?_
    rw [engRdbit_rebase]
    exact Res.mapState_andThen fun v u => rfl

theorem engRdbyte_rebase (a : Bool) (s : State) :
    engRdbyte a (s.rebase keep ans es) = (engRdbyte a s).mapState (State.rebase keep ans es) := by
  unfold engRdbyte
  simp only [State.rebase_held, receiveBits_rebase]
  split
  · exact failWith_rebase keep ans es _ s
  · refine Res.mapState_andThen fun v t => ?_
    rw [engWrbit_rebase]
    exact Res.mapState_andThen fun _ u => rfl

/-! ## Transfers -/

theorem eng_rebase {α : Type} (p : Progress) (r : Res α) :
    eng p (r.mapState (State.rebase keep ans es)) = (eng p r).mapState (State.rebase keep ans es) := by
  cases r with
  | ok a s => rfl
  | fail f s =>
    cases f <;> simp [eng, Res.mapState, Run.mapState, engReset] <;> split <;> rfl

theorem nackExit_rebase {α : Type} (p : Progress) (k : Nat) (s : State) :
    (nackExit p k (s.rebase keep ans es) : Run α) = (nackExit p k s).mapState (State.rebase keep ans es) := by
  unfold nackExit
  rw [engStop_rebase, eng_rebase]
  exact Run.mapState_andThen fun _ t => rfl

theorem sendPayload_rebase (ds : List Byte) : ∀ (p : Progress) (k : Nat) (s : State),
    sendPayload p k ds (s.rebase keep ans es) = (sendPayload p k ds s).mapState (State.rebase keep ans es) := by
  induction ds with
  | nil => exact fun p k s => rfl
  | cons d ds ih =>
    intro p k s
    rw [sendPayload, sendPayload, engWrbyte_rebase, eng_rebase]
    refine Run.mapState_andThen fun ack t => ?_
    split
    · exact nackExit_rebase keep ans es p k t
    · exact ih _ _ t

theorem receivePayload_rebase (last : Bool) (n : Nat) : ∀ (p : Progress) (s : State),
    receivePayload last n p (s.rebase keep ans es) = (receivePayload last n p s).mapState (State.rebase keep ans es) := by
  induction n with
  | zero => exact fun p s => rfl
  | succ n ih =>
    intro p s
    rw [receivePayload, receivePayload, engRdbyte_rebase, eng_rebase]
    exact Run.mapState_andThen fun v t => ih _ t

theorem transferPayload_rebase (last : Bool) (p : Progress) (m : Message) (s : State) :
    transferPayload last p m (s.rebase keep ans es) = (transferPayload last p m s).mapState (State.rebase keep ans es) := by
  cases m with
  | write a ns payload => exact sendPayload_rebase keep ans es payload p 0 s
  | read a ns len => exact receivePayload_rebase keep ans es last len.toNat p s

/-- An optional STOP. -/
theorem stopIf_rebase (c : Bool) (p : Progress) (s : State) :
    (if c then eng p (engStop (s.rebase keep ans es)) else .go () (s.rebase keep ans es) : Run Unit) =
      (if c then eng p (engStop s) else .go () s : Run Unit).mapState (State.rebase keep ans es) := by
  cases c
  · rfl
  · simp only [if_true]
    rw [engStop_rebase, eng_rebase]

theorem runMessage_rebase (last : Bool) (p : Progress) (m : Message) (s : State) :
    runMessage last p m (s.rebase keep ans es) = (runMessage last p m s).mapState (State.rebase keep ans es) := by
  unfold runMessage
  rw [State.rebase_held, stopIf_rebase]
  refine Run.mapState_andThen fun _ t => ?_
  rw [engStart_rebase, eng_rebase]
  refine Run.mapState_andThen fun _ t => ?_
  rw [engWrbyte_rebase, eng_rebase]
  refine Run.mapState_andThen fun ack t => ?_
  split
  · exact nackExit_rebase keep ans es p 0 t
  · exact transferPayload_rebase keep ans es last p m t

theorem runMessages_rebase (lastRead : Option Nat) (msgs : List Message) : ∀ (i : Nat) (p : Progress) (s : State),
    runMessages lastRead i p msgs (s.rebase keep ans es) = (runMessages lastRead i p msgs s).mapState (State.rebase keep ans es) := by
  induction msgs with
  | nil => exact fun i p s => rfl
  | cons m msgs ih =>
    intro i p s
    rw [runMessages, runMessages, runMessage_rebase]
    exact Run.mapState_andThen fun q t => ih _ _ t

theorem runTransfer_rebase (chain : Bool) (msgs : List Message) (s : State) :
    runTransfer chain msgs (s.rebase keep ans es) = (runTransfer chain msgs s).mapState (State.rebase keep ans es) := by
  unfold runTransfer
  rw [runMessages_rebase]
  refine Run.mapState_andThen fun q t => ?_
  rw [State.rebase_held, stopIf_rebase]
  exact Run.mapState_andThen fun _ u => rfl

/-- A transfer does the same on a longer trace and with another cached selection (R32). -/
theorem transfer_rebase (chain : Bool) (msgs : List Message) (s : State) :
    transfer chain msgs (s.rebase keep ans es) = ((transfer chain msgs s).1, (transfer chain msgs s).2.rebase keep ans es) := by
  unfold transfer
  rw [State.rebase_ready, runTransfer_rebase]
  split
  · rfl
  · cases runTransfer chain msgs s <;> rfl

end Sys2Proof.Machine
end

