-- ==== Sys2Proof/Laws/TransferEnds.lean ====
section
/-! SUPPORT. Everything a transfer can do, whatever the environment shows: its outcome, the state it leaves, the bounds of
`COUNT` and `RDATA` (R200, R204, R206, R207, R209, R211). -/

namespace Sys2Proof.Machine

/-- The transfer goes on with `Q`, or it is over with `R`. -/
def Run.Ends {α : Type} (r : Run α) (Q : α → State → Prop) (R : Result → State → Prop) : Prop :=
  match r with
  | .go a t => Q a t
  | .ended res t => R res t

section Ends
variable {α β : Type}

theorem Run.Ends.andThen {r : Run α} {k : α → State → Run β} {Q : α → State → Prop} {Q' : β → State → Prop}
    {R : Result → State → Prop} (h : r.Ends Q R) (hk : ∀ a t, Q a t → (k a t).Ends Q' R) : (r.andThen k).Ends Q' R := by
  cases r with
  | go a t => exact hk a t h
  | ended res t => exact h

theorem Run.Ends.mono {r : Run α} {Q Q' : α → State → Prop} {R R' : Result → State → Prop} (h : r.Ends Q R)
    (hQ : ∀ a t, Q a t → Q' a t) (hR : ∀ res t, R res t → R' res t) : r.Ends Q' R' := by
  cases r with
  | go a t => exact hQ a t h
  | ended res t => exact hR res t h

end Ends

/-! ## How a transfer can be over early -/

/-- What no command of a transfer writes, RESET included. -/
structure Steady (s t : State) : Prop where
  cfg      : t.cfg = s.cfg
  lock     : t.lock = s.lock
  port     : t.port = s.port
  response : t.response = s.response

theorem Frame.steady {s t : State} (h : Frame s t) : Steady s t := ⟨h.cfg, h.lock, h.port, h.response⟩

theorem Steady.trans {s t u : State} (h : Steady s t) (k : Steady t u) : Steady s u :=
  ⟨k.cfg.trans h.cfg, k.lock.trans h.lock, k.port.trans h.port, k.response.trans h.response⟩

/-- An engine failure inside a transfer leaves the engine reset, or terminal where `DRIVER_AUTO_RESET` is clear (R204). -/
def AfterEngineFailure (s : State) (terminal : BusState) (t : State) : Prop :=
  if s.cfg.driverAutoReset then t.bus = .idle ∧ t.sda = .rel ∧ t.muxCur = .unknown
  else t.bus = terminal ∧ t.muxCur = s.muxCur

/-- A transfer that is over early: by a nack after its cleanup STOP, or by an engine failure. -/
def Over (s : State) (r : Result) (t : State) : Prop :=
  Steady s t ∧ t.scl = .rel ∧
  match r.outcome with
  | .nack _ => t.bus = .idle ∧ t.sda = .rel ∧ t.muxCur = s.muxCur
  | .arbitrationLost => AfterEngineFailure s .arbitrationLost t
  | .timeout => AfterEngineFailure s .timedOut t
  | .ok | .illegalState | .illegalCommand | .invalidChannel => False

theorem AfterEngineFailure.after {s t u : State} {b : BusState} (hst : Frame s t) (h : AfterEngineFailure t b u) :
    AfterEngineFailure s b u := by
  unfold AfterEngineFailure at *
  rwa [hst.cfg, hst.muxCur] at h

theorem Over.after {s t u : State} {r : Result} (hst : Frame s t) (h : Over t r u) : Over s r u := by
  obtain ⟨hs, hc, ho⟩ := h
  refine ⟨hst.steady.trans hs, hc, ?_⟩
  cases hr : r.outcome <;> simp only [hr] at ho ⊢
  · exact ⟨ho.1, ho.2.1, ho.2.2.trans hst.muxCur⟩
  · exact ho.after hst
  · exact ho.after hst

/-- `COUNT` and `RDATA` of a transfer that is over: between what was complete at `p` and what was still asked for. -/
def Within (p : Progress) (limit : Nat) (r : Result) : Prop :=
  p.count ≤ r.count ∧ r.count ≤ limit ∧ r.rdata.length ≤ r.count

theorem Within.mono {p q : Progress} {m n : Nat} {r : Result} (h : Within q m r) (hp : p.count ≤ q.count) (hn : m ≤ n) :
    Within p n r := ⟨hp.trans h.1, h.2.1.trans hn, h.2.2⟩

/-- `ENG(c)`: a failure of the command ends the transfer with that failure (R204). -/
theorem eng_ends {α : Type} {p : Progress} {limit : Nat} {r : Res α} {s : State} {Q : α → State → Prop}
    (hp : p.count ≤ limit) (hr : p.rdata.length ≤ p.count)
    (h : r.Ends Q fun f t => f ≠ .illegalState ∧ FailedAs s f t) :
    (eng p r).Ends Q fun res t => Over s res t ∧ Within p limit res := by
  cases r with
  | ok a t => exact h
  | fail f t =>
    obtain ⟨hf, hfail⟩ := h
    have within : ∀ o, Within p limit (p.ending o) := fun o => ⟨Nat.le_refl _, hp, hr⟩
    have hcfg := hfail.frame.cfg
    cases f with
    | illegalState => exact absurd rfl hf
    | arbitrationLost =>
      obtain ⟨hfr, hb, hc, -⟩ := hfail
      refine ⟨?_, within _⟩
      cases ha : s.cfg.driverAutoReset <;>
        simp [Over, Progress.ending, Failure.outcome, AfterEngineFailure, hcfg, ha, engReset, releaseBus, hb, hc, hfr.muxCur,
          hfr.steady]
      exact ⟨hfr.cfg, hfr.lock, hfr.port, hfr.response⟩
    | timeout =>
      obtain ⟨hfr, hb, hc, -⟩ := hfail
      refine ⟨?_, within _⟩
      cases ha : s.cfg.driverAutoReset <;>
        simp [Over, Progress.ending, Failure.outcome, AfterEngineFailure, hcfg, ha, engReset, releaseBus, hb, hc, hfr.muxCur,
          hfr.steady]
      exact ⟨hfr.cfg, hfr.lock, hfr.port, hfr.response⟩

/-- STOP inside a transfer, on a held bus. -/
theorem stop_ends (p : Progress) (limit : Nat) (s : State) (hp : p.count ≤ limit) (hr : p.rdata.length ≤ p.count)
    (hh : s.held = true) :
    (eng p (engStop s)).Ends (fun _ t => Frame s t ∧ t.bus = .idle ∧ t.scl = .rel ∧ t.sda = .rel)
      (fun res t => Over s res t ∧ Within p limit res) :=
  eng_ends hp hr ((engStop_ends s).mono (fun _ _ h => ⟨h.2.1, h.2.2.1, h.2.2.2.1, h.2.2.2.2.1⟩)
    fun _ _ h => ⟨fun hf => by simp [h.2.1 hf] at hh, h.1⟩)

/-- START inside a transfer. -/
theorem start_ends (p : Progress) (limit : Nat) (s : State) (hp : p.count ≤ limit) (hr : p.rdata.length ≤ p.count)
    (hs : s.ready = true) :
    (eng p (engStart s)).Ends (fun _ t => Frame s t ∧ t.bus = .started ∧ t.scl = .rel ∧ t.sda = .low)
      (fun res t => Over s res t ∧ Within p limit res) :=
  eng_ends hp hr ((engStart_ends s).mono (fun _ _ h => ⟨h.2.1, h.2.2.1, h.2.2.2.1, h.2.2.2.2.1⟩)
    fun _ _ h => ⟨fun hf => by simp [h.2 hf] at hs, h.1⟩)

/-- WRBYTE inside a transfer. -/
theorem wrbyte_ends (p : Progress) (limit : Nat) (d : Byte) (s : State) (hp : p.count ≤ limit)
    (hr : p.rdata.length ≤ p.count) (hh : s.held = true) :
    (eng p (engWrbyte d s)).Ends (fun _ t => Frame s t ∧ t.bus = .byteInProgress ∧ t.scl = .rel ∧ t.sda = .rel)
      (fun res t => Over s res t ∧ Within p limit res) :=
  eng_ends hp hr ((engWrbyte_ends d s).mono (fun _ _ h => ⟨h.2.1, h.2.2.1, h.2.2.2.1, h.2.2.2.2.1⟩)
    fun _ _ h => ⟨fun hf => by simp [h.2.1 hf] at hh, h.1⟩)

/-- RDBYTE inside a transfer. -/
theorem rdbyte_ends (p : Progress) (limit : Nat) (a : Bool) (s : State) (hp : p.count ≤ limit)
    (hr : p.rdata.length ≤ p.count) (hh : s.held = true) :
    (eng p (engRdbyte a s)).Ends (fun _ t => Frame s t ∧ t.bus = .byteInProgress ∧ t.scl = .rel ∧ t.sda = bitDrive (!a))
      (fun res t => Over s res t ∧ Within p limit res) :=
  eng_ends hp hr ((engRdbyte_ends a s).mono (fun _ _ h => ⟨h.2.1, h.2.2.1, h.2.2.2.1, h.2.2.2.2.1⟩)
    fun _ _ h => ⟨fun hf => by simp [h.2.1 hf] at hh, h.1⟩)

/-- The cleanup after a nack always ends the transfer (R207). -/
theorem nackExit_ends {α : Type} (p : Progress) (limit k : Nat) (s : State) (Q : α → State → Prop) (hp : p.count ≤ limit)
    (hr : p.rdata.length ≤ p.count) (hh : s.held = true) :
    (nackExit p k s).Ends Q (fun res t => Over s res t ∧ Within p limit res) := by
  refine (stop_ends p limit s hp hr hh).andThen ?_
  rintro _ t ⟨hfr, hb, hc, hd⟩
  exact ⟨⟨hfr.steady, hc, hb, hd, hfr.muxCur⟩, Nat.le_refl _, hp, hr⟩

/-! ## Payload phases -/

/-- The bytes of a Write message: all of them acknowledged, or the transfer is over (R203). -/
theorem sendPayload_ends (ds : List Byte) : ∀ (p : Progress) (k limit : Nat) (s : State),
    s.bus = .byteInProgress → s.scl = .rel → p.count + ds.length ≤ limit → p.rdata.length ≤ p.count →
    (sendPayload p k ds s).Ends
      (fun q t => q = { p with count := p.count + ds.length } ∧ Frame s t ∧ t.bus = .byteInProgress ∧ t.scl = .rel)
      (fun res t => Over s res t ∧ Within p limit res) := by
  induction ds with
  | nil => exact fun p k limit s hb hc _ _ => ⟨rfl, .refl s, hb, hc⟩
  | cons d ds ih =>
    intro p k limit s hb hc hp hr
    rw [List.length_cons] at hp
    rw [sendPayload]
    refine (wrbyte_ends p limit d s (by omega) hr (held_of_byteInProgress hb)).andThen ?_
    rintro ack t ⟨hfr, htb, htc, -⟩
    split
    · exact (nackExit_ends p limit k t _ (by omega) hr (held_of_byteInProgress htb)).mono (fun _ _ h => h)
        fun _ _ h => ⟨h.1.after hfr, h.2⟩
    · refine (ih { p with count := p.count + 1 } (k + 1) limit t htb htc (by simp; omega) (by simp; omega)).mono ?_ ?_
      · rintro q u ⟨rfl, huf, hub, huc⟩
        exact ⟨by simp; omega, hfr.trans huf, hub, huc⟩
      · rintro res u ⟨ho, hw⟩
        exact ⟨ho.after hfr, hw.mono (by simp) (Nat.le_refl _)⟩

/-- The bytes of a Read message: all of them received, or the transfer is over (R205). -/
theorem receivePayload_ends (last : Bool) (n : Nat) : ∀ (p : Progress) (limit : Nat) (s : State),
    s.bus = .byteInProgress → s.scl = .rel → p.count + n ≤ limit → p.rdata.length ≤ p.count →
    (receivePayload last n p s).Ends
      (fun q t => q.count = p.count + n ∧ (∃ vs, vs.length = n ∧ q.rdata = p.rdata ++ vs) ∧ Frame s t ∧
        t.bus = .byteInProgress ∧ t.scl = .rel)
      (fun res t => Over s res t ∧ Within p limit res) := by
  induction n with
  | zero => exact fun p limit s hb hc _ _ => ⟨rfl, ⟨[], rfl, by simp⟩, .refl s, hb, hc⟩
  | succ n ih =>
    intro p limit s hb hc hp hr
    rw [receivePayload]
    refine (rdbyte_ends p limit _ s (by omega) hr (held_of_byteInProgress hb)).andThen ?_
    rintro v t ⟨hfr, htb, htc, -⟩
    refine (ih _ limit t htb htc (by simp; omega) (by simp; omega)).mono ?_ ?_
    · rintro q u ⟨hq, ⟨vs, hv, hqr⟩, huf, hub, huc⟩
      exact ⟨by simp at hq; omega, ⟨v :: vs, by simp [hv], by simp [hqr]⟩, hfr.trans huf, hub, huc⟩
    · rintro res u ⟨ho, hw⟩
      exact ⟨ho.after hfr, hw.mono (by simp) (Nat.le_refl _)⟩

/-- What a row of messages adds to the progress of a transfer. -/
structure Advanced (p q : Progress) (bytes : Nat) : Prop where
  count : q.count = p.count + bytes
  rdata : q.rdata.length ≤ q.count

theorem transferPayload_ends (last : Bool) (p : Progress) (m : Message) (limit : Nat) (s : State)
    (hb : s.bus = .byteInProgress) (hc : s.scl = .rel) (hp : p.count + m.len ≤ limit) (hr : p.rdata.length ≤ p.count) :
    (transferPayload last p m s).Ends
      (fun q t => Advanced p q m.len ∧ Frame s t ∧ t.bus = .byteInProgress ∧ t.scl = .rel)
      (fun res t => Over s res t ∧ Within p limit res) := by
  cases m with
  | write a ns payload =>
    refine (sendPayload_ends payload p 0 limit s hb hc hp hr).mono ?_ fun _ _ h => h
    rintro q t ⟨rfl, ht⟩
    exact ⟨⟨rfl, by simp; omega⟩, ht⟩
  | read a ns len =>
    refine (receivePayload_ends last len.toNat p limit s hb hc hp hr).mono ?_ fun _ _ h => h
    rintro q t ⟨hq, ⟨vs, hv, hqr⟩, ht⟩
    exact ⟨⟨hq, by rw [hqr, hq]; simp; omega⟩, ht⟩

/-! ## Messages and the whole transfer -/

/-- One message (R201, R202): it completes, or the transfer is over. -/
theorem runMessage_ends (last : Bool) (p : Progress) (m : Message) (limit : Nat) (s : State) (hs : s.ready = true)
    (hp : p.count + m.len ≤ limit) (hr : p.rdata.length ≤ p.count) :
    (runMessage last p m s).Ends
      (fun q t => Advanced p q m.len ∧ Frame s t ∧ t.bus = .byteInProgress ∧ t.scl = .rel)
      (fun res t => Over s res t ∧ Within p limit res) := by
  have first : (if s.held && !m.noStart then eng p (engStop s) else .go () s : Run Unit).Ends
      (fun _ t => Frame s t ∧ t.ready = true) (fun res t => Over s res t ∧ Within p limit res) := by
    split
    · rename_i h
      refine (stop_ends p limit s (by omega) hr (by simp at h; exact h.1)).mono ?_ fun _ _ h => h
      rintro _ t ⟨hfr, hb, -⟩
      exact ⟨hfr, by simp [State.ready, hb]⟩
    · exact ⟨.refl s, hs⟩
  refine first.andThen ?_
  rintro _ t ⟨hst, htr⟩
  refine (start_ends p limit t (by omega) hr htr).mono (fun _ _ h => h) (fun _ _ h => ⟨h.1.after hst, h.2⟩) |>.andThen ?_
  rintro _ u ⟨htu, hub, -, -⟩
  have hsu := hst.trans htu
  refine (wrbyte_ends p limit m.addressByte u (by omega) hr (by simp [State.held, hub])).mono (fun _ _ h => h)
    (fun _ _ h => ⟨h.1.after hsu, h.2⟩) |>.andThen ?_
  rintro ack v ⟨huv, hvb, hvc, -⟩
  have hsv := hsu.trans huv
  split
  · exact (nackExit_ends p limit 0 v _ (by omega) hr (held_of_byteInProgress hvb)).mono (fun _ _ h => h)
      fun _ _ h => ⟨h.1.after hsv, h.2⟩
  · refine (transferPayload_ends last p m limit v hvb hvc hp hr).mono ?_ fun _ _ h => ⟨h.1.after hsv, h.2⟩
    rintro q w ⟨hq, hvw, hw⟩
    exact ⟨hq, hsv.trans hvw, hw⟩

/-- A row of messages (R200): it completes, or the transfer is over. -/
theorem runMessages_ends (lastRead : Option Nat) (msgs : List Message) : ∀ (i : Nat) (p : Progress) (limit : Nat) (s : State),
    s.ready = true → p.count + payloadTotal msgs ≤ limit → p.rdata.length ≤ p.count →
    (runMessages lastRead i p msgs s).Ends
      (fun q t => Advanced p q (payloadTotal msgs) ∧ Frame s t ∧ (msgs = [] → t = s) ∧
        (msgs ≠ [] → t.bus = .byteInProgress ∧ t.scl = .rel))
      (fun res t => Over s res t ∧ Within p limit res) := by
  induction msgs with
  | nil => exact fun i p limit s _ _ hr => ⟨⟨rfl, hr⟩, .refl s, by simp, by simp⟩
  | cons m msgs ih =>
    intro i p limit s hs hp hr
    have hsum : payloadTotal (m :: msgs) = m.len + payloadTotal msgs := by simp [payloadTotal]
    rw [hsum] at hp
    rw [runMessages]
    refine (runMessage_ends _ p m limit s hs (by omega) hr).andThen ?_
    rintro q t ⟨hq, hst, htb, htc⟩
    have hqc := hq.count
    refine (ih (i + 1) q limit t (ready_of_held (held_of_byteInProgress htb)) (by omega) hq.rdata).mono ?_ ?_
    · rintro q' u ⟨hq', htu, hue, hub⟩
      refine ⟨⟨by rw [hq'.count, hqc, hsum]; omega, hq'.rdata⟩, hst.trans htu, by simp, fun _ => ?_⟩
      by_cases he : msgs = []
      · rw [hue he]; exact ⟨htb, htc⟩
      · exact hub he
    · rintro res u ⟨ho, hw⟩
      exact ⟨ho.after hst, hw.mono (by omega) (Nat.le_refl _)⟩

/-- Everything a transfer can do: refused, successful, or over early. -/
theorem transfer_ends (chain : Bool) (msgs : List Message) (s : State) (r : Result) (t : State)
    (h : transfer chain msgs s = (r, t)) :
    (s.ready = false ∧ r = { outcome := .illegalState } ∧ t = s) ∨
    (s.ready = true ∧ r.count ≤ payloadTotal msgs ∧ r.rdata.length ≤ r.count ∧
      ((r.outcome = .ok ∧ r.count = payloadTotal msgs ∧ Frame s t ∧
          ((chain = true ∨ s.held = false) ∧ msgs = [] ∧ t = s ∨
           chain = true ∧ msgs ≠ [] ∧ t.bus = .byteInProgress ∧ t.scl = .rel ∨
           chain = false ∧ t.bus = .idle ∧ t.scl = .rel ∧ t.sda = .rel)) ∨
       Over s r t)) := by
  unfold transfer at h
  split at h
  · rename_i hs
    cases h
    exact .inl ⟨by simpa using hs, rfl, rfl⟩
  · rename_i hs
    have hs : s.ready = true := by simpa using hs
    refine .inr ⟨hs, ?_⟩
    have hrun : (runTransfer chain msgs s).Ends
        (fun q t => Advanced ⟨0, []⟩ q (payloadTotal msgs) ∧ Frame s t ∧
          ((chain = true ∨ s.held = false) ∧ msgs = [] ∧ t = s ∨
           chain = true ∧ msgs ≠ [] ∧ t.bus = .byteInProgress ∧ t.scl = .rel ∨
           chain = false ∧ t.bus = .idle ∧ t.scl = .rel ∧ t.sda = .rel))
        (fun res t => Over s res t ∧ Within ⟨0, []⟩ (payloadTotal msgs) res) := by
      refine (runMessages_ends _ msgs 0 ⟨0, []⟩ (payloadTotal msgs) s hs (by simp) (by simp)).andThen ?_
      rintro q t ⟨hq, hst, hte, htb⟩
      split
      · rename_i hc
        obtain ⟨hc, hh⟩ : chain = false ∧ t.held = true := by simpa using hc
        refine Run.Ends.andThen (Q := fun _ u => Frame s u ∧ u.bus = .idle ∧ u.scl = .rel ∧ u.sda = .rel)
          ((stop_ends q (payloadTotal msgs) t (by simp [hq.count]) hq.rdata hh).mono ?_ ?_) ?_
        · rintro _ u ⟨htu, hu⟩
          exact ⟨hst.trans htu, hu⟩
        · rintro res u ⟨ho, hw⟩
          exact ⟨ho.after hst, hw.mono (by simp) (Nat.le_refl _)⟩
        · rintro _ u ⟨hsu, hu⟩
          exact ⟨hq, hsu, .inr (.inr ⟨hc, hu⟩)⟩
      · rename_i hc
        refine ⟨hq, hst, ?_⟩
        by_cases he : msgs = []
        · refine .inl ⟨?_, he, hte he⟩
          have : t = s := hte he
          subst this
          cases hch : chain <;> simp_all
        · obtain ⟨hb, hc'⟩ := htb he
          have : t.held = true := held_of_byteInProgress hb
          exact .inr (.inl ⟨by simpa [this] using hc, he, hb, hc'⟩)
    cases hq : runTransfer chain msgs s with
    | go q u =>
      rw [hq] at hrun h
      cases h
      obtain ⟨ha, hfr, hcase⟩ := hrun
      have hcount : q.count = payloadTotal msgs := by simpa using ha.count
      exact ⟨by simp [Progress.ending, hcount], ha.rdata, .inl ⟨rfl, hcount, hfr, hcase⟩⟩
    | ended res u =>
      rw [hq] at hrun h
      cases h
      exact ⟨hrun.2.2.1, hrun.2.2.2, .inr hrun.1⟩

end Sys2Proof.Machine
end

