-- ==== Sys2Proof/Tests/Slice0.lean ====
section
/-! SUPPORT. The model's own tests: ill-formed commands that WellFormed refuses, words written out from the spec's
encodings, one or two steps of every command with the results that file 95 gives, and, for every statement, states and
operands that meet its hypotheses. -/

namespace Sys2Proof.Tests

open Sys2Proof Sys2Proof.Machine

/-! ## Small states -/

/-- The block at reset with the given bus state, SDA drive and coming draws. -/
def onBus (b : BusState) (d : Drive) (env : List Level) : State := { State.reset with bus := b, sda := d, env := env }

/-- The same with another configuration. -/
def onBusWith (c : Config) (b : BusState) (d : Drive) (env : List Level) : State := { onBus b d env with cfg := c }

/-- "Started" of file 95. -/
def started (env : List Level) : State := onBus .started .low env
/-- "BIP" of file 95. -/
def byteInProgress (env : List Level) : State := onBus .byteInProgress .rel env

def noReadback : Config := { Config.vectors with openDrainReadback := false }
def noArbCheck : Config := { Config.vectors with arbCheckData := false }
def noAutoReset : Config := { Config.vectors with driverAutoReset := false }
def noMux : Config := { Config.vectors with muxPresent := false }

/-- The state after a command. -/
def after (i : Instr) (s : State) : State :=
  match exec i s with
  | .next t => t
  | .fault _ | .refused _ => s

/-- The draws of a sent byte that is acknowledged or not: SCL high in every clock, SDA high at every 1 bit, then the
ninth clock. -/
def sent (d : Byte) (level : Level) : List Level :=
  ((bitsMsbFirst d).flatMap fun b => if b then [true, true] else [true]) ++ [true, level]

/-- The draws of the eight data bits of a received byte. -/
def received (d : Byte) : List Level := (bitsMsbFirst d).flatMap fun b => [true, b]

/-- Draws of START and STOP. -/
def startLevels : List Level := [true, true, false]
def stopLevels : List Level := [true, true]

/-! ## Ill-formed commands (R101, R102, D44) -/

theorem test_payload_too_long_is_ill_formed (n : Nat) (h : 65535 < n) :
    (Instr.xfer false [.write 0x50#7 false (List.replicate n 0#8)]).wellFormed = false := by
  simp [Instr.wellFormed, messagesWellFormed, Message.wellFormed]; omega

theorem test_too_many_messages_is_ill_formed (n : Nat) (h : 255 < n) :
    (Instr.muxxfer 0#8 false (List.replicate n (.read 0x50#7 false 0#16))).wellFormed = false := by
  simp [Instr.wellFormed, messagesWellFormed]; omega

/-- The longest payload that `LEN` can carry. -/
theorem test_longest_payload_is_well_formed (n : Nat) (h : n = 65535) :
    (Instr.xfer false [.write 0x50#7 false (List.replicate n 0#8)]).wellFormed = true := by
  simp [Instr.wellFormed, messagesWellFormed, Message.wellFormed]; omega

/-! ## Words written out from R101, R102, R109, and the records of file 95 -/

theorem test_decode_start : decode ⟨0x10000000#32, [], []⟩ = .ok .start := by decide
theorem test_decode_stop : decode ⟨0x20000000#32, [], []⟩ = .ok .stop := by decide
theorem test_decode_wrbit : decode ⟨0x30010000#32, [], []⟩ = .ok (.wrbit true) := by decide
theorem test_decode_rdbit : decode ⟨0x40000000#32, [], []⟩ = .ok .rdbit := by decide
theorem test_decode_wrbyte : decode ⟨0x500000A1#32, [], []⟩ = .ok (.wrbyte 0xA1#8) := by decide
theorem test_decode_rdbyte : decode ⟨0x60010000#32, [], []⟩ = .ok (.rdbyte true) := by decide
theorem test_decode_reset : decode ⟨0x70000000#32, [], []⟩ = .ok .reset := by decide
/-- L1-7: `XFER { W 0x50 [0x00] ; R 0x50 NS 7 }`. -/
theorem test_decode_xfer : decode ⟨0x80000200#32, [0x000100A0#32, 0x000701A1#32], [0x00#8]⟩ =
    .ok (.xfer false [.write 0x50#7 false [0x00#8], .read 0x50#7 true 7#16]) := by decide
theorem test_decode_xfer_chain : decode ⟨0x80010100#32, [0x000100A0#32], [0x02#8]⟩ =
    .ok (.xfer true [.write 0x50#7 false [0x02#8]]) := by decide
theorem test_decode_muxsel : decode ⟨0x90000001#32, [], []⟩ = .ok (.muxsel 1#8) := by decide
/-- M-5: `MUXXFER 1 { W 0x48 [0x01, 0x02, 0x03] }`. -/
theorem test_decode_muxxfer : decode ⟨0xA0000101#32, [0x00030090#32], [1#8, 2#8, 3#8]⟩ =
    .ok (.muxxfer 1#8 false [.write 0x48#7 false [1#8, 2#8, 3#8]]) := by decide
theorem test_decode_getstate : decode ⟨0xB0000000#32, [], []⟩ = .ok .getstate := by decide

/-- D-1, D-2. -/
theorem test_decode_reserved_opcodes : [0x00000000#32, 0xC0000000#32, 0xD0000000#32, 0xE0000000#32, 0xF0000000#32].all
    (fun w => decide (decode ⟨w, [], []⟩ = .error .reservedOpcode)) = true := by decide
/-- D-3, D-4, D-6, D-7, B-9, B-10, Y-12, Y-13, X-17, M-11. -/
theorem test_decode_reserved_fields : [0x10000001#32, 0x18000000#32, 0x20000001#32, 0x70000001#32, 0xB0010000#32,
    0x30000001#32, 0x40010000#32, 0x50010055#32, 0x60000001#32, 0x80000101#32, 0x90010000#32].all
    (fun w => decide (decode ⟨w, [], []⟩ = .error .reservedField)) = true := by decide
/-- X-16, X-18, X-19. -/
theorem test_decode_malformed_operands :
    decode ⟨0x80000100#32, [0x000102A0#32], [0#8]⟩ = .error .descriptorReserved ∧
    decode ⟨0x80000100#32, [], []⟩ = .error .operandLength ∧
    decode ⟨0x80000100#32, [0x000100A0#32], [0x00#8, 0xFF#8]⟩ = .error .operandLength := by decide

theorem test_encode_xfer : encode (.xfer false [.write 0x50#7 false [0x00#8], .read 0x50#7 true 7#16]) =
    ⟨0x80000200#32, [0x000100A0#32, 0x000701A1#32], [0x00#8]⟩ := by decide

/-! ## Bus conditions (file 95, BC) -/

/-- BC-1. -/
theorem test_start_from_idle : after .start (onBus .idle .rel [true, true, false]) = { State.reset with
    bus := .started, sda := .low, draws := 3,
    trace := [.set .sda .rel, .wait 1, .set .scl .rel, .get .scl true, .get .sda true, .set .sda .low, .wait 1,
      .get .sda false, .wait 2],
    response := some ⟨0#32, 0#32, 0#32, []⟩ } := by decide

/-- BC-11: check B without readback leaves SDA low. -/
theorem test_start_check_b : (after .start (onBusWith noReadback .idle .rel [true, true, true])).status = some 2#4 ∧
    stateWord (after .start (onBusWith noReadback .idle .rel [true, true, true])) = 0x14#8 := by decide

/-- BC-7. -/
theorem test_stop : (after .stop (started [true, true])).trace =
    [.set .scl .low, .wait 1, .set .sda .low, .wait 1, .set .scl .rel, .get .scl true, .wait 2, .set .sda .rel, .wait 1,
      .get .sda true] ∧ stateWord (after .stop (started [true, true])) = 0x30#8 := by decide

/-- BC-9: a stretch of `POLL_LIMIT` polls leaves SDA low and SCL released. -/
theorem test_stop_timeout :
    (after .stop (byteInProgress [false, false, false, false, false])).status = some 3#4 ∧
    stateWord (after .stop (byteInProgress [false, false, false, false, false])) = 0x15#8 := by decide

/-- BC-14. -/
theorem test_reset_leaves_terminal : (after .reset (onBus .arbitrationLost .low [])).trace =
    [.set .scl .rel, .wait 1, .set .sda .rel, .wait 1] ∧
    stateWord (after .reset (onBus .arbitrationLost .low [])) = 0x30#8 := by decide

/-- BC-16, BC-17. -/
theorem test_getstate : (after .getstate State.reset).response = some ⟨0x30#32, 0#32, 0#32, []⟩ ∧
    (after .getstate { State.reset with muxCur := .known 1#8 }).response = some ⟨0x70#32, 0#32, 1#32, []⟩ := by decide

/-! ## Bits and bytes (file 95, B and Y) -/

/-- B-1: a 0 bit is not checked. -/
theorem test_wrbit_zero : (after (.wrbit false) (started [true])).trace =
    [.set .scl .low, .wait 1, .set .sda .low, .wait 1, .set .scl .rel, .get .scl true, .wait 2] ∧
    stateWord (after (.wrbit false) (started [true])) = 0x12#8 := by decide

/-- B-3. -/
theorem test_wrbit_arbitration : (after (.wrbit true) (started [true, false])).status = some 2#4 ∧
    (after (.wrbit true) (started [true, false])).trace.length = 7 := by decide

/-- B-5, B-6. -/
theorem test_rdbit : (after .rdbit (started [true, true])).response = some ⟨1#32, 0#32, 0#32, []⟩ ∧
    (after .rdbit State.reset).response = some ⟨0x40000000#32, 0#32, 0#32, []⟩ := by decide

/-- Y-1. -/
theorem test_wrbyte : (after (.wrbyte 0xA0#8) (started (sent 0xA0#8 false))).response =
    some ⟨0x00010000#32, 0#32, 0#32, []⟩ ∧
    (after (.wrbyte 0xA0#8) (started (sent 0xA0#8 false))).trace.length = 66 := by decide

/-- Y-6: the failure at bit 0 comes after seven 0 bits. -/
theorem test_wrbyte_arbitration :
    (after (.wrbyte 0x01#8) (started [true, true, true, true, true, true, true, true, false])).status = some 2#4 ∧
    ticks (after (.wrbyte 0x01#8) (started [true, true, true, true, true, true, true, true, false])).trace = 30 := by
  decide

/-- Y-7. -/
theorem test_rdbyte_nack : (after (.rdbyte false) (byteInProgress (received 0x30#8 ++ [true, true]))).response =
    some ⟨0x30#32, 0#32, 0#32, []⟩ := by decide

/-- Y-8: an ack leaves SDA low. -/
theorem test_rdbyte_ack : stateWord (after (.rdbyte true) (byteInProgress (received 0xFF#8 ++ [true]))) = 0x12#8 := by
  decide

/-! ## Transfers and the mux (file 95, X and M) -/

/-- L1-6: the read step. -/
theorem test_xfer_write_then_read :
    let t := after (.xfer false [.write 0x50#7 false [0x10#8], .read 0x50#7 true 2#16]) (onBus .idle .rel
      (startLevels ++ sent 0xA0#8 false ++ sent 0x10#8 false ++ startLevels ++ sent 0xA1#8 false ++
        received 0xAB#8 ++ [true] ++ received 0xCD#8 ++ [true, true] ++ stopLevels))
    t.response = some ⟨0#32, 3#32, 0#32, [0xAB#8, 0xCD#8]⟩ ∧ t.trace.length = 371 ∧ ticks t.trace = 194 := by decide +kernel

/-- X-10: a failing cleanup STOP takes the place of the nack, and the engine is reset. -/
theorem test_xfer_cleanup_fails :
    let t := after (.xfer false [.write 0x50#7 false [0x11#8]]) (onBus .idle .rel
      (startLevels ++ sent 0xA0#8 true ++ [true, false]))
    t.response = some ⟨0x20000000#32, 0#32, 0#32, []⟩ ∧ t.trace.length = 89 ∧ stateWord t = 0x30#8 := by decide +kernel

/-- M-1. -/
theorem test_muxsel :
    let t := after (.muxsel 1#8) (onBus .idle .rel
      (startLevels ++ sent 0xE0#8 false ++ sent 0x05#8 false ++ stopLevels))
    t.response = some ⟨0#32, 1#32, 0#32, []⟩ ∧ t.trace.length = 152 ∧ t.muxCur = .known 1#8 := by decide +kernel

/-- M-9: an unknown channel comes before the state check. -/
theorem test_muxsel_unknown_channel : (after (.muxsel 5#8) (onBus .timedOut .low [])).status = some 6#4 := by decide

/-- M-5: a delegated payload nack keeps the selection. -/
theorem test_muxxfer_payload_nack :
    let t := after (.muxxfer 1#8 false [.write 0x48#7 false [1#8, 2#8, 3#8]]) (onBus .idle .rel
      (startLevels ++ sent 0xE0#8 false ++ sent 0x05#8 false ++ stopLevels ++
        startLevels ++ sent 0x90#8 false ++ sent 0x01#8 false ++ sent 0x02#8 true ++ stopLevels))
    t.response = some ⟨0x10000000#32, 1#32, 1#32, []⟩ ∧ t.trace.length = 367 ∧ t.muxCur = .known 1#8 := by decide +kernel

/-! ## Steps -/

/-- A word placed at the port runs in the next step. -/
theorem test_step_runs_placed_word :
    step (State.reset.withFetchWord 32 0x70000000) = .next { State.reset with
      trace := [.set .scl .rel, .wait 1, .set .sda .rel, .wait 1], response := some ⟨0#32, 0#32, 0#32, []⟩ } := by rfl

/-- M-8: without a mux a mux command is malformed. -/
theorem test_step_mux_absent :
    step { onBusWith noMux .idle .rel [] with port := [⟨0x90000000#32, [], []⟩] } =
      .next { onBusWith noMux .idle .rel [] with response := some ⟨0x50000000#32, 0#32, 0#32, []⟩ } := by rfl

/-! ## The notation (R113, L1-7) -/

theorem test_assemble_xfer : Assembler.assemble
    ['X', 'F', 'E', 'R', ' ', Char.ofNat 123, ' ', 'W', ' ', '0', 'x', '5', '0', ' ', '[', '0', 'x', '0', '0', ']', ' ', ';',
     ' ', 'R', ' ', '0', 'x', '5', '0', ' ', 'N', 'S', ' ', '7', ' ', Char.ofNat 125] =
    some ⟨0x80000200#32, [0x000100A0#32, 0x000701A1#32], [0x00#8]⟩ := by decide

/-- How R113's `XFER CHAIN { W 80 NS [ 0 ] ; R 0 7 }` is written. -/
theorem test_written_xfer : Assembler.written ((Assembler.Source.xfer true [.write 80 true [0], .read 0 false 7]).texts false) =
    ['X', 'F', 'E', 'R', ' ', 'C', 'H', 'A', 'I', 'N', ' ', Char.ofNat 123, ' ', 'W', ' ', '8', '0', ' ', 'N', 'S', ' ',
     '[', ' ', '0', ' ', ']', ' ', ';', ' ', 'R', ' ', '0', ' ', '7', ' ', Char.ofNat 125, ' '] := by decide

/-- In hexadecimal, `SMB_SEND 0x7f , 0xa0`. -/
theorem test_written_smb_send : Assembler.written ((Assembler.PseudoSource.send 127 160).texts true) =
    ['S', 'M', 'B', '_', 'S', 'E', 'N', 'D', ' ', '0', 'x', '7', 'f', ' ', ',', ' ', '0', 'x', 'a', '0', ' '] := by decide

/-- An address of 128 has no encoding (R113). -/
theorem test_line_rejected : Assembler.parseLine (Assembler.written ((Assembler.Source.xfer false [.read 128 false 1]).texts true)) =
    none := by decide

/-! ## Witnesses: for every statement of Certificates/Slice0/Obligations.lean that has hypotheses, states and operands that
meet them, one theorem per clause where the clauses differ -/

/-- Every command gives a next state, which `after` names. -/
theorem exec_after (i : Instr) (s : State) : exec i s = .next (after i s) := by cases i <;> rfl

/-- Five low polls: `POLL_LIMIT` of the parameters used here. -/
def fiveLow : List Level := [false, false, false, false, false]

theorem vectors_pollLimit : pollLimit Config.vectors = 5 := by decide

theorem witness_ConstructionSetsResetTable : State.construct? Config.vectors = some State.reset := by rfl

theorem witness_ConstructionRefusesIllegal :
    (State.construct? Config.vectors).isSome = true ∧
    (State.construct? { Config.vectors with timeout := 4 }).isSome = false ∧
    (State.construct? { Config.vectors with timeout := 5 }).isSome = true ∧
    (State.construct? { Config.vectors with pollInterval := 0 }).isSome = false ∧
    (State.construct? { Config.vectors with channels := [⟨0#8, 4#8⟩, ⟨0#8, 5#8⟩] }).isSome = false := by decide

theorem witness_ConfigurationIsNeverWritten : ∃ t, exec .start (onBus .idle .rel startLevels) = .next t :=
  ⟨_, exec_after _ _⟩

theorem witness_DrivesFollowTheTrace : ∃ t, exec .stop (started stopLevels) = .next t ∧ t.trace ≠ [] :=
  ⟨_, exec_after _ _, by decide⟩

theorem witness_StateMachineTable_ill : inTable .stop = true ∧ tableNext .stop State.reset.bus = none ∧
    ∃ t, exec .stop State.reset = .next t := ⟨by decide, by decide, _, exec_after _ _⟩
theorem witness_StateMachineTable_legal : inTable .start = true ∧ tableNext .start State.reset.bus = some .started ∧
    ∃ t, exec .start (onBus .idle .rel startLevels) = .next t ∧ t.status = some 0#4 :=
  ⟨by decide, by decide, _, exec_after _ _, by decide⟩
theorem witness_StateMachineTable_failure : ∃ t, exec .start (onBus .idle .rel fiveLow) = .next t ∧ t.status = some 3#4 :=
  ⟨_, exec_after _ _, by decide⟩

theorem witness_SelectionAfterEveryCommand_xfer :
    ∃ t, exec (.xfer false [.write 0x50#7 false []]) { onBus .idle .rel fiveLow with muxCur := .known 1#8 } = .next t ∧
      t.status = some 3#4 := ⟨_, exec_after _ _, by decide⟩
theorem witness_SelectionAfterEveryCommand_muxxfer :
    ∃ t u, exec (.muxsel 1#8) (onBus .idle .rel fiveLow) = .next t ∧ t.status = some 3#4 ∧
      exec (.muxxfer 1#8 false []) (onBus .idle .rel fiveLow) = .next u :=
  ⟨_, _, exec_after _ _, by decide, exec_after _ _⟩
theorem witness_SelectionAfterEveryCommand_muxsel :
    ∃ t, exec (.muxsel 1#8) (onBus .idle .rel (startLevels ++ sent 0xE0#8 false ++ sent 0x05#8 false ++ stopLevels)) =
      .next t ∧ t.status = some 0#4 := ⟨_, exec_after _ _, by decide +kernel⟩

theorem witness_SelectionSelectsNothing : Instr.muxsel 1#8 ≠ .getstate := by decide

theorem witness_WaitEndsByTheBudget_returns : legalConfig Config.vectors = true ∧
    (onBus .idle .rel [false, false, false, false, true]).scl = .rel ∧ 4 < pollLimit Config.vectors ∧
    (onBus .idle .rel [false, false, false, false, true]).env = List.replicate 4 false ++ true :: [] := by decide
theorem witness_WaitEndsByTheBudget_fails : legalConfig Config.vectors = true ∧ (onBus .idle .rel fiveLow).scl = .rel ∧
    (onBus .idle .rel fiveLow).env = List.replicate (pollLimit Config.vectors) false ++ [] := by decide

theorem witness_RefusedCommandsHaveNoEvents_state : ∃ t, exec .rdbit State.reset = .next t ∧ t.status = some 4#4 :=
  ⟨_, exec_after _ _, by decide⟩
theorem witness_RefusedCommandsHaveNoEvents_mux :
    ∃ t, exec (.muxsel 0#8) (onBusWith noMux .idle .rel []) = .next t ∧ t.status = some 5#4 :=
  ⟨_, exec_after _ _, by decide⟩
theorem witness_RefusedCommandsHaveNoEvents_channel : ∃ t, exec (.muxsel 2#8) State.reset = .next t ∧ t.status = some 6#4 :=
  ⟨_, exec_after _ _, by decide⟩

theorem witness_BusConditionsOfTheDrives_start :
    ∃ t, exec .start (onBus .idle .rel startLevels) = .next t ∧ t.status = some 0#4 ∧
      ((onBus .idle .rel startLevels).bus = .idle → (onBus .idle .rel startLevels).sda = .rel) :=
  ⟨_, exec_after _ _, by decide, by decide⟩
theorem witness_BusConditionsOfTheDrives_stop :
    ∃ t, exec .stop (started stopLevels) = .next t ∧ t.status = some 0#4 := ⟨_, exec_after _ _, by decide⟩
theorem witness_BusConditionsOfTheDrives_bits :
    (∃ t, exec (.wrbit true) (started [true, false]) = .next t ∧ t.trace ≠ []) ∧
    (∃ t, exec .rdbit (started [true, false]) = .next t ∧ t.trace ≠ []) :=
  ⟨⟨_, exec_after _ _, by decide⟩, _, exec_after _ _, by decide⟩
theorem witness_BusConditionsOfTheDrives_bytes :
    (∃ t, exec (.wrbyte 0xA0#8) (started (sent 0xA0#8 false)) = .next t ∧ t.trace ≠ []) ∧
    (∃ t, exec (.rdbyte true) (started fiveLow) = .next t ∧ t.trace ≠ []) :=
  ⟨⟨_, exec_after _ _, by decide⟩, _, exec_after _ _, by decide⟩

theorem witness_BusConditionsOfTheDrives_reset :
    (∃ t, exec .reset (started []) = .next t) ∧ (started []).sda = .low ∧ (onBus .timedOut .rel []).sda ≠ .low :=
  ⟨⟨_, exec_after _ _⟩, by decide, by decide⟩

theorem witness_HeldBusHasSeenClockHigh :
    ∃ t, exec .start (onBus .idle .rel startLevels) = .next t ∧ t.held = true ∧ t.trace ≠ [] :=
  ⟨_, exec_after _ _, by decide, by decide⟩

theorem witness_DelaySums_start : ∃ t, exec .start (byteInProgress ([false, true] ++ [true, false])) = .next t ∧
    t.status = some 0#4 := ⟨_, exec_after _ _, by decide⟩
theorem witness_DelaySums_stop : ∃ t, exec .stop (started stopLevels) = .next t ∧ t.status = some 0#4 :=
  ⟨_, exec_after _ _, by decide⟩
theorem witness_DelaySums_bits : (∃ t, exec (.wrbit false) (started [true]) = .next t ∧ t.status = some 0#4) ∧
    (∃ t, exec .rdbit (started [true, true]) = .next t ∧ t.status = some 0#4) :=
  ⟨⟨_, exec_after _ _, by decide⟩, _, exec_after _ _, by decide⟩
theorem witness_DelaySums_bytes :
    (∃ t, exec (.wrbyte 0#8) (started (sent 0#8 false)) = .next t ∧ t.status = some 0#4) ∧
    (∃ t, exec (.rdbyte true) (started (received 7#8 ++ [true])) = .next t ∧ t.status = some 0#4) :=
  ⟨⟨_, exec_after _ _, by decide⟩, _, exec_after _ _, by decide⟩
theorem witness_DelaySums_reset_getstate : (∃ t, exec .reset State.reset = .next t ∧ t.status = some 0#4) ∧
    (∃ t, exec .getstate State.reset = .next t ∧ t.status = some 0#4) :=
  ⟨⟨_, exec_after _ _, by decide⟩, _, exec_after _ _, by decide⟩

/-! The rules of START, STOP, WRBIT, RDBIT: one state for each end. -/

theorem witness_StartRule_refused : legalConfig Config.vectors = true ∧
    (onBus .timedOut .low []).bus ∉ [BusState.idle, .started, .byteInProgress] := by decide
theorem witness_StartRule_timeout : (onBus .idle .rel fiveLow).bus ∈ [BusState.idle, .started, .byteInProgress] ∧
    (onBus .idle .rel fiveLow).env = List.replicate (pollLimit Config.vectors) false ++ [] := by decide
theorem witness_StartRule_check_a : (started [false, false, false, false, true, false]).bus ∈
    [BusState.idle, .started, .byteInProgress] ∧ 4 < pollLimit Config.vectors ∧
    (started [false, false, false, false, true, false]).env = stretchDraws 4 ++ false :: [] := by decide
theorem witness_StartRule_check_b : legalConfig noReadback = true ∧ 0 < pollLimit noReadback ∧
    (onBusWith noReadback .idle .rel [true, true, true]).bus ∈ [BusState.idle, .started, .byteInProgress] ∧
    (onBusWith noReadback .idle .rel [true, true, true]).env = stretchDraws 0 ++ true :: true :: [] ∧
    noReadback.openDrainReadback = false := by decide
theorem witness_StartRule_success : 0 < pollLimit Config.vectors ∧
    (onBus .idle .rel startLevels).bus ∈ [BusState.idle, .started, .byteInProgress] ∧
    (onBus .idle .rel startLevels).env = stretchDraws 0 ++ true :: false :: [] ∧
    (Config.vectors.openDrainReadback = true ∨ false = false) := by decide

theorem witness_StopRule_refused : State.reset.bus ∉ [BusState.started, .byteInProgress] := by decide
theorem witness_StopRule_timeout : (started fiveLow).bus ∈ [BusState.started, .byteInProgress] ∧
    (started fiveLow).env = List.replicate (pollLimit Config.vectors) false ++ [] := by decide
theorem witness_StopRule_arbitration : (started [true, false]).bus ∈ [BusState.started, .byteInProgress] ∧
    0 < pollLimit Config.vectors ∧ (started [true, false]).env = stretchDraws 0 ++ false :: [] ∧
    Config.vectors.arbCheckData = true := by decide
theorem witness_StopRule_success : (byteInProgress [false, false, false, false, true, true]).bus ∈
    [BusState.started, .byteInProgress] ∧ 4 < pollLimit Config.vectors ∧
    (byteInProgress [false, false, false, false, true, true]).env = stopDraws Config.vectors 4 ++ [] := by decide

theorem witness_GetstateRule : Inv State.reset ∧ State.reset.bus = .idle :=
  ⟨⟨by decide, by decide, by decide, by decide, by decide, by simp [State.reset, State.construct], by decide⟩, by decide⟩

theorem witness_WrbitRule_refused : State.reset.bus ∉ [BusState.started, .byteInProgress] := by decide
theorem witness_WrbitRule_timeout : (started fiveLow).bus ∈ [BusState.started, .byteInProgress] ∧
    (started fiveLow).env = List.replicate (pollLimit Config.vectors) false ++ [] := by decide
theorem witness_WrbitRule_arbitration : (started [true, false]).bus ∈ [BusState.started, .byteInProgress] ∧
    0 < pollLimit Config.vectors ∧ (started [true, false]).env = stretchDraws 0 ++ false :: [] ∧
    Config.vectors.arbCheckData = true := by decide
theorem witness_WrbitRule_success : (started [false, true, true]).bus ∈ [BusState.started, .byteInProgress] ∧
    1 < pollLimit Config.vectors ∧ (started [false, true, true]).env = wrbitDraws Config.vectors 1 true ++ [] := by decide

theorem witness_RdbitRule_refused : State.reset.bus ∉ [BusState.started, .byteInProgress] := by decide
theorem witness_RdbitRule_timeout : (started fiveLow).bus ∈ [BusState.started, .byteInProgress] ∧
    (started fiveLow).env = List.replicate (pollLimit Config.vectors) false ++ [] := by decide
theorem witness_RdbitRule_success : (started [true, true]).bus ∈ [BusState.started, .byteInProgress] ∧
    0 < pollLimit Config.vectors ∧ (started [true, true]).env = stretchDraws 0 ++ true :: [] := by decide

/-! The rules of WRBYTE and RDBYTE, with the bit stretches 0, 1, 2, 3, 4, 0, 1, 2, 3. -/

/-- A stretch for every clock of a byte. -/
def stretches (j : Nat) : Nat := j % 5

theorem witness_stretches : legalConfig Config.vectors = true ∧ (∀ j ≤ 8, stretches j < pollLimit Config.vectors) ∧
    (started []).bus ∈ [BusState.started, .byteInProgress] := by decide

theorem witness_WrbyteRule_success : ∃ (s : State) (rest : List Level), s = started (wrbyteDraws Config.vectors stretches 0xA5#8 true) ∧
    s.env = wrbyteDraws s.cfg stretches 0xA5#8 true ++ rest := ⟨_, [], rfl, by decide⟩
theorem witness_WrbyteRule_timeout : ∃ (s : State) (rest : List Level),
    s = started (sendDraws Config.vectors ((stretchedBits stretches 0xA5#8).take 7) ++ fiveLow) ∧ 7 < 8 ∧
    s.env = sendDraws s.cfg ((stretchedBits stretches 0xA5#8).take 7) ++ List.replicate (pollLimit s.cfg) false ++ rest :=
  ⟨_, [], rfl, by decide, by decide⟩
theorem witness_WrbyteRule_timeout_ninth : ∃ (s : State) (rest : List Level),
    s = started (sendDraws Config.vectors (stretchedBits stretches 0xA5#8) ++ fiveLow) ∧
    s.env = sendDraws s.cfg (stretchedBits stretches 0xA5#8) ++ List.replicate (pollLimit s.cfg) false ++ rest :=
  ⟨_, [], rfl, by decide⟩
theorem witness_WrbyteRule_arbitration : ∃ (s : State) (rest : List Level),
    s = started (sendDraws Config.vectors ((stretchedBits stretches 0xA5#8).take 7) ++ stretchDraws (stretches 7) ++ [false]) ∧
    (0xA5#8 : Byte).getLsbD (7 - 7) = true ∧ s.cfg.arbCheckData = true ∧
    s.env = sendDraws s.cfg ((stretchedBits stretches 0xA5#8).take 7) ++ stretchDraws (stretches 7) ++ false :: rest :=
  ⟨_, [], rfl, by decide, by decide, by decide⟩

theorem witness_RdbyteRule_success : ∃ (s : State) (rest : List Level), s = started (rdbyteDraws Config.vectors stretches 0x30#8 false) ∧
    s.env = rdbyteDraws s.cfg stretches 0x30#8 false ++ rest := ⟨_, [], rfl, by decide⟩
theorem witness_RdbyteRule_timeout : ∃ (s : State) (rest : List Level),
    s = started (receiveDraws ((stretchedBits stretches 0x30#8).take 7) ++ fiveLow) ∧ 7 < 8 ∧
    s.env = receiveDraws ((stretchedBits stretches 0x30#8).take 7) ++ List.replicate (pollLimit s.cfg) false ++ rest :=
  ⟨_, [], rfl, by decide, by decide⟩
theorem witness_RdbyteRule_timeout_ninth : ∃ (s : State) (rest : List Level),
    s = started (receiveDraws (stretchedBits stretches 0x30#8) ++ fiveLow) ∧
    s.env = receiveDraws (stretchedBits stretches 0x30#8) ++ List.replicate (pollLimit s.cfg) false ++ rest :=
  ⟨_, [], rfl, by decide⟩
theorem witness_RdbyteRule_arbitration : ∃ (s : State) (rest : List Level),
    s = started (receiveDraws (stretchedBits stretches 0x30#8) ++ stretchDraws (stretches 8) ++ [false]) ∧
    s.cfg.arbCheckData = true ∧
    s.env = receiveDraws (stretchedBits stretches 0x30#8) ++ stretchDraws (stretches 8) ++ false :: rest :=
  ⟨_, [], rfl, by decide, by decide⟩

theorem witness_ByteIsNineClocks :
    (∃ t, exec (.wrbyte 0xFF#8) (started (sent 0xFF#8 true)) = .next t ∧ t.status = some 0#4) ∧
    (∃ t, exec (.rdbyte false) (started (received 0x30#8 ++ [true, true])) = .next t ∧ t.status = some 0#4) ∧
    (∃ t, exec (.wrbit true) (started [true, true]) = .next t ∧ t.status = some 0#4) ∧
    (∃ t, exec .rdbit (started [true, true]) = .next t ∧ t.status = some 0#4) :=
  ⟨⟨_, exec_after _ _, by decide⟩, ⟨_, exec_after _ _, by decide⟩, ⟨_, exec_after _ _, by decide⟩, _, exec_after _ _,
    by decide⟩

/-! Failures. -/

theorem witness_ArbitrationLostOnlyAtChecks_start : inTable .start = true ∧
    ∃ t, exec .start (onBusWith noReadback .idle .rel [true, true, true]) = .next t ∧ t.status = some 2#4 ∧ t.sda = .low :=
  ⟨by decide, _, exec_after _ _, by decide, by decide⟩
theorem witness_ArbitrationLostOnlyAtChecks_others :
    (∃ t, exec .stop (started [true, false]) = .next t ∧ t.status = some 2#4) ∧
    (∃ t, exec (.wrbit true) (started [true, false]) = .next t ∧ t.status = some 2#4) ∧
    (∃ t, exec (.wrbyte 0x80#8) (started [true, false]) = .next t ∧ t.status = some 2#4) ∧
    (∃ t, exec (.rdbyte false) (started (received 0x30#8 ++ [true, false])) = .next t ∧ t.status = some 2#4) :=
  ⟨⟨_, exec_after _ _, by decide⟩, ⟨_, exec_after _ _, by decide⟩, ⟨_, exec_after _ _, by decide⟩, _, exec_after _ _,
    by decide⟩

theorem witness_EngineFailuresArePrecise : legalConfig Config.vectors = true ∧ inTable .stop = true ∧
    (∃ t, exec .stop (started [true, false]) = .next t ∧ t.status = some 2#4) ∧
    (∃ t, exec .stop (started fiveLow) = .next t ∧ t.status = some 3#4) :=
  ⟨by decide, by decide, ⟨_, exec_after _ _, by decide⟩, _, exec_after _ _, by decide⟩

theorem witness_IllegalStateExactlyWhereNotAdmitted : (onBus .timedOut .low []).bus ≠ .stopped ∧
    inTable .start = true ∧ tableNext .start (onBus .timedOut .low []).bus = none ∧
    (onBus .timedOut .low []).terminal = true ∧ Config.vectors.muxPresent = true ∧
    0#8 ∈ Config.vectors.channels.map (·.index) := by decide
theorem witness_IllegalStateExactlyWhereNotAdmitted_status :
    (∃ t, exec .start (onBus .timedOut .low []) = .next t ∧ t.status = some 4#4) ∧
    (∃ t, exec (.xfer true []) (onBus .timedOut .low []) = .next t ∧ t.status = some 4#4) ∧
    (∃ t, exec (.muxsel 0#8) (onBus .timedOut .low []) = .next t ∧ t.status = some 4#4) ∧
    (∃ t, exec (.muxxfer 0#8 true []) (onBus .timedOut .low []) = .next t ∧ t.status = some 4#4) :=
  ⟨⟨_, exec_after _ _, by decide⟩, ⟨_, exec_after _ _, by decide⟩, ⟨_, exec_after _ _, by decide⟩, _, exec_after _ _,
    by decide⟩

theorem witness_OnlyResetLeavesTerminal : (onBus .arbitrationLost .low []).terminal = true ∧
    (∃ t, exec .stop (onBus .arbitrationLost .low []) = .next t) ∧ (Instr.stop ≠ .reset) ∧
    (∃ t, exec .reset (onBus .arbitrationLost .low []) = .next t) :=
  ⟨by decide, ⟨_, exec_after _ _⟩, by decide, _, exec_after _ _⟩

/-! Transfers. -/

/-- The exchanges of L1-6: a written offset, then two bytes read after a repeated start. -/
def writeThenRead : List Exchange :=
  [(.write 0x50#7 false [0x10#8], []), (.read 0x50#7 true 2#16, [0xAB#8, 0xCD#8])]

theorem writeThenRead_fits : ∀ x ∈ writeThenRead, x.fits := by simp [writeThenRead, Exchange.fits, Message.isRead, Message.len]

/-- A state whose coming draws are the given ones. -/
theorem idle_with (draws : List Level) : ∃ (s : State) (rest : List Level), s = onBus .idle .rel draws ∧
    legalConfig s.cfg = true ∧ s.ready = true ∧ s.held = false ∧ s.env = draws ++ rest :=
  ⟨_, [], rfl, by rfl, by rfl, by rfl, by simp [onBus]⟩

theorem witness_XferSucceeds : writeThenRead ≠ [] ∧ (∀ x ∈ writeThenRead, x.fits) ∧ 4 < pollLimit Config.vectors ∧
    ∃ (s : State) (rest : List Level), legalConfig s.cfg = true ∧ s.ready = true ∧ s.held = false ∧ s.cfg = Config.vectors ∧
      s.env = transferDraws Config.vectors 4 false false writeThenRead ++ rest := by
  obtain ⟨s, rest, rfl, h1, h2, h3, h4⟩ := idle_with (transferDraws Config.vectors 4 false false writeThenRead)
  exact ⟨by decide, writeThenRead_fits, by decide, _, rest, h1, h2, h3, rfl, h4⟩

theorem witness_EmptyXfer : (State.reset.ready = true ∧ State.reset.held = false) ∧
    ((byteInProgress stopLevels).ready = true ∧ (byteInProgress stopLevels).held = true ∧ 0 < pollLimit Config.vectors ∧
      (byteInProgress stopLevels).env = stopDraws Config.vectors 0 ++ []) := by decide

theorem witness_XferRefusedOnTerminalEngine : (onBus .timedOut .low []).bus = .arbitrationLost ∨
    (onBus .timedOut .low []).bus = .timedOut := by decide

theorem witness_XferAddressNack : (∀ x ∈ writeThenRead, x.fits) ∧ 0 < pollLimit Config.vectors ∧
    ∃ (s : State) (rest : List Level), legalConfig s.cfg = true ∧ s.ready = true ∧ s.held = false ∧ s.cfg = Config.vectors ∧
      s.env = (exchangesDraws Config.vectors 0 [.read 0x51#7 false 1#16, .write 0x52#7 false []] false writeThenRead ++
        addressDraws Config.vectors 0 (false || !writeThenRead.isEmpty) (.read 0x51#7 false 1#16) true ++
        stopDraws Config.vectors 0) ++ rest := by
  obtain ⟨s, rest, rfl, h1, h2, h3, h4⟩ := idle_with
    (exchangesDraws Config.vectors 0 [.read 0x51#7 false 1#16, .write 0x52#7 false []] false writeThenRead ++
      addressDraws Config.vectors 0 (false || !writeThenRead.isEmpty) (.read 0x51#7 false 1#16) true ++
      stopDraws Config.vectors 0)
  exact ⟨writeThenRead_fits, by decide, _, rest, h1, h2, h3, rfl, h4⟩

theorem witness_XferPayloadNack : (∀ x ∈ writeThenRead, x.fits) ∧ 0 < pollLimit Config.vectors ∧
    ∃ (s : State) (rest : List Level), legalConfig s.cfg = true ∧ s.ready = true ∧ s.held = false ∧ s.cfg = Config.vectors ∧
      s.env = (exchangesDraws Config.vectors 0 [.write 0x51#7 true [1#8, 2#8, 3#8]] false writeThenRead ++
        addressDraws Config.vectors 0 (false || !writeThenRead.isEmpty) (.write 0x51#7 true [1#8, 2#8, 3#8]) false ++
        writeDraws Config.vectors 0 [1#8] ++ wrbyteDraws Config.vectors (fun _ => 0) 2#8 true ++
        stopDraws Config.vectors 0) ++ rest := by
  obtain ⟨s, rest, rfl, h1, h2, h3, h4⟩ := idle_with
    (exchangesDraws Config.vectors 0 [.write 0x51#7 true [1#8, 2#8, 3#8]] false writeThenRead ++
      addressDraws Config.vectors 0 (false || !writeThenRead.isEmpty) (.write 0x51#7 true [1#8, 2#8, 3#8]) false ++
      writeDraws Config.vectors 0 [1#8] ++ wrbyteDraws Config.vectors (fun _ => 0) 2#8 true ++ stopDraws Config.vectors 0)
  exact ⟨writeThenRead_fits, by decide, _, rest, h1, h2, h3, rfl, h4⟩

theorem witness_XferCleanupStopTimesOut : 0 < pollLimit Config.vectors ∧
    ∃ (s : State) (rest : List Level), legalConfig s.cfg = true ∧ s.ready = true ∧ s.held = false ∧ s.cfg = Config.vectors ∧
      s.env = (addressDraws Config.vectors 0 false (.write 0x51#7 false []) true ++
        List.replicate (pollLimit Config.vectors) false) ++ rest := by
  obtain ⟨s, rest, rfl, h1, h2, h3, h4⟩ := idle_with
    (addressDraws Config.vectors 0 false (.write 0x51#7 false []) true ++ List.replicate (pollLimit Config.vectors) false)
  exact ⟨by decide, _, rest, h1, h2, h3, rfl, h4⟩

theorem witness_XferPayloadTimeout : (∀ x ∈ writeThenRead, x.fits) ∧ 0 < pollLimit Config.vectors ∧
    ∃ (s : State) (rest : List Level), legalConfig s.cfg = true ∧ s.ready = true ∧ s.held = false ∧ s.cfg = Config.vectors ∧
      s.env = (exchangesDraws Config.vectors 0 [.write 0x51#7 true [1#8, 2#8, 3#8]] false writeThenRead ++
        addressDraws Config.vectors 0 (false || !writeThenRead.isEmpty) (.write 0x51#7 true [1#8, 2#8, 3#8]) false ++
        writeDraws Config.vectors 0 [1#8] ++ List.replicate (pollLimit Config.vectors) false) ++ rest := by
  obtain ⟨s, rest, rfl, h1, h2, h3, h4⟩ := idle_with
    (exchangesDraws Config.vectors 0 [.write 0x51#7 true [1#8, 2#8, 3#8]] false writeThenRead ++
      addressDraws Config.vectors 0 (false || !writeThenRead.isEmpty) (.write 0x51#7 true [1#8, 2#8, 3#8]) false ++
      writeDraws Config.vectors 0 [1#8] ++ List.replicate (pollLimit Config.vectors) false)
  exact ⟨writeThenRead_fits, by decide, _, rest, h1, h2, h3, rfl, h4⟩

/-- Where a failing STOP, a failing START and a failing 1 bit are found in the lists of failing runs. -/
theorem failing_runs : stopFailures Config.vectors 0 ≠ [] ∧ startFailures Config.vectors 0 true ≠ [] ∧
    (wrbyteFailures Config.vectors 0 0x81#8).length = 11 ∧ (rdbyteFailures Config.vectors 0 0x30#8 false).length = 10 ∧
    (rdbyteFailures Config.vectors 0 0x30#8 true).length = 9 := by decide

theorem witness_XferCleanupStopFails_address : (∀ x ∈ writeThenRead, x.fits) ∧ 0 < pollLimit Config.vectors ∧
    ∃ f ∈ stopFailures Config.vectors 0, f.bus = .arbitrationLost ∧
    ∃ (s : State) (rest : List Level), legalConfig s.cfg = true ∧ s.ready = true ∧ s.held = false ∧ s.cfg = Config.vectors ∧
      s.env = (f.after (exchangesDraws Config.vectors 0 [.read 0x51#7 false 1#16] false writeThenRead ++
        addressDraws Config.vectors 0 (false || !writeThenRead.isEmpty) (.read 0x51#7 false 1#16) true) []).draws ++ rest := by
  refine ⟨writeThenRead_fits, by decide, (stopFailures Config.vectors 0)[1], by decide, by decide, ?_⟩
  obtain ⟨s, rest, rfl, h1, h2, h3, h4⟩ := idle_with (((stopFailures Config.vectors 0)[1]).after
    (exchangesDraws Config.vectors 0 [.read 0x51#7 false 1#16] false writeThenRead ++
      addressDraws Config.vectors 0 (false || !writeThenRead.isEmpty) (.read 0x51#7 false 1#16) true) []).draws
  exact ⟨_, rest, h1, h2, h3, rfl, h4⟩

theorem witness_XferCleanupStopFails_payload : ∃ f ∈ stopFailures Config.vectors 0, f.bus = .timedOut ∧
    ∃ (s : State) (rest : List Level), legalConfig s.cfg = true ∧ s.ready = true ∧ s.held = false ∧ s.cfg = Config.vectors ∧
      s.env = (f.after (exchangesDraws Config.vectors 0 [.write 0x51#7 true [1#8, 2#8]] false [] ++
        addressDraws Config.vectors 0 (false || !([] : List Exchange).isEmpty) (.write 0x51#7 true [1#8, 2#8]) false ++
        writeDraws Config.vectors 0 [1#8] ++ wrbyteDraws Config.vectors (fun _ => 0) 2#8 true) []).draws ++ rest := by
  refine ⟨(stopFailures Config.vectors 0)[0], by decide, by decide, ?_⟩
  obtain ⟨s, rest, rfl, h1, h2, h3, h4⟩ := idle_with (((stopFailures Config.vectors 0)[0]).after
    (exchangesDraws Config.vectors 0 [.write 0x51#7 true [1#8, 2#8]] false [] ++
      addressDraws Config.vectors 0 (false || !([] : List Exchange).isEmpty) (.write 0x51#7 true [1#8, 2#8]) false ++
      writeDraws Config.vectors 0 [1#8] ++ wrbyteDraws Config.vectors (fun _ => 0) 2#8 true) []).draws
  exact ⟨_, rest, h1, h2, h3, rfl, h4⟩

theorem witness_XferPayloadByteFails_write : (∀ x ∈ writeThenRead, x.fits) ∧ 0 < pollLimit Config.vectors ∧
    ∃ f ∈ wrbyteFailures Config.vectors 0 0x81#8, f.bus = .arbitrationLost ∧
    ∃ (s : State) (rest : List Level), legalConfig s.cfg = true ∧ s.ready = true ∧ s.held = false ∧ s.cfg = Config.vectors ∧
      s.env = (f.after (exchangesDraws Config.vectors 0 [.write 0x51#7 false [1#8, 0x81#8]] false writeThenRead ++
        addressDraws Config.vectors 0 (false || !writeThenRead.isEmpty) (.write 0x51#7 false [1#8, 0x81#8]) false ++
        writeDraws Config.vectors 0 [1#8]) []).draws ++ rest := by
  refine ⟨writeThenRead_fits, by decide, (wrbyteFailures Config.vectors 0 0x81#8)[9]'(by decide), by decide, by decide, ?_⟩
  obtain ⟨s, rest, rfl, h1, h2, h3, h4⟩ := idle_with (((wrbyteFailures Config.vectors 0 0x81#8)[9]'(by decide)).after
    (exchangesDraws Config.vectors 0 [.write 0x51#7 false [1#8, 0x81#8]] false writeThenRead ++
      addressDraws Config.vectors 0 (false || !writeThenRead.isEmpty) (.write 0x51#7 false [1#8, 0x81#8]) false ++
      writeDraws Config.vectors 0 [1#8]) []).draws
  exact ⟨_, rest, h1, h2, h3, rfl, h4⟩

/-- The last byte of the last Read message, where the nack finds SDA low. -/
theorem witness_XferPayloadByteFails_read : [0xAB#8].length < (2#16).toNat ∧
    (!(isLastRead (.read 0x51#7 false 2#16) [.write 0x52#7 false []] && [0xAB#8].length + 1 == (2#16).toNat)) = false ∧
    ∃ f ∈ rdbyteFailures Config.vectors 0 0x30#8 false, f.bus = .arbitrationLost ∧
    ∃ (s : State) (rest : List Level), legalConfig s.cfg = true ∧ s.ready = true ∧ s.held = false ∧ s.cfg = Config.vectors ∧
      s.env = (f.after (exchangesDraws Config.vectors 0 [.read 0x51#7 false 2#16, .write 0x52#7 false []] false [] ++
        addressDraws Config.vectors 0 (false || !([] : List Exchange).isEmpty) (.read 0x51#7 false 2#16) false ++
        readDraws Config.vectors 0 false [0xAB#8]) []).draws ++ rest := by
  refine ⟨by decide, by decide, (rdbyteFailures Config.vectors 0 0x30#8 false)[9]'(by decide), by decide, by decide, ?_⟩
  obtain ⟨s, rest, rfl, h1, h2, h3, h4⟩ := idle_with (((rdbyteFailures Config.vectors 0 0x30#8 false)[9]'(by decide)).after
    (exchangesDraws Config.vectors 0 [.read 0x51#7 false 2#16, .write 0x52#7 false []] false [] ++
      addressDraws Config.vectors 0 (false || !([] : List Exchange).isEmpty) (.read 0x51#7 false 2#16) false ++
      readDraws Config.vectors 0 false [0xAB#8]) []).draws
  exact ⟨_, rest, h1, h2, h3, rfl, h4⟩

/-- The four clauses on a held bus: STOP before a message without no_start, its START, its address byte, the final STOP. -/
theorem witness_XferBusConditionOrAddressFails : ∀ f : FailedRun,
    f ∈ stopFailures Config.vectors 0 ∨ f ∈ startFailures Config.vectors 0 false ∨
      f ∈ wrbyteFailures Config.vectors 0 (Message.addressByte (.write 0x50#7 false [])) →
    ∃ (s : State) (rest : List Level), legalConfig s.cfg = true ∧ s.ready = true ∧ s.held = true ∧ s.cfg = Config.vectors ∧
      s.env = (f.after (stopBeforeDraws Config.vectors 0 true (.write 0x50#7 false [])) []).draws ++ rest :=
  fun f _ => ⟨byteInProgress (f.after (stopBeforeDraws Config.vectors 0 true (.write 0x50#7 false [])) []).draws, [],
    by rfl, by rfl, by rfl, by rfl, by simp [byteInProgress, onBus]⟩

theorem witness_XferEndState_success : (onBus .idle .rel []).ready = true ∧
    ((onBus .idle .rel []).bus = .idle → (onBus .idle .rel []).scl = .rel ∧ (onBus .idle .rel []).sda = .rel) ∧
    (∃ t, exec (.xfer true [.write 0x50#7 false []]) (onBus .idle .rel (startLevels ++ sent 0xA0#8 false)) = .next t ∧
      t.status = some 0#4) ∧
    (∃ t, exec (.xfer false []) (onBus .idle .rel []) = .next t ∧ t.status = some 0#4) :=
  ⟨by decide, by decide, ⟨_, exec_after _ _, by decide +kernel⟩, _, exec_after _ _, by decide⟩
theorem witness_XferEndState_nack :
    ∃ t, exec (.xfer true [.write 0x50#7 false []]) (onBus .idle .rel (startLevels ++ sent 0xA0#8 true ++ stopLevels)) =
      .next t ∧ t.status = some 1#4 := ⟨_, exec_after _ _, by decide +kernel⟩
theorem witness_XferEndState_failure :
    (∃ t, exec (.xfer true [.write 0x50#7 false []]) (onBus .idle .rel fiveLow) = .next t ∧ t.status = some 3#4) ∧
    (∃ t, exec (.xfer true [.write 0x50#7 false []]) (onBusWith noAutoReset .idle .rel [true, false]) = .next t ∧
      t.status = some 2#4) := ⟨⟨_, exec_after _ _, by decide⟩, _, exec_after _ _, by decide⟩

theorem witness_XferCountIsBounded : (Instr.xfer true [.write 0x50#7 false []]).wellFormed = true ∧
    ∃ t r, exec (.xfer true [.write 0x50#7 false []]) (onBus .idle .rel (startLevels ++ sent 0xA0#8 false)) = .next t ∧
      t.response = some r ∧ r.status = 0#4 :=
  ⟨by decide, _, ⟨0#32, 0#32, 0#32, []⟩, exec_after _ _, by decide +kernel, by decide⟩

theorem witness_AddressProbe : (∀ j ≤ 11, stretches j < pollLimit Config.vectors) ∧
    (Config.vectors.openDrainReadback = true ∨ true = false) ∧
    ∃ (s : State) (rest : List Level), legalConfig s.cfg = true ∧ s.ready = true ∧ s.held = false ∧ s.cfg = Config.vectors ∧
      s.env = (startDraws (stretches 0) true ++
        wrbyteDraws Config.vectors (fun j => stretches (j + 1)) (Message.addressByte (.read 0x7F#7 false 0#16)) false ++
        stopDraws Config.vectors (stretches 10)) ++ rest := by
  obtain ⟨s, rest, rfl, h1, h2, h3, h4⟩ := idle_with (startDraws (stretches 0) true ++
    wrbyteDraws Config.vectors (fun j => stretches (j + 1)) (Message.addressByte (.read 0x7F#7 false 0#16)) false ++
    stopDraws Config.vectors (stretches 10))
  exact ⟨by decide, by decide, _, rest, h1, h2, h3, rfl, h4⟩

/-! The mux. -/

theorem witness_ChannelLookup : legalConfig Config.vectors = true ∧ Config.vectors.muxPresent = true ∧
    (∀ ch ∈ Config.vectors.channels, ch.index ≠ 2#8) := by decide

theorem witness_MuxselRule : (∀ ch ∈ Config.vectors.channels, ch.index ≠ 2#8) ∧
    (⟨1#8, 5#8⟩ : MuxChannel) ∈ Config.vectors.channels ∧
    ∃ t, exec (.xfer false [.write 0x70#7 false [5#8]])
      (onBus .idle .rel (startLevels ++ sent 0xE0#8 false ++ sent 5#8 false ++ stopLevels)) = .next t ∧
      t.status = some 0#4 := ⟨by decide, by decide, _, exec_after _ _, by decide +kernel⟩

theorem witness_MuxselSucceeds : (⟨1#8, 5#8⟩ : MuxChannel) ∈ Config.vectors.channels ∧ 0 < pollLimit Config.vectors ∧
    ∃ (s : State) (rest : List Level), legalConfig s.cfg = true ∧ s.ready = true ∧ s.held = false ∧ s.cfg = Config.vectors ∧
      s.env = (startDraws 0 false ++ wrbyteDraws Config.vectors (fun _ => 0) (0x70#7 ++ 0#1) false ++
        wrbyteDraws Config.vectors (fun _ => 0) 5#8 false ++ stopDraws Config.vectors 0) ++ rest := by
  obtain ⟨s, rest, rfl, h1, h2, h3, h4⟩ := idle_with (startDraws 0 false ++
    wrbyteDraws Config.vectors (fun _ => 0) (0x70#7 ++ 0#1) false ++ wrbyteDraws Config.vectors (fun _ => 0) 5#8 false ++
    stopDraws Config.vectors 0)
  exact ⟨by decide, by decide, _, rest, h1, h2, h3, rfl, h4⟩

theorem witness_MuxxferRule_forwards : Config.vectors.muxPresent = true ∧
    ∃ t u, exec (.muxsel 1#8) (onBus .idle .rel (startLevels ++ sent 0xE0#8 false ++ sent 5#8 false ++ stopLevels)) =
      .next t ∧ t.status = some 0#4 ∧ exec (.xfer false []) t = .next u :=
  ⟨by decide, _, _, exec_after _ _, by decide +kernel, exec_after _ _⟩
theorem witness_MuxxferRule_fails_fast : ∃ t u, exec (.muxsel 2#8) State.reset = .next t ∧ t.status = some 6#4 ∧
    exec (.xfer false []) t = .next u := ⟨_, _, exec_after _ _, by decide, exec_after _ _⟩

theorem witness_MuxxferSucceeds : (⟨1#8, 5#8⟩ : MuxChannel) ∈ Config.vectors.channels ∧ 0 < pollLimit Config.vectors ∧
    (∀ x ∈ writeThenRead, x.fits) ∧
    ∃ (s : State) (rest : List Level), legalConfig s.cfg = true ∧ s.ready = true ∧ s.held = false ∧ s.cfg = Config.vectors ∧
      s.env = (transferDraws Config.vectors 0 false false [(.write 0x70#7 false [5#8], [])] ++
        transferDraws Config.vectors 0 false true writeThenRead) ++ rest := by
  obtain ⟨s, rest, rfl, h1, h2, h3, h4⟩ := idle_with (transferDraws Config.vectors 0 false false
    [(.write 0x70#7 false [5#8], [])] ++ transferDraws Config.vectors 0 false true writeThenRead)
  exact ⟨by decide, by decide, writeThenRead_fits, _, rest, h1, h2, h3, rfl, h4⟩

/-! Encoding and steps. -/

theorem witness_DecodeEncodeRoundTrip : (Instr.xfer true (writeThenRead.map (·.1))).wellFormed = true ∧
    (Instr.muxxfer 0xFF#8 true [.read 0x7F#7 true 0xFFFF#16]).wellFormed = true := by decide

theorem witness_EncodeDecodeRoundTrip : decode ⟨0xA0010100#32, [0xFFFF01FF#32], []⟩ =
    .ok (.muxxfer 0#8 true [.read 0x7F#7 true 0xFFFF#16]) := by decide

theorem witness_MalformedRecordsAreRefused_form : ¬ wellFormedRecord ⟨0x80000100#32, [], []⟩ := by
  simp [wellFormedRecord, opcodeOf, opField, descriptorCount, nField]
theorem witness_MalformedRecordsAreRefused_mux : isMuxRecord ⟨0x90000000#32, [], []⟩ = true ∧
    (onBusWith noMux .idle .rel []).cfg.muxPresent = false := by decide
theorem witness_MalformedRecordsAreRefused_status : ∃ t, runRecord ⟨0#32, [], []⟩ State.reset = .next t ∧
    t.status = some 5#4 := ⟨refuseMalformed State.reset, by rfl, by decide⟩

theorem witness_LinesParseToTheirCommands_assembles : Assembler.assemble ['s', 't', 'o', 'p'] = some ⟨0x20000000#32, [], []⟩ := by decide

theorem witness_StepRunsDecodedCommand : ∃ (s : State) (t : State), s = { State.reset with
      port := [⟨0x10000000#32, [], []⟩, ⟨0x20000000#32, [], []⟩] } ∧ legalConfig s.cfg = true ∧ s.lock = .free ∧
    s.port = ⟨0x10000000#32, [], []⟩ :: [⟨0x20000000#32, [], []⟩] ∧ decode ⟨0x10000000#32, [], []⟩ = .ok .start ∧
    exec .start { s with port := [⟨0x20000000#32, [], []⟩], lock := .held } = .next t :=
  ⟨_, _, rfl, by rfl, rfl, rfl, by decide, exec_after _ _⟩

theorem witness_StepRefusesMalformedRecord_form : ¬ wellFormedRecord ⟨0x10000001#32, [], []⟩ ∧
    ∃ s : State, legalConfig s.cfg = true ∧ s.lock = .free ∧ s.port = ⟨0x10000001#32, [], []⟩ :: [] :=
  ⟨by simp [wellFormedRecord, opcodeOf, opField, Opcode.mask, Opcode.pattern],
    { State.reset with port := [⟨0x10000001#32, [], []⟩] }, by decide, rfl, rfl⟩
theorem witness_StepRefusesMalformedRecord_mux : isMuxRecord ⟨0x90000000#32, [], []⟩ = true ∧
    ∃ s : State, legalConfig s.cfg = true ∧ s.lock = .free ∧ s.port = ⟨0x90000000#32, [], []⟩ :: [] ∧
      s.cfg.muxPresent = false :=
  ⟨by decide, { onBusWith noMux .idle .rel [] with port := [⟨0x90000000#32, [], []⟩] }, by decide, rfl, rfl, rfl⟩

theorem witness_StepWaits : (legalConfig State.reset.cfg = true ∧ State.reset.port = []) ∧
    ({ State.reset with lock := .held } : State).lock = .held := by decide

theorem witness_PlacedWordRuns : legalConfig State.reset.cfg = true ∧ decodeTableWord 32 0xB0000000 = some .getstate ∧
    ∃ t, exec .getstate { State.reset with lock := .held } = .next t := ⟨by decide, by decide, _, exec_after _ _⟩

theorem witness_EveryWaitingCommandRuns : ∃ s : State, legalConfig s.cfg = true ∧ s.lock = .free ∧ s.port.length = 2 :=
  ⟨{ State.reset with port := [⟨0x10000000#32, [], []⟩, ⟨0#32, [], []⟩] }, by decide⟩

theorem witness_StepKeepsInvariant : ∃ s t : State, Inv s ∧ step s = .next t ∧ s.port ≠ [] :=
  ⟨{ State.reset with port := [⟨0x70000000#32, [], []⟩] }, _,
    ⟨by decide, by decide, by decide, by decide, by decide, by simp [State.reset, State.construct], by decide⟩, rfl, by decide⟩

theorem witness_ConstructionMeetsInvariant : State.construct? noMux = some (State.construct noMux) := by rfl

end Sys2Proof.Tests
end

/-! ## How a step serves a command (R80, R33)

The rules of `step`, one per operation that it is made of: the taking of a record with the lock, the decoding of the record,
and the giving back of the lock. -/

namespace Sys2Proof.Machine

/-- R20, R33: on a free lock the head of the port is taken out of it and takes the lock. -/
theorem State.takeCommand_of_free {s : State} {r : Record} {rest : List Record} (hfree : s.lock = .free)
    (hport : s.port = r :: rest) : s.takeCommand = some (r, { s with port := rest, lock := .held }) := by
  simp only [State.takeCommand, hfree, hport]

/-- A record that decodes runs as its command. -/
theorem runRecord_of_decode {r : Record} {i : Instr} (s : State) (hdecode : decode r = .ok i) :
    runRecord r s = exec i s := by
  simp only [runRecord, hdecode]

/-- A command that completes gives the lock back (R33). -/
@[simp] theorem releasing_next (t : State) : releasing (.next t) = .next t.releaseLock := rfl

/-- R80: with a free lock, a step of a legal state serves the head of the port, whatever record that is. -/
theorem step_of_waiting {s : State} {r : Record} {rest : List Record} (hlegal : legalConfig s.cfg = true)
    (hfree : s.lock = .free) (hport : s.port = r :: rest) :
    step s = releasing (runRecord r { s with port := rest, lock := .held }) := by
  simp only [step, hlegal, State.takeCommand_of_free hfree hport, if_true]

/-- Settles O49: the waiting record is served, it decodes to `i`, and the state in which `i` completes gives the lock
back. -/
theorem stepRunsDecodedCommand : Obligations.StepRunsDecodedCommand := by
  intro r rest i s t hlegal hfree hport hdecode hexec
  calc step s = releasing (runRecord r { s with port := rest, lock := .held }) := step_of_waiting hlegal hfree hport
    _ = releasing (exec i { s with port := rest, lock := .held }) := by rw [runRecord_of_decode _ hdecode]
    _ = releasing (.next t) := by rw [hexec]
    _ = .next { t with lock := .free } := releasing_next t

end Sys2Proof.Machine

/-! ## Every command in one equation: the state it completes in -/

namespace Sys2Proof.Machine

theorem exec_start (s : State) :
    exec .start s = .next ((engStart s.beginCommand).complete fun _ => Result.success) := rfl

theorem exec_stop (s : State) :
    exec .stop s = .next ((engStop s.beginCommand).complete fun _ => Result.success) := rfl

theorem exec_wrbit (b : Bool) (s : State) :
    exec (.wrbit b) s = .next ((engWrbit b s.beginCommand).complete fun _ => Result.success) := rfl

theorem exec_rdbit (s : State) :
    exec .rdbit s =
      .next ((engRdbit s.beginCommand).complete fun v => Result.valued ((BitVec.ofBool v).setWidth 8)) := rfl

theorem exec_wrbyte (d : Byte) (s : State) :
    exec (.wrbyte d) s = .next ((engWrbyte d s.beginCommand).complete Result.acknowledged) := rfl

theorem exec_rdbyte (a : Bool) (s : State) :
    exec (.rdbyte a) s = .next ((engRdbyte a s.beginCommand).complete Result.valued) := rfl

theorem exec_reset (s : State) : exec .reset s = .next ((releaseBus s.beginCommand).answer Result.success) := rfl

theorem exec_xfer (chain : Bool) (msgs : List Message) (s : State) :
    exec (.xfer chain msgs) s =
      .next ((transfer chain msgs s.beginCommand).2.answer (transfer chain msgs s.beginCommand).1) := rfl

theorem exec_muxsel (c : Byte) (s : State) :
    exec (.muxsel c) s =
      .next (if s.cfg.muxPresent then (muxSelect c s.beginCommand).2.answer (muxSelect c s.beginCommand).1
        else refuseMalformed s) := rfl

theorem exec_muxxfer (c : Byte) (chain : Bool) (msgs : List Message) (s : State) :
    exec (.muxxfer c chain msgs) s =
      .next (if s.cfg.muxPresent then
          (muxTransfer c chain msgs s.beginCommand).2.answer (muxTransfer c chain msgs s.beginCommand).1
        else refuseMalformed s) := rfl

theorem exec_getstate (s : State) :
    exec .getstate s =
      .next (s.beginCommand.answer { outcome := .ok, value := stateWord s, muxIndex := s.muxCur.indexOrZero }) := rfl

/-! ## What a command keeps

A predicate on states is kept by every command if the engine commands, the release of the bus, the two ways of moving the
selection and the delivery of the response keep it. -/

/-- The engine command ends, well or badly, in a state with `P`. -/
def Res.Leaves {α : Type} (r : Res α) (P : State → Prop) : Prop := r.Ends (fun _ t => P t) fun _ t => P t

/-- The transfer goes on or is over, in a state with `P`. -/
def Run.Leaves {α : Type} (r : Run α) (P : State → Prop) : Prop := r.Ends (fun _ t => P t) fun _ t => P t

section Leaves
variable {α β : Type} {P : State → Prop}

theorem Res.Leaves.andThen {r : Res α} {k : α → State → Res β} (h : r.Leaves P) (hk : ∀ a t, P t → (k a t).Leaves P) :
    (r.andThen k).Leaves P := Res.Ends.andThen h hk

theorem Run.Leaves.andThen {r : Run α} {k : α → State → Run β} (h : r.Leaves P) (hk : ∀ a t, P t → (k a t).Leaves P) :
    (r.andThen k).Leaves P := Run.Ends.andThen h hk

end Leaves

/-- The operations that commands are made of keep `P`. A selection becomes known only with a mux that has the channel
(R31, R242). -/
structure Kept (P : State → Prop) : Prop where
  start   : ∀ s, P s → (engStart s).Leaves P
  stop    : ∀ s, P s → (engStop s).Leaves P
  wrbit   : ∀ b s, P s → (engWrbit b s).Leaves P
  rdbit   : ∀ s, P s → (engRdbit s).Leaves P
  wrbyte  : ∀ d s, P s → (engWrbyte d s).Leaves P
  rdbyte  : ∀ a s, P s → (engRdbyte a s).Leaves P
  release : ∀ s, P s → P (releaseBus s)
  forget  : ∀ s, P s → P (s.setMux .unknown)
  select  : ∀ c s, P s → s.cfg.muxPresent = true → (channelFor s.cfg c).isSome = true → P (s.setMux (.known c))
  answer  : ∀ r s, P s → P (s.answer r)

/-- No transfer writes the configuration, the lock, the port or the response. -/
theorem transfer_steady (chain : Bool) (msgs : List Message) (s : State) : Steady s (transfer chain msgs s).2 := by
  rcases transfer_ends chain msgs s (transfer chain msgs s).1 (transfer chain msgs s).2 rfl with
    ⟨-, -, ht⟩ | ⟨-, -, -, ⟨-, -, hframe, -⟩ | hover⟩
  · rw [ht]; exact (Frame.refl s).steady
  · exact hframe.steady
  · exact hover.1

/-- A select, on a block with the channel: its transfer, and the selection that the outcome leaves (R240). -/
theorem muxSelect_of_channel {c : Byte} {ch : MuxChannel} {s : State} (hch : channelFor s.cfg c = some ch) :
    muxSelect c s =
      ((transfer false [selectMessage s.cfg ch] s).1,
       (transfer false [selectMessage s.cfg ch] s).2.setMux
         (selectionAfter c (transfer false [selectMessage s.cfg ch] s).1.outcome)) := by
  simp only [muxSelect, hch]

/-- A select of a channel that no entry of the table has (R242). -/
theorem muxSelect_of_no_channel {c : Byte} {s : State} (hch : channelFor s.cfg c = none) :
    muxSelect c s = ({ outcome := .invalidChannel }, s.setMux .unknown) := by
  simp only [muxSelect, hch]

/-- No select writes the configuration. -/
theorem muxSelect_cfg (c : Byte) (s : State) : (muxSelect c s).2.cfg = s.cfg := by
  cases hch : channelFor s.cfg c with
  | none => rw [muxSelect_of_no_channel hch]; rfl
  | some ch => rw [muxSelect_of_channel hch]; exact (transfer_steady _ _ s).cfg

namespace Kept
variable {P : State → Prop} (h : Kept P)
include h

theorem eng {α : Type} (p : Progress) {r : Res α} (hr : r.Leaves P) : (Machine.eng p r).Leaves P := by
  cases r with
  | ok a t => exact hr
  | fail f t =>
    have released : P (if t.cfg.driverAutoReset then engReset t else t) := by
      split
      · exact h.release t hr
      · exact hr
    cases f with
    | illegalState => exact hr
    | arbitrationLost => exact released
    | timeout => exact released

theorem nackExit {α : Type} (p : Progress) (k : Nat) {s : State} (hs : P s) :
    (Machine.nackExit p k s : Run α).Leaves P :=
  (h.eng p (h.stop s hs)).andThen fun _ _ ht => ht

theorem sendPayload (ds : List Byte) : ∀ (p : Progress) (k : Nat) (s : State), P s →
    (Machine.sendPayload p k ds s).Leaves P := by
  induction ds with
  | nil => exact fun _ _ _ hs => hs
  | cons d ds ih =>
    intro p k s hs
    rw [Machine.sendPayload]
    refine (h.eng p (h.wrbyte d s hs)).andThen fun ack t ht => ?_
    split
    · exact h.nackExit p k ht
    · exact ih _ _ t ht

theorem receivePayload (last : Bool) (n : Nat) : ∀ (p : Progress) (s : State), P s →
    (Machine.receivePayload last n p s).Leaves P := by
  induction n with
  | zero => exact fun _ _ hs => hs
  | succ n ih =>
    intro p s hs
    rw [Machine.receivePayload]
    exact (h.eng p (h.rdbyte _ s hs)).andThen fun _ t ht => ih _ t ht

theorem transferPayload (last : Bool) (p : Progress) (m : Message) {s : State} (hs : P s) :
    (Machine.transferPayload last p m s).Leaves P := by
  cases m with
  | write a ns payload => exact h.sendPayload payload p 0 s hs
  | read a ns len => exact h.receivePayload last len.toNat p s hs

/-- An optional STOP. -/
theorem stopIf (c : Bool) (p : Progress) {s : State} (hs : P s) :
    (if c then Machine.eng p (engStop s) else .go () s : Run Unit).Leaves P := by
  split
  · exact h.eng p (h.stop s hs)
  · exact hs

theorem runMessage (last : Bool) (p : Progress) (m : Message) {s : State} (hs : P s) :
    (Machine.runMessage last p m s).Leaves P := by
  refine (h.stopIf _ p hs).andThen fun _ t ht => ?_
  refine (h.eng p (h.start t ht)).andThen fun _ u hu => ?_
  refine (h.eng p (h.wrbyte m.addressByte u hu)).andThen fun ack v hv => ?_
  split
  · exact h.nackExit p 0 hv
  · exact h.transferPayload last p m hv

theorem runMessages (lastRead : Option Nat) (msgs : List Message) : ∀ (i : Nat) (p : Progress) (s : State), P s →
    (Machine.runMessages lastRead i p msgs s).Leaves P := by
  induction msgs with
  | nil => exact fun _ _ _ hs => hs
  | cons m msgs ih =>
    intro i p s hs
    rw [Machine.runMessages]
    exact (h.runMessage _ p m hs).andThen fun q t ht => ih _ q t ht

theorem transfer (chain : Bool) (msgs : List Message) {s : State} (hs : P s) :
    P (Machine.transfer chain msgs s).2 := by
  have hrun : (runTransfer chain msgs s).Leaves P :=
    (h.runMessages _ msgs 0 ⟨0, []⟩ s hs).andThen fun p t ht => (h.stopIf _ p ht).andThen fun _ _ hu => hu
  unfold Machine.transfer
  split
  · exact hs
  · cases hr : runTransfer chain msgs s <;> rw [hr] at hrun <;> exact hrun

theorem muxSelect (c : Byte) {s : State} (hmux : s.cfg.muxPresent = true) (hs : P s) : P (Machine.muxSelect c s).2 := by
  cases hch : channelFor s.cfg c with
  | none => rw [muxSelect_of_no_channel hch]; exact h.forget s hs
  | some ch =>
    rw [muxSelect_of_channel hch]
    have ht := h.transfer false [selectMessage s.cfg ch] hs
    have hcfg := (transfer_steady false [selectMessage s.cfg ch] s).cfg
    simp only [selectionAfter]
    split
    · exact h.select c _ ht (by rw [hcfg, hmux]) (by rw [hcfg, hch]; rfl)
    · exact h.forget _ ht

theorem muxTransfer (c : Byte) (chain : Bool) (msgs : List Message) {s : State} (hmux : s.cfg.muxPresent = true)
    (hs : P s) : P (Machine.muxTransfer c chain msgs s).2 := by
  have hsel := h.muxSelect c hmux hs
  simp only [Machine.muxTransfer]
  split
  · exact h.transfer chain msgs hsel
  · exact hsel

theorem complete {α : Type} {r : Res α} (report : α → Result) (hr : r.Leaves P) : P (r.complete report) := by
  cases r <;> exact h.answer _ _ hr

/-- Every command keeps what the operations keep, from the state with an empty trace in which it begins. -/
theorem exec {i : Instr} {s t : State} (hexec : Machine.exec i s = .next t) (hs : P s.beginCommand) : P t := by
  have refused : P (refuseMalformed s) := h.answer _ _ hs
  cases i with
  | start => rw [exec_start] at hexec; cases hexec; exact h.complete _ (h.start _ hs)
  | stop => rw [exec_stop] at hexec; cases hexec; exact h.complete _ (h.stop _ hs)
  | wrbit b => rw [exec_wrbit] at hexec; cases hexec; exact h.complete _ (h.wrbit b _ hs)
  | rdbit => rw [exec_rdbit] at hexec; cases hexec; exact h.complete _ (h.rdbit _ hs)
  | wrbyte d => rw [exec_wrbyte] at hexec; cases hexec; exact h.complete _ (h.wrbyte d _ hs)
  | rdbyte a => rw [exec_rdbyte] at hexec; cases hexec; exact h.complete _ (h.rdbyte a _ hs)
  | reset => rw [exec_reset] at hexec; cases hexec; exact h.answer _ _ (h.release _ hs)
  | xfer chain msgs => rw [exec_xfer] at hexec; cases hexec; exact h.answer _ _ (h.transfer chain msgs hs)
  | muxsel c =>
    rw [exec_muxsel] at hexec
    cases hexec
    split
    next hmux => exact h.answer _ _ (h.muxSelect c hmux hs)
    next => exact refused
  | muxxfer c chain msgs =>
    rw [exec_muxxfer] at hexec
    cases hexec
    split
    next hmux => exact h.answer _ _ (h.muxTransfer c chain msgs hmux hs)
    next => exact refused
  | getstate => rw [exec_getstate] at hexec; cases hexec; exact h.answer _ _ hs

/-- A record keeps it too: it runs as its command, or it is refused (R110). -/
theorem runRecord {r : Record} {s t : State} (hrun : Machine.runRecord r s = .next t) (hs : P s.beginCommand) : P t := by
  unfold Machine.runRecord at hrun
  split at hrun
  · exact h.exec hrun hs
  · cases hrun; exact h.answer _ _ hs

end Kept

/-! ## What one engine command does, in short -/

/-- The end of any engine command that the host or the sequencer can give, RESET apart: refused without a change, failed
into a terminal state, or completed with a high poll as its last SCL sample and the SDA drive that its bus state asks
for. -/
inductive EngineMove (s : State) : State → Prop where
  | refused : EngineMove s s
  | failed {t : State} (frame : Frame s t) (bus : t.bus = .arbitrationLost ∨ t.bus = .timedOut) (scl : t.scl = .rel) :
      EngineMove s t
  | completed {t : State} (frame : Frame s t) (scl : t.scl = .rel) (seen : lastScl t.trace = some true)
      (settled : t.bus = .idle ∧ t.sda = .rel ∨ t.bus = .started ∧ t.sda = .low ∨ t.bus = .byteInProgress) :
      EngineMove s t

theorem EngineMove.frame {s t : State} (h : EngineMove s t) : Frame s t := by
  cases h with
  | refused => exact .refl s
  | failed frame => exact frame
  | completed frame => exact frame

theorem EngineMove.of_failedAs {s t : State} {f : Failure} (h : FailedAs s f t) : EngineMove s t := by
  cases f with
  | illegalState => cases h; exact .refused
  | arbitrationLost => obtain ⟨hframe, hbus, hscl, -⟩ := h; exact .failed hframe (.inl hbus) hscl
  | timeout => obtain ⟨hframe, hbus, hscl, -⟩ := h; exact .failed hframe (.inr hbus) hscl

@[simp] theorem lastScl_stretchTrace (c : Config) (n : Nat) : lastScl (stretchTrace c n) = some true := by
  simp [stretchTrace, lastScl_append, lastScl]

@[simp] theorem lastScl_startTrace (c : Config) (repeated : Bool) (n : Nat) :
    lastScl (startTrace c repeated n) = some true := by
  simp [startTrace, lastScl_append, lastScl]

@[simp] theorem lastScl_stopTrace (c : Config) (n : Nat) : lastScl (stopTrace c n) = some true := by
  cases h : c.arbCheckData <;> simp [stopTrace, lastScl_append, lastScl, h]

@[simp] theorem lastScl_wrbitTrace (c : Config) (n : Nat) (b : Level) : lastScl (wrbitTrace c n b) = some true := by
  cases h : b && c.arbCheckData <;> simp [wrbitTrace, lastScl_append, lastScl, h]

@[simp] theorem lastScl_rdbitTrace (c : Config) (n : Nat) (v : Level) : lastScl (rdbitTrace c n v) = some true := by
  simp [rdbitTrace, lastScl_append, lastScl]

theorem engStart_moves (s : State) : (engStart s).Leaves (EngineMove s) := by
  refine (engStart_ends s).mono ?_ fun f t h => .of_failedAs h.1
  rintro _ t ⟨-, hframe, hbus, hscl, hsda, m, htrace⟩
  exact .completed hframe hscl (by simp [htrace, lastScl_append]) (.inr (.inl ⟨hbus, hsda⟩))

theorem engStop_moves (s : State) : (engStop s).Leaves (EngineMove s) := by
  refine (engStop_ends s).mono ?_ fun f t h => .of_failedAs h.1
  rintro _ t ⟨-, hframe, hbus, hscl, hsda, m, htrace⟩
  exact .completed hframe hscl (by simp [htrace, lastScl_append]) (.inl ⟨hbus, hsda⟩)

theorem engWrbit_moves (b : Level) (s : State) : (engWrbit b s).Leaves (EngineMove s) := by
  refine (engWrbit_ends b s).mono ?_ fun f t h => .of_failedAs h.1
  rintro _ t ⟨-, hframe, hbus, hscl, -, m, htrace⟩
  exact .completed hframe hscl (by simp [htrace, lastScl_append]) (.inr (.inr hbus))

theorem engRdbit_moves (s : State) : (engRdbit s).Leaves (EngineMove s) := by
  refine (engRdbit_ends s).mono ?_ fun f t h => .of_failedAs h.1
  rintro v t ⟨-, hframe, hbus, hscl, -, m, htrace⟩
  exact .completed hframe hscl (by simp [htrace, lastScl_append]) (.inr (.inr hbus))

theorem engWrbyte_moves (d : Byte) (s : State) : (engWrbyte d s).Leaves (EngineMove s) := by
  refine (engWrbyte_ends d s).mono ?_ fun f t h => .of_failedAs h.1
  rintro ack t ⟨-, hframe, hbus, hscl, -, ps, m, -, htrace⟩
  exact .completed hframe hscl (by simp [htrace, lastScl_append]) (.inr (.inr hbus))

theorem engRdbyte_moves (a : Bool) (s : State) : (engRdbyte a s).Leaves (EngineMove s) := by
  refine (engRdbyte_ends a s).mono ?_ fun f t h => .of_failedAs h.1
  rintro v t ⟨-, hframe, hbus, hscl, -, ps, m, -, -, htrace⟩
  exact .completed hframe hscl (by simp [htrace, lastScl_append]) (.inr (.inr hbus))

/-- What a move keeps is kept by all six engine commands. -/
theorem Kept.of_moves {P : State → Prop} (move : ∀ s t, EngineMove s t → P s → P t) (release : ∀ s, P s → P (releaseBus s))
    (forget : ∀ s, P s → P (s.setMux .unknown))
    (select : ∀ c s, P s → s.cfg.muxPresent = true → (channelFor s.cfg c).isSome = true → P (s.setMux (.known c)))
    (answer : ∀ r s, P s → P (s.answer r)) : Kept P := by
  have leaves {α : Type} {r : Res α} {s : State} (hs : P s) (hr : r.Leaves (EngineMove s)) : r.Leaves P :=
    hr.mono (fun _ t ht => move s t ht hs) fun _ t ht => move s t ht hs
  exact {
    start := fun s hs => leaves hs (engStart_moves s)
    stop := fun s hs => leaves hs (engStop_moves s)
    wrbit := fun b s hs => leaves hs (engWrbit_moves b s)
    rdbit := fun s hs => leaves hs (engRdbit_moves s)
    wrbyte := fun d s hs => leaves hs (engWrbyte_moves d s)
    rdbyte := fun a s hs => leaves hs (engRdbyte_moves a s)
    release, forget, select, answer }

/-! ## The invariant between commands (O53) -/

/-- The invariant, the lock given back, is kept by every operation. -/
theorem kept_inv : Kept fun s => Inv s.releaseLock := by
  refine Kept.of_moves ?move ?release ?forget ?select ?answer
  case move =>
    intro s t hmove hs
    have hcfg := hmove.frame.cfg
    have hmux := hmove.frame.muxCur
    have legal : legalConfig t.releaseLock.cfg = true := by simpa [hcfg] using hs.legal
    have selected : ∀ i, t.releaseLock.muxCur = .known i →
        t.releaseLock.cfg.muxPresent = true ∧ (channelFor t.releaseLock.cfg i).isSome = true := by
      simpa [hcfg, hmux] using hs.selected
    cases hmove with
    | refused => exact hs
    | failed _ hbus hscl =>
      rcases hbus with hbus | hbus <;>
        exact ⟨legal, by simp [hbus], hscl, by simp [hbus], by simp [hbus], selected, rfl⟩
    | completed _ hscl _ hsettled =>
      rcases hsettled with ⟨hbus, hsda⟩ | ⟨hbus, hsda⟩ | hbus
      · exact ⟨legal, by simp [hbus], hscl, fun _ => hsda, by simp [hbus], selected, rfl⟩
      · exact ⟨legal, by simp [hbus], hscl, by simp [hbus], fun _ => hsda, selected, rfl⟩
      · exact ⟨legal, by simp [hbus], hscl, by simp [hbus], by simp [hbus], selected, rfl⟩
  case release => exact fun s hs => ⟨hs.legal, nofun, rfl, fun _ => rfl, nofun, nofun, rfl⟩
  case forget => exact fun s hs => ⟨hs.legal, hs.bus, hs.scl, hs.idle, hs.started, nofun, rfl⟩
  case select =>
    intro c s hs hmux hchannel
    refine ⟨hs.legal, hs.bus, hs.scl, hs.idle, hs.started, ?_, rfl⟩
    rintro i ⟨⟩
    exact ⟨hmux, hchannel⟩
  case answer => exact fun r s hs => ⟨hs.legal, hs.bus, hs.scl, hs.idle, hs.started, hs.selected, rfl⟩

/-- Everything a step can do: nothing, or the waiting record with the lock held while it runs (R80, R33). -/
theorem step_cases {s t : State} (hstep : step s = .next t) :
    t = s ∨ ∃ r rest u, s.lock = .free ∧ s.port = r :: rest ∧
      runRecord r { s with port := rest, lock := .held } = .next u ∧ t = u.releaseLock := by
  by_cases hlegal : legalConfig s.cfg = true
  · cases hlock : s.lock with
    | held => left; simpa [step, hlegal, State.takeCommand, hlock, eq_comm] using hstep
    | free =>
      cases hport : s.port with
      | nil => left; simpa [step, hlegal, State.takeCommand, hlock, hport, eq_comm] using hstep
      | cons r rest =>
        rw [step_of_waiting hlegal hlock hport] at hstep
        cases hrun : runRecord r { s with port := rest, lock := .held } with
        | next u => rw [hrun] at hstep; cases hstep; exact .inr ⟨r, rest, u, rfl, rfl, hrun, rfl⟩
        | fault f => cases f
        | refused q => rw [hrun] at hstep; cases hstep
  · simp [step, hlegal] at hstep

/-- Settles O53: a step that serves a record begins in the invariant, the lock apart, and every command keeps it. -/
theorem stepKeepsInvariant : Obligations.StepKeepsInvariant := by
  intro s t hinv hstep
  rcases step_cases hstep with rfl | ⟨r, rest, u, -, -, hrun, rfl⟩
  · exact hinv
  · exact kept_inv.runRecord hrun
      ⟨hinv.legal, hinv.bus, hinv.scl, hinv.idle, hinv.started, hinv.selected, rfl⟩

end Sys2Proof.Machine

/-! ## Construction (O1, O2, O54) -/

namespace Sys2Proof.Machine

/-- Construction gives the reset state of its arguments, if they are legal (R29, R44). -/
theorem construct?_eq_some {c : Config} {s : State} (h : State.construct? c = some s) :
    legalConfig c = true ∧ s = State.construct c := by
  unfold State.construct? at h
  split at h
  next hlegal => exact ⟨hlegal, (Option.some.inj h).symm⟩
  next => cases h

/-- Settles O1: the block that is constructed is the reset state of its arguments. -/
theorem constructionSetsResetTable : Obligations.ConstructionSetsResetTable := by
  intro c s hconstruct
  obtain ⟨-, rfl⟩ := construct?_eq_some hconstruct
  exact ⟨rfl, rfl, rfl, rfl, rfl, rfl, rfl, rfl⟩

/-- The unique-index check is the library's notion of a list without duplicates. -/
theorem uniqueIndices_iff_nodup (chs : List MuxChannel) : uniqueIndices chs = true ↔ (chs.map (·.index)).Nodup := by
  induction chs with
  | nil => simp [uniqueIndices]
  | cons ch chs ih => simp [uniqueIndices, ih]

/-- Settles O2: a block is constructed exactly where the check passes, and the check says what R29 asks. -/
theorem constructionRefusesIllegal : Obligations.ConstructionRefusesIllegal := by
  intro c
  calc (State.construct? c).isSome = true ↔ legalConfig c = true := by simp [State.construct?]
    _ ↔ 2 * c.holdDelay < c.timeout ∧ 1 ≤ c.pollInterval ∧ (c.channels.map (·.index)).Nodup := by
      rw [legalConfig_iff, uniqueIndices_iff_nodup]

/-- R44 meets the invariant, whatever legal configuration the block has. -/
theorem inv_construct {c : Config} (hlegal : legalConfig c = true) : Inv (State.construct c) :=
  ⟨hlegal, nofun, rfl, fun _ => rfl, nofun, nofun, rfl⟩

/-- Settles O54: the configuration of the block at reset is legal. -/
theorem constructionMeetsInvariant : Obligations.ConstructionMeetsInvariant := by
  refine ⟨inv_construct (by decide), fun c s hconstruct => ?_⟩
  obtain ⟨hlegal, rfl⟩ := construct?_eq_some hconstruct
  exact inv_construct hlegal

end Sys2Proof.Machine

/-! ## A held bus has its clock high (O12) -/

namespace Sys2Proof.Machine

/-- A held bus after line events has SCL released and sampled high last (R27, log entry 16). -/
def SeenHighIfHeld (s : State) : Prop :=
  s.held = true → s.trace ≠ [] → s.scl = .rel ∧ lastScl s.trace = some true

theorem SeenHighIfHeld.of_not_held {s : State} (h : s.held = false) : SeenHighIfHeld s := fun hheld => by
  simp [h] at hheld

theorem kept_seenHighIfHeld : Kept SeenHighIfHeld := by
  refine Kept.of_moves ?_ (fun s _ => .of_not_held rfl) (fun _ hs => hs) (fun _ _ hs _ _ => hs) (fun _ _ hs => hs)
  intro s t hmove hs
  cases hmove with
  | refused => exact hs
  | failed _ hbus => exact .of_not_held (by rcases hbus with hbus | hbus <;> simp [State.held, hbus])
  | completed _ hscl hseen => exact fun _ _ => ⟨hscl, hseen⟩

/-- Settles O12: true of the empty trace with which every command begins, and kept by every command. -/
theorem heldBusHasSeenClockHigh : Obligations.HeldBusHasSeenClockHigh := by
  intro i s t hexec
  exact kept_seenHighIfHeld.exec hexec fun _ htrace => absurd rfl htrace

/-! ## What the line primitives keep -/

/-- The single writes that commands are made of keep `P`. -/
structure KeptByWrites (P : State → Prop) : Prop where
  setLine : ∀ l d s, P s → P (s.setLine l d)
  delay   : ∀ n s, P s → P (s.delay n)
  sampled : ∀ l s, P s → P (s.sampled l)
  setBus  : ∀ b s, P s → P (s.setBus b)
  setMux  : ∀ m s, P s → P (s.setMux m)
  answer  : ∀ r s, P s → P (s.answer r)

namespace KeptByWrites
variable {P : State → Prop} (h : KeptByWrites P)
include h

theorem failWith {α : Type} (f : Failure) {s : State} (hs : P s) : (Machine.failWith f s : Res α).Leaves P := by
  cases f with
  | arbitrationLost => exact h.setBus _ s hs
  | timeout => exact h.setBus _ s hs
  | illegalState => exact hs

theorem waitLoop (fuel : Nat) : ∀ (k : Nat) (s : State), P s → (Machine.waitLoop fuel k s).Leaves P := by
  induction fuel with
  | zero => exact fun _ _ hs => h.failWith _ hs
  | succ fuel ih =>
    intro k s hs
    have hsampled := h.sampled .scl s hs
    unfold Machine.waitLoop
    split
    · exact h.failWith _ hs
    · split
      · exact hsampled
      · exact ih _ _ (h.delay _ _ hsampled)

theorem waitSclHigh {s : State} (hs : P s) : (Machine.waitSclHigh s).Leaves P := h.waitLoop _ 0 s hs

/-- A line is set and its delay follows. -/
theorem setLineRf (l : Line) (d : Drive) {s : State} (hs : P s) : P (s.setLine l d).delayRf :=
  h.delay _ _ (h.setLine l d s hs)

/-- The common end of a command: the hold delay and the new bus state. -/
theorem holdThenBus (b : BusState) {s : State} (hs : P s) : P (s.delayHold.setBus b) := h.setBus b _ (h.delay _ _ hs)

theorem raiseClock (d : Drive) {s : State} (hs : P s) : P (s.raiseClock d) :=
  h.setLine _ _ _ (h.setLineRf _ _ (h.setLineRf _ _ hs))

theorem raiseBoth {s : State} (hs : P s) : P s.raiseBoth := by
  unfold State.raiseBoth
  split
  · exact h.setLine _ _ _ (h.setLineRf _ _ hs)
  · exact h.setLine _ _ _ (h.setLineRf _ _ (h.setLineRf _ _ hs))

theorem releaseBus {s : State} (hs : P s) : P (Machine.releaseBus s) :=
  h.setMux _ _ (h.setBus _ _ (h.setLineRf _ _ (h.setLineRf _ _ hs)))

theorem engStart {s : State} (hs : P s) : (Machine.engStart s).Leaves P := by
  unfold Machine.engStart
  split
  · exact h.failWith _ hs
  · refine (h.waitSclHigh (h.raiseBoth hs)).andThen fun _ t ht => ?_
    have hchecked := h.sampled .sda t ht
    split
    · exact h.failWith _ hchecked
    · have hpulled := h.sampled .sda _ (h.setLineRf .sda .low hchecked)
      dsimp only
      split
      · exact h.failWith _ hpulled
      · exact h.holdThenBus _ hpulled

theorem engStop {s : State} (hs : P s) : (Machine.engStop s).Leaves P := by
  unfold Machine.engStop
  split
  · exact h.failWith _ hs
  · refine (h.waitSclHigh (h.raiseClock .low hs)).andThen fun _ t ht => ?_
    have hreleased := h.setLineRf .sda .rel (h.delay t.cfg.holdDelay t ht)
    have hchecked := h.sampled .sda _ hreleased
    dsimp only
    split
    · split
      · exact h.failWith _ hchecked
      · exact h.setBus _ _ hchecked
    · exact h.setBus _ _ hreleased

theorem engWrbit (b : Level) {s : State} (hs : P s) : (Machine.engWrbit b s).Leaves P := by
  unfold Machine.engWrbit
  split
  · exact h.failWith _ hs
  · refine (h.waitSclHigh (h.raiseClock _ hs)).andThen fun _ t ht => ?_
    split
    · split
      · exact h.failWith _ (h.sampled _ t ht)
      · exact h.holdThenBus _ (h.sampled _ t ht)
    · exact h.holdThenBus _ ht

theorem engRdbit {s : State} (hs : P s) : (Machine.engRdbit s).Leaves P := by
  unfold Machine.engRdbit
  split
  · exact h.failWith _ hs
  · exact (h.waitSclHigh (h.raiseClock _ hs)).andThen fun _ t ht => h.holdThenBus _ (h.sampled _ t ht)

theorem sendBits (bits : List Level) : ∀ s : State, P s → (Machine.sendBits bits s).Leaves P := by
  induction bits with
  | nil => exact fun _ hs => hs
  | cons b bits ih => exact fun s hs => (h.engWrbit b hs).andThen fun _ t ht => ih t ht

theorem receiveBits (n : Nat) : ∀ (v : Byte) (s : State), P s → (Machine.receiveBits n v s).Leaves P := by
  induction n with
  | zero => exact fun _ _ hs => hs
  | succ n ih => exact fun v s hs => (h.engRdbit hs).andThen fun _ t ht => ih _ t ht

theorem engWrbyte (d : Byte) {s : State} (hs : P s) : (Machine.engWrbyte d s).Leaves P := by
  unfold Machine.engWrbyte
  split
  · exact h.failWith _ hs
  · exact (h.sendBits _ s hs).andThen fun _ t ht => (h.engRdbit ht).andThen fun _ _ hu => hu

theorem engRdbyte (a : Bool) {s : State} (hs : P s) : (Machine.engRdbyte a s).Leaves P := by
  unfold Machine.engRdbyte
  split
  · exact h.failWith _ hs
  · exact (h.receiveBits 8 _ s hs).andThen fun _ t ht => (h.engWrbit _ ht).andThen fun _ _ hu => hu

/-- What the single writes keep, every command keeps. -/
theorem kept : Kept P where
  start _ hs := h.engStart hs
  stop _ hs := h.engStop hs
  wrbit b _ hs := h.engWrbit b hs
  rdbit _ hs := h.engRdbit hs
  wrbyte d _ hs := h.engWrbyte d hs
  rdbyte a _ hs := h.engRdbyte a hs
  release _ hs := h.releaseBus hs
  forget s hs := h.setMux _ s hs
  select _ s hs _ _ := h.setMux _ s hs
  answer := h.answer

end KeptByWrites

/-! ## Configuration, port and lock (O3) -/

/-- No single write touches the configuration, the port or the lock. -/
theorem keptByWrites_registers (s : State) :
    KeptByWrites fun t => t.cfg = s.cfg ∧ t.port = s.port ∧ t.lock = s.lock where
  setLine l _ _ ht := by cases l <;> exact ht
  delay _ _ ht := ht
  sampled _ _ ht := ht
  setBus _ _ ht := ht
  setMux _ _ ht := ht
  answer _ _ ht := ht

/-- Settles O3: what no single write touches, no command touches. -/
theorem configurationIsNeverWritten : Obligations.ConfigurationIsNeverWritten := by
  intro i s t hexec
  exact (keptByWrites_registers s).kept.exec hexec ⟨rfl, rfl, rfl⟩

/-! ## The drives and the trace (O4) -/

/-- Only the last event of a longer trace can move the drive that the trace before it leaves. -/
theorem driveAfter_append (l : Line) (es fs : List Event) :
    ∀ d, driveAfter l d (es ++ fs) = driveAfter l (driveAfter l d es) fs := by
  induction es with
  | nil => exact fun _ => rfl
  | cons e es ih =>
    intro d
    cases e with
    | set l' d' => exact ih _
    | get _ _ => exact ih d
    | wait _ => exact ih d

/-- The drives of `t` are those that its trace leaves on lines driven as in `s` (R25). -/
def DrivesFollow (s t : State) : Prop :=
  t.scl = driveAfter .scl s.scl t.trace ∧ t.sda = driveAfter .sda s.sda t.trace

theorem keptByWrites_drivesFollow (s : State) : KeptByWrites (DrivesFollow s) where
  setLine l d t ht := by
    obtain ⟨hscl, hsda⟩ := ht
    cases l <;> simp [DrivesFollow, driveAfter_append, driveAfter, ← hscl, ← hsda]
  delay n t ht := by
    obtain ⟨hscl, hsda⟩ := ht
    simp [DrivesFollow, driveAfter_append, driveAfter, ← hscl, ← hsda]
  sampled l t ht := by
    obtain ⟨hscl, hsda⟩ := ht
    simp [DrivesFollow, driveAfter_append, driveAfter, ← hscl, ← hsda]
  setBus _ _ ht := ht
  setMux _ _ ht := ht
  answer _ _ ht := ht

/-- Settles O4: each single write keeps drives and trace in step, from the empty trace on. -/
theorem drivesFollowTheTrace : Obligations.DrivesFollowTheTrace := by
  intro i s t hexec
  exact (keptByWrites_drivesFollow s).kept.exec hexec ⟨rfl, rfl⟩

end Sys2Proof.Machine

/-! ## What a response reports -/

namespace Sys2Proof.Machine

/-- The status of a response is the code of its outcome (R106, R108): the first response word is laid out like a command
word, the status in the place of the opcode. -/
@[simp] theorem answer_status (r : Result) (s : State) : (s.answer r).status = some r.outcome.code :=
  congrArg some (opField_cmdWord r.outcome.code r.ack 0#8 r.value)

@[simp] theorem code_eq_ok (o : CmdOutcome) : o.code = 0#4 ↔ o = .ok := by cases o <;> simp [CmdOutcome.code]

@[simp] theorem code_eq_arbitrationLost (o : CmdOutcome) : o.code = 2#4 ↔ o = .arbitrationLost := by
  cases o <;> simp [CmdOutcome.code]

@[simp] theorem code_eq_timeout (o : CmdOutcome) : o.code = 3#4 ↔ o = .timeout := by cases o <;> simp [CmdOutcome.code]

@[simp] theorem code_eq_illegalCommand (o : CmdOutcome) : o.code = 5#4 ↔ o = .illegalCommand := by
  cases o <;> simp [CmdOutcome.code]

/-! ## The state table (O5) -/

/-- What a cell of the table says of a command that takes `s` to `t`: ILL refuses it; otherwise it succeeds into the cell or
ends in a terminal state (R23). -/
def FollowsCell (cell : Option BusState) (s t : State) : Prop :=
  (cell = none → t = { s with trace := [], response := some (statusOnly 4#4) }) ∧
  ∀ b, cell = some b → t.status = some 0#4 ∧ t.bus = b ∨
    t.status = some 2#4 ∧ t.bus = .arbitrationLost ∨ t.status = some 3#4 ∧ t.bus = .timedOut

/-- An engine command that is refused with IllegalState exactly where it is not legal, and that leaves bus state `b` where it
succeeds, follows its cell. -/
theorem followsCell_complete {α : Type} {r : Res α} {report : α → Result} {legal : Bool} {b : BusState} {s : State}
    (hreport : ∀ a, (report a).outcome = .ok) (hillegal : legal = false → r = failWith .illegalState s.beginCommand)
    (hends : r.Ends (fun _ t => t.bus = b)
      fun f t => FailedAs s.beginCommand f t ∧ (f = .illegalState → legal = false)) :
    FollowsCell (if legal then some b else none) s (r.complete report) := by
  cases hlegal : legal with
  | false =>
    rw [hillegal hlegal]
    exact ⟨fun _ => rfl, nofun⟩
  | true =>
    refine ⟨nofun, ?_⟩
    rintro b' ⟨⟩
    cases r with
    | ok a t => exact .inl ⟨by simp [Res.complete, hreport], hends⟩
    | fail f t =>
      obtain ⟨hfailed, hlegality⟩ := hends
      cases f with
      | illegalState => rw [hlegality rfl] at hlegal; cases hlegal
      | arbitrationLost =>
        obtain ⟨-, hbus, -⟩ := hfailed
        exact .inr (.inl ⟨by simp [Res.complete, Result.failed, Failure.outcome], hbus⟩)
      | timeout =>
        obtain ⟨-, hbus, -⟩ := hfailed
        exact .inr (.inr ⟨by simp [Res.complete, Result.failed, Failure.outcome], hbus⟩)

theorem tableNext_start (s : State) : tableNext .start s.bus = if s.ready then some .started else none := by
  unfold State.ready State.held
  cases s.bus <;> rfl

theorem tableNext_stop (s : State) : tableNext .stop s.bus = if s.held then some .idle else none := by
  unfold State.held
  cases s.bus <;> rfl

/-- The four commands of a bit or a byte have one column in common. -/
theorem tableNext_bitOrByte {i : Instr} (s : State)
    (hi : i = .rdbit ∨ (∃ b, i = .wrbit b) ∨ (∃ d, i = .wrbyte d) ∨ ∃ a, i = .rdbyte a) :
    tableNext i s.bus = if s.held then some .byteInProgress else none := by
  unfold State.held
  rcases hi with rfl | ⟨_, rfl⟩ | ⟨_, rfl⟩ | ⟨_, rfl⟩ <;> cases s.bus <;> rfl

/-- Every engine command follows its cell. -/
theorem exec_followsCell {i : Instr} {s t : State} (htable : inTable i = true) (hreset : i ≠ .reset)
    (hgetstate : i ≠ .getstate) (hexec : exec i s = .next t) : FollowsCell (tableNext i s.bus) s t := by
  cases i with
  | start =>
    rw [exec_start] at hexec; cases hexec; rw [tableNext_start]
    exact followsCell_complete (fun _ => rfl) (fun h => by simp [engStart, h]) ((engStart_ends _).mono
      (fun _ _ ⟨_, _, hbus, _⟩ => hbus) fun _ _ h => h)
  | stop =>
    rw [exec_stop] at hexec; cases hexec; rw [tableNext_stop]
    exact followsCell_complete (fun _ => rfl) (fun h => by simp [engStop, h]) ((engStop_ends _).mono
      (fun _ _ ⟨_, _, hbus, _⟩ => hbus) fun _ _ ⟨hfailed, hlegality, _⟩ => ⟨hfailed, hlegality⟩)
  | wrbit b =>
    rw [exec_wrbit] at hexec; cases hexec; rw [tableNext_bitOrByte s (by simp)]
    exact followsCell_complete (fun _ => rfl) (fun h => by simp [engWrbit, h]) ((engWrbit_ends b _).mono
      (fun _ _ ⟨_, _, hbus, _⟩ => hbus) fun _ _ ⟨hfailed, hlegality, _⟩ => ⟨hfailed, hlegality⟩)
  | rdbit =>
    rw [exec_rdbit] at hexec; cases hexec; rw [tableNext_bitOrByte s (by simp)]
    exact followsCell_complete (fun _ => rfl) (fun h => by simp [engRdbit, h]) ((engRdbit_ends _).mono
      (fun _ _ ⟨_, _, hbus, _⟩ => hbus) fun _ _ ⟨hfailed, hlegality, _⟩ => ⟨hfailed, hlegality⟩)
  | wrbyte d =>
    rw [exec_wrbyte] at hexec; cases hexec; rw [tableNext_bitOrByte s (by simp)]
    exact followsCell_complete (fun _ => rfl) (fun h => by simp [engWrbyte, h]) ((engWrbyte_ends d _).mono
      (fun _ _ ⟨_, _, hbus, _⟩ => hbus) fun _ _ ⟨hfailed, hlegality, _⟩ => ⟨hfailed, hlegality⟩)
  | rdbyte a =>
    rw [exec_rdbyte] at hexec; cases hexec; rw [tableNext_bitOrByte s (by simp)]
    exact followsCell_complete (fun _ => rfl) (fun h => by simp [engRdbyte, h]) ((engRdbyte_ends a _).mono
      (fun _ _ ⟨_, _, hbus, _⟩ => hbus) fun _ _ ⟨hfailed, hlegality, _⟩ => ⟨hfailed, hlegality⟩)
  | reset => exact absurd rfl hreset
  | getstate => exact absurd rfl hgetstate
  | xfer chain msgs => cases htable
  | muxsel c => cases htable
  | muxxfer c chain msgs => cases htable

/-- Settles O5: RESET and GETSTATE have no ILL cell and cannot fail, and every engine command follows its cell. -/
theorem stateMachineTable : Obligations.StateMachineTable := by
  intro i s t htable hexec
  by_cases hreset : i = .reset
  · subst hreset
    rw [exec_reset] at hexec
    cases hexec
    refine ⟨nofun, ?_⟩
    rintro b ⟨⟩
    exact .inl ⟨by simp [Result.success], rfl⟩
  by_cases hgetstate : i = .getstate
  · subst hgetstate
    rw [exec_getstate] at hexec
    cases hexec
    refine ⟨nofun, ?_⟩
    rintro b ⟨⟩
    exact .inl ⟨by simp, rfl⟩
  obtain ⟨hill, hcell⟩ := exec_followsCell htable hreset hgetstate hexec
  exact ⟨hill, fun b hb => (hcell b hb).imp_right fun hfailed => ⟨hreset, hgetstate, hfailed⟩⟩

/-! ## The cached selection (O6) -/

/-- An engine command that the host issues leaves the selection alone. -/
theorem complete_muxCur {α : Type} {r : Res α} {s : State} (report : α → Result) (hr : r.Leaves (EngineMove s.beginCommand)) :
    (r.complete report).muxCur = s.muxCur := by
  cases r <;> exact hr.frame.muxCur

/-- The selection after a transfer: forgotten where an engine failure made it reset the engine (R31, R204). -/
theorem transfer_muxCur (chain : Bool) (msgs : List Message) (s : State) :
    (transfer chain msgs s).2.muxCur =
      if ((transfer chain msgs s).1.outcome = .arbitrationLost ∨ (transfer chain msgs s).1.outcome = .timeout) ∧
        s.cfg.driverAutoReset = true then .unknown else s.muxCur := by
  have failed {b : BusState} {t : State} (h : AfterEngineFailure s b t) :
      t.muxCur = if s.cfg.driverAutoReset = true then .unknown else s.muxCur := by
    unfold AfterEngineFailure at h
    split at h
    next hauto => simp [hauto, h]
    next hauto => simp [hauto, h]
  rcases transfer_ends chain msgs s (transfer chain msgs s).1 (transfer chain msgs s).2 rfl with
    ⟨-, hresult, hstate⟩ | ⟨-, -, -, ⟨hok, -, hframe, -⟩ | ⟨-, -, hover⟩⟩
  · simp [hresult, hstate]
  · simp [hok, hframe.muxCur]
  · cases hout : (transfer chain msgs s).1.outcome <;> simp only [hout] at hover
    · simp [hover]
    · simpa using failed hover
    · simpa using failed hover

/-- No transfer is malformed. -/
theorem transfer_outcome_ne_illegalCommand (chain : Bool) (msgs : List Message) (s : State) :
    (transfer chain msgs s).1.outcome ≠ .illegalCommand := by
  intro h
  rcases transfer_ends chain msgs s (transfer chain msgs s).1 (transfer chain msgs s).2 rfl with
    ⟨-, hresult, -⟩ | ⟨-, -, -, ⟨hok, -⟩ | ⟨-, -, hover⟩⟩
  · rw [hresult] at h; cases h
  · rw [hok] at h; cases h
  · rw [h] at hover; exact hover

/-- The outcome of a select decides the selection (R31, R240), and is never that of a malformed record. -/
theorem muxSelect_selects (c : Byte) (s : State) :
    (muxSelect c s).2.muxCur = selectionAfter c (muxSelect c s).1.outcome ∧
      (muxSelect c s).1.outcome ≠ .illegalCommand := by
  cases hch : channelFor s.cfg c with
  | none => rw [muxSelect_of_no_channel hch]; exact ⟨rfl, nofun⟩
  | some ch => rw [muxSelect_of_channel hch]; exact ⟨rfl, transfer_outcome_ne_illegalCommand _ _ s⟩

/-- Engine commands and GETSTATE leave the selection alone, RESET forgets it. -/
theorem selection_of_inTable {i : Instr} {s t : State} (htable : inTable i = true) (hexec : exec i s = .next t) :
    t.muxCur = if i = .reset then .unknown else s.muxCur := by
  cases i with
  | start => rw [exec_start] at hexec; cases hexec; exact complete_muxCur _ (engStart_moves _)
  | stop => rw [exec_stop] at hexec; cases hexec; exact complete_muxCur _ (engStop_moves _)
  | wrbit b => rw [exec_wrbit] at hexec; cases hexec; exact complete_muxCur _ (engWrbit_moves b _)
  | rdbit => rw [exec_rdbit] at hexec; cases hexec; exact complete_muxCur _ (engRdbit_moves _)
  | wrbyte d => rw [exec_wrbyte] at hexec; cases hexec; exact complete_muxCur _ (engWrbyte_moves d _)
  | rdbyte a => rw [exec_rdbyte] at hexec; cases hexec; exact complete_muxCur _ (engRdbyte_moves a _)
  | reset => rw [exec_reset] at hexec; cases hexec; rfl
  | getstate => rw [exec_getstate] at hexec; cases hexec; rfl
  | xfer chain msgs => cases htable
  | muxsel c => cases htable
  | muxxfer c chain msgs => cases htable

theorem selection_of_xfer {chain : Bool} {msgs : List Message} {s t : State} (hexec : exec (.xfer chain msgs) s = .next t) :
    t.muxCur = if (t.status = some 2#4 ∨ t.status = some 3#4) ∧ s.cfg.driverAutoReset = true then .unknown
      else s.muxCur := by
  rw [exec_xfer] at hexec
  cases hexec
  exact (transfer_muxCur chain msgs s.beginCommand).trans (if_congr (by simp) rfl rfl)

/-- A malformed record is answered with ILLEGAL_COMMAND. -/
@[simp] theorem refuseMalformed_status (s : State) : (refuseMalformed s).status = some 5#4 := by
  simp [refuseMalformed, Result.malformed, CmdOutcome.code]

@[simp] theorem refuseMalformed_muxCur (s : State) : (refuseMalformed s).muxCur = s.muxCur := rfl

theorem selection_of_muxsel {c : Byte} {s t : State} (hexec : exec (.muxsel c) s = .next t) :
    t.muxCur = if t.status = some 0#4 then .known c else if t.status = some 5#4 then s.muxCur else .unknown := by
  rw [exec_muxsel] at hexec
  cases hexec
  obtain ⟨hselection, hwellFormed⟩ := muxSelect_selects c s.beginCommand
  cases hmux : s.cfg.muxPresent with
  | true => simp [hselection, hwellFormed, selectionAfter]
  | false => simp

/-- MUXXFER selects as MUXSEL does, and then its transfer can only forget the selection. -/
theorem selection_of_muxxfer {c : Byte} {chain : Bool} {msgs : List Message} {s t u : State}
    (hsel : exec (.muxsel c) s = .next t) (hexec : exec (.muxxfer c chain msgs) s = .next u) :
    u.muxCur = if t.status = some 0#4 then
        (if (u.status = some 2#4 ∨ u.status = some 3#4) ∧ s.cfg.driverAutoReset = true then .unknown else .known c)
      else if t.status = some 5#4 then s.muxCur else .unknown := by
  rw [exec_muxsel] at hsel
  rw [exec_muxxfer] at hexec
  cases hsel
  cases hexec
  obtain ⟨hselection, hwellFormed⟩ := muxSelect_selects c s.beginCommand
  cases hmux : s.cfg.muxPresent with
  | false => simp
  | true =>
    by_cases hok : (muxSelect c s.beginCommand).1.outcome = .ok
    · simp [muxTransfer, hok, transfer_muxCur, muxSelect_cfg, hselection, selectionAfter]
    · simp [muxTransfer, hok, hwellFormed, hselection, selectionAfter]

/-- Settles O6: the rule of construction and one rule per kind of command, each from the outcome that the response
reports. -/
theorem selectionAfterEveryCommand : Obligations.SelectionAfterEveryCommand := by
  refine ⟨fun c s hconstruct => ?_, fun s => ⟨fun i t => selection_of_inTable, fun chain msgs t => selection_of_xfer,
    fun c t => selection_of_muxsel, fun c chain msgs t u => selection_of_muxxfer⟩⟩
  obtain ⟨-, rfl⟩ := construct?_eq_some hconstruct
  rfl

/-! ## The cached selection selects nothing (O7) -/

/-- The state without its cached selection and last response. -/
abbrev State.forgetting (s : State) : State := s.rebase false none []

/-- Two runs that differ in what is forgotten alone give answered states that differ in the selection alone. -/
theorem answer_of_forgetting {s s' : State} (r : Result) (h : s.forgetting = s'.forgetting) :
    { s'.answer r with muxCur := (s.answer r).muxCur } = s.answer r := by
  cases s
  cases s'
  simp_all [State.rebase, State.answer]

theorem complete_of_forgetting {α : Type} {r r' : Res α} (report : α → Result)
    (h : r.mapState State.forgetting = r'.mapState State.forgetting) :
    { r'.complete report with muxCur := (r.complete report).muxCur } = r.complete report := by
  cases r <;> cases r' <;> simp only [Res.mapState, Res.ok.injEq, Res.fail.injEq, reduceCtorEq] at h
  · obtain ⟨rfl, hstate⟩ := h; exact answer_of_forgetting _ hstate
  · obtain ⟨rfl, hstate⟩ := h; exact answer_of_forgetting _ hstate

section
variable {s s' : State} (h : s.forgetting = s'.forgetting)
include h

/-- Transfers of two states that differ in what is forgotten alone report the same and keep that difference. -/
theorem transfer_of_forgetting (chain : Bool) (msgs : List Message) :
    (transfer chain msgs s).1 = (transfer chain msgs s').1 ∧
      (transfer chain msgs s).2.forgetting = (transfer chain msgs s').2.forgetting := by
  have hforget (u : State) : transfer chain msgs u.forgetting =
      ((transfer chain msgs u).1, (transfer chain msgs u).2.forgetting) := transfer_rebase false none [] chain msgs u
  simpa only [hforget, Prod.mk.injEq] using congrArg (transfer chain msgs) h

theorem muxSelect_of_forgetting (c : Byte) :
    (muxSelect c s).1 = (muxSelect c s').1 ∧ (muxSelect c s).2.forgetting = (muxSelect c s').2.forgetting := by
  have hcfg : s.cfg = s'.cfg := by simpa using congrArg State.cfg h
  cases hch : channelFor s.cfg c with
  | none =>
    rw [muxSelect_of_no_channel hch, muxSelect_of_no_channel (hcfg ▸ hch)]
    exact ⟨rfl, h⟩
  | some ch =>
    rw [muxSelect_of_channel hch, muxSelect_of_channel (hcfg ▸ hch), ← hcfg]
    exact transfer_of_forgetting h _ _

theorem muxTransfer_of_forgetting (c : Byte) (chain : Bool) (msgs : List Message) :
    (muxTransfer c chain msgs s).1 = (muxTransfer c chain msgs s').1 ∧
      (muxTransfer c chain msgs s).2.forgetting = (muxTransfer c chain msgs s').2.forgetting := by
  obtain ⟨hresult, hstate⟩ := muxSelect_of_forgetting h c
  simp only [muxTransfer, ← hresult]
  split
  · exact transfer_of_forgetting hstate chain msgs
  · exact ⟨hresult, hstate⟩

end

/-- Settles O7: no engine command and no transfer reads the selection (Laws/Rebase.lean), so two runs that begin with
different selections stay alike in everything else. -/
theorem selectionSelectsNothing : Obligations.SelectionSelectsNothing := by
  intro i s m hi
  have hs : s.beginCommand.forgetting = ({ s with muxCur := m }).beginCommand.forgetting := rfl
  have engine {α : Type} {eng : State → Res α} (report : α → Result)
      (hread : ∀ s, eng s.forgetting = (eng s).mapState State.forgetting) :
      { (eng ({ s with muxCur := m }).beginCommand).complete report with
        muxCur := ((eng s.beginCommand).complete report).muxCur } = (eng s.beginCommand).complete report :=
    complete_of_forgetting report (by rw [← hread, ← hread, hs])
  cases i with
  | start => exact ⟨_, _, exec_start _, exec_start _, engine _ (engStart_rebase _ _ _)⟩
  | stop => exact ⟨_, _, exec_stop _, exec_stop _, engine _ (engStop_rebase _ _ _)⟩
  | wrbit b => exact ⟨_, _, exec_wrbit b _, exec_wrbit b _, engine _ (engWrbit_rebase _ _ _ b)⟩
  | rdbit => exact ⟨_, _, exec_rdbit _, exec_rdbit _, engine _ (engRdbit_rebase _ _ _)⟩
  | wrbyte d => exact ⟨_, _, exec_wrbyte d _, exec_wrbyte d _, engine _ (engWrbyte_rebase _ _ _ d)⟩
  | rdbyte a => exact ⟨_, _, exec_rdbyte a _, exec_rdbyte a _, engine _ (engRdbyte_rebase _ _ _ a)⟩
  | reset => exact ⟨_, _, exec_reset _, exec_reset _, rfl⟩
  | xfer chain msgs =>
    obtain ⟨hresult, hstate⟩ := transfer_of_forgetting hs chain msgs
    exact ⟨_, _, exec_xfer _ _ _, exec_xfer _ _ _, hresult ▸ answer_of_forgetting _ hstate⟩
  | muxsel c =>
    obtain ⟨hresult, hstate⟩ := muxSelect_of_forgetting hs c
    refine ⟨_, _, exec_muxsel _ _, exec_muxsel _ _, ?_⟩
    dsimp only
    split
    · exact hresult ▸ answer_of_forgetting _ hstate
    · rfl
  | muxxfer c chain msgs =>
    obtain ⟨hresult, hstate⟩ := muxTransfer_of_forgetting hs c chain msgs
    refine ⟨_, _, exec_muxxfer _ _ _ _, exec_muxxfer _ _ _ _, ?_⟩
    dsimp only
    split
    · exact hresult ▸ answer_of_forgetting _ hstate
    · rfl
  | getstate => exact absurd rfl hi

end Sys2Proof.Machine

/-! ## The line primitives and the bounded wait (O8, O9) -/

namespace Sys2Proof.Machine

/-- Settles O8: the primitives are written as these updates; a sample is masked where both conditions of R62 hold. -/
theorem linePrimitives : Obligations.LinePrimitives :=
  fun _ _ _ _ => ⟨rfl, rfl, rfl, by simp [State.sense], rfl⟩

/-- Settles O9: `POLL_LIMIT` counts the polls of the budget (`lt_pollLimit`), so a stretch below it stays within the budget
and one that reaches it times out. -/
theorem waitEndsByTheBudget : Obligations.WaitEndsByTheBudget := by
  intro s rest hlegal hscl
  obtain ⟨htimeout, hinterval, -⟩ := (legalConfig_iff _).1 hlegal
  have hlimit (k : Nat) : k * s.cfg.pollInterval < s.cfg.timeout ↔ k < pollLimit s.cfg := (lt_pollLimit hinterval k).symm
  refine ⟨(hlimit 0).1 (by omega), hlimit, fun n hn henv => ?_, waitSclHigh_timeout s rest hlegal hscl⟩
  have hreturns := waitSclHigh_stretch n s rest hlegal hscl (by simpa [stretchDraws] using henv) ((hlimit n).2 hn)
  simpa [stretchTrace] using hreturns

end Sys2Proof.Machine

/-! ## Refused commands (O10) -/

namespace Sys2Proof.Machine

@[simp] theorem code_eq_illegalState (o : CmdOutcome) : o.code = 4#4 ↔ o = .illegalState := by
  cases o <;> simp [CmdOutcome.code]

@[simp] theorem code_eq_invalidChannel (o : CmdOutcome) : o.code = 6#4 ↔ o = .invalidChannel := by
  cases o <;> simp [CmdOutcome.code]

/-- The outcomes with which a command is refused (R265 to R267). -/
def CmdOutcome.Refuses (o : CmdOutcome) : Prop := o = .illegalState ∨ o = .illegalCommand ∨ o = .invalidChannel

/-- The statuses of R265 to R267. -/
def State.Refused (t : State) : Prop := t.status = some 4#4 ∨ t.status = some 5#4 ∨ t.status = some 6#4

@[simp] theorem answer_refused (r : Result) (s : State) : (s.answer r).Refused ↔ r.outcome.Refuses := by
  simp [State.Refused, CmdOutcome.Refuses]

theorem CmdOutcome.Refuses.ne_ok {o : CmdOutcome} (h : o.Refuses) : o ≠ .ok := by
  rintro rfl
  simp [CmdOutcome.Refuses] at h

/-- `t` shows no line event, and `s`'s bus state, drives and draws (R65). -/
def NoEvents (s t : State) : Prop :=
  t.trace = [] ∧ t.bus = s.bus ∧ t.scl = s.scl ∧ t.sda = s.sda ∧ t.env = s.env ∧ t.draws = s.draws

theorem noEvents_beginCommand (s : State) : NoEvents s s.beginCommand := ⟨rfl, rfl, rfl, rfl, rfl, rfl⟩

/-- A command of the state table that is refused is in an ILL cell (R23). -/
theorem noEvents_of_inTable {i : Instr} {s t : State} (htable : inTable i = true) (hexec : exec i s = .next t)
    (hrefused : t.Refused) : NoEvents s t := by
  obtain ⟨hill, hcell⟩ := stateMachineTable i s t htable hexec
  cases hnext : tableNext i s.bus with
  | none => rw [hill hnext]; exact noEvents_beginCommand s
  | some b =>
    rcases hcell b hnext with ⟨hstatus, -⟩ | ⟨-, -, ⟨hstatus, -⟩ | ⟨hstatus, -⟩⟩ <;>
      simp [State.Refused, hstatus] at hrefused

/-- A transfer is refused before its first event, on an engine that is not ready, or not at all (R211). -/
theorem transfer_of_refuses {chain : Bool} {msgs : List Message} {s : State}
    (hrefuses : (transfer chain msgs s).1.outcome.Refuses) : s.ready = false ∧ (transfer chain msgs s).2 = s := by
  rcases transfer_ends chain msgs s (transfer chain msgs s).1 (transfer chain msgs s).2 rfl with
    ⟨hready, -, hstate⟩ | ⟨-, -, -, ⟨hok, -⟩ | ⟨-, -, hover⟩⟩
  · exact ⟨hready, hstate⟩
  · exact absurd hok hrefuses.ne_ok
  · rcases hrefuses with hout | hout | hout <;> simp [hout] at hover

/-- A select that is refused can only forget the selection (R240, R242). -/
theorem muxSelect_of_refuses {c : Byte} {s : State} (hrefuses : (muxSelect c s).1.outcome.Refuses) :
    ∃ m, (muxSelect c s).2 = s.setMux m := by
  cases hch : channelFor s.cfg c with
  | none => exact ⟨_, by rw [muxSelect_of_no_channel hch]⟩
  | some ch =>
    rw [muxSelect_of_channel hch] at hrefuses ⊢
    exact ⟨_, congrArg (State.setMux _) (transfer_of_refuses hrefuses).2⟩

/-- A transfer of messages that is not chained and succeeds ends with its STOP (R209). -/
theorem transfer_bus_of_ok {msgs : List Message} {s : State} (hmsgs : msgs ≠ [])
    (hok : (transfer false msgs s).1.outcome = .ok) : (transfer false msgs s).2.bus = .idle := by
  rcases transfer_ends false msgs s (transfer false msgs s).1 (transfer false msgs s).2 rfl with
    ⟨-, hresult, -⟩ | ⟨-, -, -, ⟨-, -, -, ⟨-, hempty, -⟩ | ⟨hchain, -⟩ | ⟨-, hbus, -⟩⟩ | ⟨-, -, hover⟩⟩
  · rw [hresult] at hok; cases hok
  · exact absurd hempty hmsgs
  · cases hchain
  · exact hbus
  · simp [hok] at hover

theorem muxSelect_bus_of_ok {c : Byte} {s : State} (hok : (muxSelect c s).1.outcome = .ok) :
    (muxSelect c s).2.bus = .idle := by
  cases hch : channelFor s.cfg c with
  | none => rw [muxSelect_of_no_channel hch] at hok; cases hok
  | some ch =>
    rw [muxSelect_of_channel hch] at hok ⊢
    exact transfer_bus_of_ok (List.cons_ne_nil _ _) hok

/-- MUXXFER is refused in its select or not at all: a select that succeeds leaves the engine ready. -/
theorem muxTransfer_of_refuses {c : Byte} {chain : Bool} {msgs : List Message} {s : State}
    (hrefuses : (muxTransfer c chain msgs s).1.outcome.Refuses) : ∃ m, (muxTransfer c chain msgs s).2 = s.setMux m := by
  by_cases hok : (muxSelect c s).1.outcome = .ok
  · simp only [muxTransfer, hok, if_true] at hrefuses
    simpa [State.ready, muxSelect_bus_of_ok hok] using (transfer_of_refuses hrefuses).1
  · simp only [muxTransfer, hok, if_false] at hrefuses ⊢
    exact muxSelect_of_refuses hrefuses

/-- A mux command that changes at most the selection where it is refused has no events then, nor has one on a block without
a mux (R110 (e)). -/
theorem noEvents_of_mux {muxPresent : Bool} {r : Result × State} {s : State}
    (hr : r.1.outcome.Refuses → ∃ m, r.2 = s.beginCommand.setMux m)
    (hrefused : (if muxPresent then r.2.answer r.1 else refuseMalformed s).Refused) :
    NoEvents s (if muxPresent then r.2.answer r.1 else refuseMalformed s) := by
  cases muxPresent with
  | true =>
    obtain ⟨m, hstate⟩ := hr ((answer_refused _ _).1 hrefused)
    rw [if_pos rfl, hstate]
    exact noEvents_beginCommand s
  | false => exact noEvents_beginCommand s

/-- Settles O10: the commands of the table by their cells, the others because nothing but the selection has changed where
they are refused. -/
theorem refusedCommandsHaveNoEvents : Obligations.RefusedCommandsHaveNoEvents := by
  intro i s t hexec hi
  show NoEvents s t
  by_cases hgetstate : i = .getstate
  · subst hgetstate
    rw [exec_getstate] at hexec
    cases hexec
    exact noEvents_beginCommand s
  have hrefused : t.Refused := hi.resolve_left hgetstate
  cases htable : inTable i with
  | true => exact noEvents_of_inTable htable hexec hrefused
  | false =>
    cases i with
    | xfer chain msgs =>
      rw [exec_xfer] at hexec
      cases hexec
      rw [(transfer_of_refuses ((answer_refused _ _).1 hrefused)).2]
      exact noEvents_beginCommand s
    | muxsel c => rw [exec_muxsel] at hexec; cases hexec; exact noEvents_of_mux muxSelect_of_refuses hrefused
    | muxxfer c chain msgs =>
      rw [exec_muxxfer] at hexec; cases hexec; exact noEvents_of_mux muxTransfer_of_refuses hrefused
    | _ => cases htable

end Sys2Proof.Machine

/-! ## The bus conditions of the drives (O11) -/

namespace Sys2Proof.Machine

/-- The conditions of a trace in two parts: the second part begins with the drives that the first one leaves (R67, R25). -/
theorem conditions_append_driveAfter (es fs : List Event) : ∀ scl sda, conditions scl sda (es ++ fs) =
    conditions scl sda es ++ conditions (driveAfter .scl scl es) (driveAfter .sda sda es) fs := by
  induction es with
  | nil => exact fun _ _ => rfl
  | cons e es ih =>
    intro scl sda
    match e with
    | .set .scl d => exact ih d sda
    | .set .sda d => simpa [conditions, driveAfter] using ih scl d
    | .get _ _ => exact ih scl sda
    | .wait _ => exact ih scl sda

theorem driveAfter_lowTrace (l : Line) (d : Drive) (c : Config) (n : Nat) : driveAfter l d (lowTrace c n) = d := by
  induction n with
  | zero => rfl
  | succ n ih => exact ih

/-- A wait moves no drive. -/
@[simp] theorem driveAfter_stretchTrace (l : Line) (d : Drive) (c : Config) (n : Nat) :
    driveAfter l d (stretchTrace c n) = d := by
  simp [stretchTrace, driveAfter_append, driveAfter_lowTrace, driveAfter]

/-- A wait makes no bus condition. -/
@[simp] theorem conditions_stretchTrace (scl sda : Drive) (c : Config) (n : Nat) :
    conditions scl sda (stretchTrace c n) = [] := silent_stretchTrace c n scl sda

/-- START makes one start condition: a repeated one moves SDA up under a low clock first, a first one finds SDA released
(R141). -/
theorem conditions_startTrace (c : Config) (repeated : Bool) (n : Nat) (scl sda : Drive)
    (h : repeated = false → sda = .rel) : conditions scl sda (startTrace c repeated n) = [.start] := by
  cases repeated with
  | true => cases sda <;> simp [startTrace, conditions_append_driveAfter, conditions, sdaMove]
  | false =>
    obtain rfl := h rfl
    cases scl <;> simp [startTrace, conditions_append_driveAfter, conditions, sdaMove]

/-- STOP makes one stop condition: SDA goes low under a low clock and is released under a released one (R142). -/
theorem conditions_stopTrace (c : Config) (n : Nat) (scl sda : Drive) :
    conditions scl sda (stopTrace c n) = [.stop] := by
  cases sda <;> cases hcheck : c.arbCheckData <;>
    simp [stopTrace, conditions_append_driveAfter, conditions, sdaMove, hcheck]

/-- RESET makes a stop condition exactly where SDA was pulled low (R143). -/
theorem conditions_resetTrace (c : Config) (scl sda : Drive) :
    conditions scl sda (resetTrace c) = if sda = .low then [.stop] else [] := by
  cases sda <;> rfl

/-- A bit or byte command whose two kinds of end both add silent events makes no bus condition. -/
theorem conditions_complete_of_silent {α : Type} {r : Res α} {s : State} (report : α → Result)
    (hr : r.Leaves fun t => ∃ es, t.trace = s.beginCommand.trace ++ es ∧ Silent es) :
    conditions s.scl s.sda (r.complete report).trace = [] := by
  cases r <;>
  · obtain ⟨es, htrace, hsilent⟩ := hr
    simpa [Res.complete, htrace] using hsilent s.scl s.sda

/-- An engine command of the host that reports OK has succeeded. -/
theorem trace_of_complete_ok {α : Type} {r : Res α} {report : α → Result} {Q : α → State → Prop}
    {F : Failure → State → Prop} (hr : r.Ends Q F) (hstatus : (r.complete report).status = some 0#4) :
    ∃ a t, Q a t ∧ (r.complete report).trace = t.trace := by
  cases r with
  | ok a t => exact ⟨a, t, hr, rfl⟩
  | fail f t => cases f <;> simp [Res.complete, Result.failed, Failure.outcome] at hstatus

theorem engWrbit_silent (b : Level) (s : State) :
    (engWrbit b s).Leaves fun t => ∃ es, t.trace = s.trace ++ es ∧ Silent es :=
  (engWrbit_ends b s).mono (fun _ _ ⟨_, _, _, _, _, m, htrace⟩ => ⟨_, htrace, silent_wrbitTrace _ m b⟩)
    fun _ _ ⟨_, _, _, hsilent⟩ => hsilent

theorem engRdbit_silent (s : State) : (engRdbit s).Leaves fun t => ∃ es, t.trace = s.trace ++ es ∧ Silent es :=
  (engRdbit_ends s).mono (fun v _ ⟨_, _, _, _, _, m, htrace⟩ => ⟨_, htrace, silent_rdbitTrace _ m v⟩)
    fun _ _ ⟨_, _, _, hsilent⟩ => hsilent

theorem engWrbyte_silent (d : Byte) (s : State) :
    (engWrbyte d s).Leaves fun t => ∃ es, t.trace = s.trace ++ es ∧ Silent es :=
  (engWrbyte_ends d s).mono
    (fun _ _ ⟨_, _, _, _, _, ps, m, _, htrace⟩ => ⟨_, htrace, (silent_sendTrace _ ps).append (silent_rdbitTrace _ m _)⟩)
    fun _ _ ⟨_, _, _, hsilent⟩ => hsilent

theorem engRdbyte_silent (a : Bool) (s : State) :
    (engRdbyte a s).Leaves fun t => ∃ es, t.trace = s.trace ++ es ∧ Silent es :=
  (engRdbyte_ends a s).mono
    (fun _ _ ⟨_, _, _, _, _, ps, m, _, _, htrace⟩ =>
      ⟨_, htrace, (silent_receiveTrace _ ps).append (silent_wrbitTrace _ m _)⟩)
    fun _ _ ⟨_, _, _, hsilent⟩ => hsilent

/-- A START that succeeds, from an idle bus with SDA released or from a held bus (R141). -/
theorem conditions_of_start {s t : State} (hexec : exec .start s = .next t) (hstatus : t.status = some 0#4)
    (hidle : s.bus = .idle → s.sda = .rel) : conditions s.scl s.sda t.trace = [.start] := by
  rw [exec_start] at hexec
  cases hexec
  obtain ⟨-, u, ⟨hready, -, -, -, -, m, hu⟩, htrace⟩ := trace_of_complete_ok (engStart_ends _) hstatus
  rw [htrace, hu]
  refine conditions_startTrace _ _ m _ _ fun hheld => ?_
  rcases ready_cases _ hready with ⟨hbus, -⟩ | ⟨-, hheld'⟩
  · exact hidle hbus
  · simp [hheld'] at hheld

/-- A STOP that succeeds (R142). -/
theorem conditions_of_stop {s t : State} (hexec : exec .stop s = .next t) (hstatus : t.status = some 0#4) :
    conditions s.scl s.sda t.trace = [.stop] := by
  rw [exec_stop] at hexec
  cases hexec
  obtain ⟨-, u, ⟨-, -, -, -, -, m, hu⟩, htrace⟩ := trace_of_complete_ok (engStop_ends _) hstatus
  rw [htrace, hu]
  exact conditions_stopTrace _ m _ _

/-- Settles O11: bits and bytes are silent at every end; the traces of START, STOP and RESET are known. -/
theorem busConditionsOfTheDrives : Obligations.BusConditionsOfTheDrives := by
  intro s t
  refine ⟨fun b hexec => ?wrbit, fun hexec => ?rdbit, fun d hexec => ?wrbyte, fun a hexec => ?rdbyte,
    conditions_of_start, conditions_of_stop, fun hexec => ?reset⟩
  case wrbit => rw [exec_wrbit] at hexec; cases hexec; exact conditions_complete_of_silent _ (engWrbit_silent b _)
  case rdbit => rw [exec_rdbit] at hexec; cases hexec; exact conditions_complete_of_silent _ (engRdbit_silent _)
  case wrbyte => rw [exec_wrbyte] at hexec; cases hexec; exact conditions_complete_of_silent _ (engWrbyte_silent d _)
  case rdbyte => rw [exec_rdbyte] at hexec; cases hexec; exact conditions_complete_of_silent _ (engRdbyte_silent a _)
  case reset => rw [exec_reset] at hexec; cases hexec; exact conditions_resetTrace s.cfg s.scl s.sda

end Sys2Proof.Machine

/-! ## The address byte (O38) -/

namespace Sys2Proof

/-- The address byte is `address << 1 | direction` (R71). -/
theorem toNat_addressByte (m : Message) :
    m.addressByte.toNat = 2 * m.address.toNat + if m.isRead then 1 else 0 := by
  rw [Message.addressByte, BitVec.toNat_append, ← Nat.shiftLeft_add_eq_or_of_lt (BitVec.isLt _), Nat.shiftLeft_eq,
    Nat.mul_comm]
  cases m.isRead <;> rfl

/-- ADDR and RW are the low eight bits of a descriptor (R102). -/
theorem extractLsb'_mdWord (len : BitVec 16) (ns : Bool) (addr : BitVec 7) (rw : Bool) :
    (mdWord len ns addr rw).extractLsb' 0 8 = addr ++ BitVec.ofBool rw := by
  apply BitVec.eq_of_getLsbD_eq
  intro i hi
  simp only [BitVec.getLsbD_extractLsb', hi, decide_true, Bool.true_and, getLsbD_mdWord, BitVec.getLsbD_append]
  by_cases hzero : i = 0
  · simp [hzero]
  · simp [hzero, hi, show ¬ i < 1 by omega]

/-- Settles O38: both forms of a message put the direction below the address. -/
theorem addressByteIsDescriptorLowByte : Obligations.AddressByteIsDescriptorLowByte := by
  intro m
  refine ⟨toNat_addressByte m, ?_⟩
  cases m <;> exact extractLsb'_mdWord _ _ _ _

end Sys2Proof

/-! ## Waiting (O50) and being served (O52) -/

namespace Sys2Proof.Machine

/-- There is nothing to serve while the lock is held, or without a record. -/
theorem takeCommand_eq_none {s : State} (h : s.lock = .held ∨ s.port = []) : s.takeCommand = none := by
  rcases h with hheld | hempty
  · simp only [State.takeCommand, hheld]
  · cases hlock : s.lock <;> simp only [State.takeCommand, hempty, hlock]

/-- Settles O50: a step that takes no command leaves the state as it is. -/
theorem stepWaits : Obligations.StepWaits := by
  intro s hlegal hwaits
  simp only [step, hlegal, takeCommand_eq_none hwaits, if_true]

/-- Every command answers with a next state: none faults and none is refused a meaning (R261). -/
theorem exists_exec_next (i : Instr) (s : State) : ∃ t, exec i s = .next t := by
  cases i <;> exact ⟨_, rfl⟩

/-- So does every record, and it leaves configuration, port and lock alone. -/
theorem exists_runRecord_next (r : Record) (s : State) :
    ∃ t, runRecord r s = .next t ∧ t.cfg = s.cfg ∧ t.port = s.port ∧ t.lock = s.lock := by
  obtain ⟨t, hrun⟩ : ∃ t, runRecord r s = .next t := by
    cases hdecode : decode r with
    | ok i => rw [runRecord_of_decode s hdecode]; exact exists_exec_next i s
    | error e => exact ⟨refuseMalformed s, by simp only [runRecord, hdecode]⟩
  exact ⟨t, hrun, (keptByWrites_registers s).kept.runRecord hrun ⟨rfl, rfl, rfl⟩⟩

/-- One step serves one record: the lock is free again, and the configuration is as it was (R80, R33). -/
theorem exists_step_of_waiting {s : State} {r : Record} {rest : List Record} (hlegal : legalConfig s.cfg = true)
    (hfree : s.lock = .free) (hport : s.port = r :: rest) :
    ∃ t, step s = .next t ∧ t.port = rest ∧ t.lock = .free ∧ t.cfg = s.cfg := by
  obtain ⟨t, hrun, hcfg, hrest, -⟩ := exists_runRecord_next r { s with port := rest, lock := .held }
  exact ⟨t.releaseLock, by rw [step_of_waiting hlegal hfree hport, hrun, releasing_next], hrest, rfl, hcfg⟩

theorem runSteps_succ {s t : State} (n : Nat) (hstep : step s = .next t) : runSteps (n + 1) s = runSteps n t := by
  simp only [runSteps, hstep]

/-- Settles O52, by induction on the waiting records. -/
theorem everyWaitingCommandRuns : Obligations.EveryWaitingCommandRuns := by
  intro s hlegal hfree
  induction hport : s.port generalizing s with
  | nil => exact ⟨s, rfl, hport, hfree, rfl⟩
  | cons r rest ih =>
    obtain ⟨t, hstep, htport, htfree, htcfg⟩ := exists_step_of_waiting hlegal hfree hport
    obtain ⟨u, hruns, huport, hufree, hucfg⟩ := ih t (htcfg ▸ hlegal) htfree htport
    exact ⟨u, (runSteps_succ rest.length hstep).trans hruns, huport, hufree, hucfg.trans htcfg⟩

end Sys2Proof.Machine

/-! ## Words that match a row of the opcode map (R101, R109) -/

namespace Sys2Proof

/-- A command word whose reserved bits are 0 is made of its fields (R101). -/
theorem cmdWord_fields {cmd : Word} (hreserved : cmd.extractLsb' 17 11 = 0#11) :
    cmdWord (opField cmd) (bField cmd) (nField cmd) (dField cmd) = cmd := by
  apply BitVec.eq_of_getLsbD_eq
  intro i hi
  have hbit : ∀ j < 11, cmd.getLsbD (17 + j) = false := fun j hj => by
    simpa [hj] using congrArg (·.getLsbD j) hreserved
  rw [getLsbD_cmdWord]
  split_ifs with hd hn hb hrsv
  · simp [dField, hd]
  · simp [nField, show i - 8 < 8 by omega, show 8 + (i - 8) = i by omega]
  · rw [hb]; rfl
  · rw [← hbit (i - 17) (by omega), show 17 + (i - 17) = i by omega]
  · simp [opField, show i - 28 < 4 by omega, show 28 + (i - 28) = i by omega]

/-- A message descriptor whose reserved bits are 0 is made of its fields (R102). -/
theorem mdWord_fields {md : Word} (hreserved : rsvField md = 0#7) :
    mdWord (lenField md) (nsField md) (addrField md) (rwField md) = md := by
  apply BitVec.eq_of_getLsbD_eq
  intro i hi
  have hbit : ∀ j < 7, md.getLsbD (9 + j) = false := fun j hj => by
    simpa [rsvField, hj] using congrArg (·.getLsbD j) hreserved
  rw [getLsbD_mdWord]
  split_ifs with hrw haddr hns hrsv
  · rw [hrw]; rfl
  · simp [addrField, show i - 1 < 7 by omega, show 1 + (i - 1) = i by omega]
  · rw [hns]; rfl
  · rw [← hbit (i - 9) (by omega), show 9 + (i - 9) = i by omega]
  · simp [lenField, show i - 16 < 16 by omega, show 16 + (i - 16) = i by omega]

/-- Bits that are 0 under a mask are the bits outside it. -/
theorem eq_and_not_of_and_eq_zero {w : Nat} {x m : BitVec w} (h : x &&& m = 0#w) : x &&& ~~~m = x := by
  apply BitVec.eq_of_getLsbD_eq
  intro i hi
  have hbit := congrArg (·.getLsbD i) h
  simp only [BitVec.getLsbD_and, BitVec.getLsbD_zero, BitVec.getLsbD_not, hi, decide_true, Bool.true_and] at hbit ⊢
  cases hx : x.getLsbD i <;> simp_all

/-- Every mask covers the opcode and the reserved bits, and every row has 0 outside its opcode (R109). -/
theorem Opcode.row_fields (op : Opcode) :
    opField op.mask = BitVec.allOnes 4 ∧ op.mask.extractLsb' 17 11 = BitVec.allOnes 11 ∧
      op.pattern.extractLsb' 17 11 = 0#11 ∧ bField op.pattern = false ∧ nField op.pattern = 0#8 ∧
      dField op.pattern = 0#8 := by
  cases op <;> exact ⟨rfl, rfl, rfl, rfl, rfl, rfl⟩

/-- A word that matches a row is the row's opcode with the fields that the row's mask leaves free (R109). -/
theorem cmdWord_of_row {cmd : Word} {op : Opcode} (hrow : cmd &&& op.mask = op.pattern) :
    cmdWord (opField op.pattern) (bField cmd && !bField op.mask) (nField cmd &&& ~~~nField op.mask)
      (dField cmd &&& ~~~dField op.mask) = cmd := by
  obtain ⟨hopMask, hrsvMask, hrsv, hb, hn, hd⟩ := op.row_fields
  rw [← hrow] at hrsv hb hn hd ⊢
  have hopField : opField (cmd &&& op.mask) = opField cmd := by
    rw [opField, BitVec.extractLsb'_and, ← opField, ← opField, hopMask, BitVec.and_allOnes]
  have hreserved : cmd.extractLsb' 17 11 = 0#11 := by
    rwa [BitVec.extractLsb'_and, hrsvMask, BitVec.and_allOnes] at hrsv
  have hbField : (bField cmd && !bField op.mask) = bField cmd := by
    rw [bField, BitVec.getLsbD_and, ← bField, ← bField] at hb
    cases h : bField cmd <;> simp_all
  have hnField : nField cmd &&& ~~~nField op.mask = nField cmd :=
    eq_and_not_of_and_eq_zero (BitVec.extractLsb'_and.symm.trans hn)
  have hdField : dField cmd &&& ~~~dField op.mask = dField cmd :=
    eq_and_not_of_and_eq_zero (BitVec.extractLsb'_and.symm.trans hd)
  rw [hopField, hbField, hnField, hdField, cmdWord_fields hreserved]

/-! ## The messages that descriptors name (R103, R104) -/

/-- How many payload bytes a descriptor calls for (R104). -/
def bytesCalledFor (md : Word) : Nat := if rwField md then 0 else (lenField md).toNat

/-- The message that a descriptor names, with `bytes` the payload bytes not yet taken (R103). -/
def messageOf (md : Word) (bytes : List Byte) : Message :=
  if rwField md then .read (addrField md) (nsField md) (lenField md)
  else .write (addrField md) (nsField md) (bytes.take (lenField md).toNat)

theorem payloadCount_cons (md : Word) (mds : List Word) :
    payloadCount (md :: mds) = bytesCalledFor md + payloadCount mds := rfl

/-- One descriptor takes the bytes that it calls for. -/
theorem takeMessages_cons (md : Word) (mds : List Word) (bytes : List Byte) :
    takeMessages (md :: mds) bytes =
      if bytes.length < bytesCalledFor md then none
      else (takeMessages mds (bytes.drop (bytesCalledFor md))).map fun (msgs, rest) =>
        (messageOf md bytes :: msgs, rest) := by
  cases hrw : rwField md <;> simp [takeMessages, bytesCalledFor, messageOf, hrw]

theorem takeMessages_cons_eq_some {md : Word} {mds : List Word} {bytes rest : List Byte} {msgs : List Message} :
    takeMessages (md :: mds) bytes = some (msgs, rest) ↔ bytesCalledFor md ≤ bytes.length ∧
      ∃ msgs', takeMessages mds (bytes.drop (bytesCalledFor md)) = some (msgs', rest) ∧
        messageOf md bytes :: msgs' = msgs := by
  rw [takeMessages_cons]
  split
  · next hshort => simp [Nat.not_le.mpr hshort]
  · next hlong => simp [Nat.not_lt.mp hlong]

/-! ### A message and its descriptor -/

theorem bytesCalledFor_descriptor {m : Message} (hwf : m.wellFormed = true) :
    bytesCalledFor m.descriptor = m.payloadBytes.length := by
  cases m with
  | write a ns payload =>
    have hlen : payload.length < 65536 := of_decide_eq_true hwf
    simp [bytesCalledFor, Message.descriptor, Message.payloadBytes, Nat.mod_eq_of_lt hlen]
  | read a ns len => simp [bytesCalledFor, Message.descriptor, Message.payloadBytes]

theorem messageOf_descriptor {m : Message} (hwf : m.wellFormed = true) (rest : List Byte) :
    messageOf m.descriptor (m.payloadBytes ++ rest) = m := by
  cases m with
  | write a ns payload =>
    have hlen : payload.length < 65536 := of_decide_eq_true hwf
    simp [messageOf, Message.descriptor, Message.payloadBytes, Nat.mod_eq_of_lt hlen]
  | read a ns len => simp [messageOf, Message.descriptor]

theorem rsvField_descriptor (m : Message) : rsvField m.descriptor = 0#7 := by
  cases m <;> exact rsvField_mdWord _ _ _ _

/-- A descriptor is that of the message it names, whose payload is what it calls for (R102, R103). -/
theorem messageOf_spec {md : Word} {bytes : List Byte} (hreserved : rsvField md = 0#7)
    (hlong : bytesCalledFor md ≤ bytes.length) :
    (messageOf md bytes).descriptor = md ∧ (messageOf md bytes).payloadBytes = bytes.take (bytesCalledFor md) ∧
      (messageOf md bytes).wellFormed = true := by
  have hfields := mdWord_fields hreserved
  cases hrw : rwField md with
  | true =>
    simpa [messageOf, bytesCalledFor, hrw, Message.descriptor, Message.payloadBytes, Message.wellFormed] using hfields
  | false =>
    rw [hrw] at hfields
    simp only [bytesCalledFor, hrw, Bool.false_eq_true, if_false] at hlong ⊢
    simp [messageOf, hrw, Message.descriptor, Message.payloadBytes, Message.wellFormed, Nat.min_eq_left hlong, hfields,
      (lenField md).isLt]

/-! ### Message lists -/

/-- Descriptors and payloads of a list of messages are read as those messages. -/
theorem takeMessages_encoded (msgs : List Message) (rest : List Byte) (hwf : msgs.all (·.wellFormed) = true) :
    takeMessages (msgs.map (·.descriptor)) (msgs.flatMap (·.payloadBytes) ++ rest) = some (msgs, rest) := by
  induction msgs with
  | nil => rfl
  | cons m ms ih =>
    rw [List.all_cons, Bool.and_eq_true] at hwf
    obtain ⟨hm, hms⟩ := hwf
    rw [List.map_cons, List.flatMap_cons, List.append_assoc, takeMessages_cons_eq_some, bytesCalledFor_descriptor hm,
      List.drop_left]
    exact ⟨by simp, ms, ih hms, by rw [messageOf_descriptor hm]⟩

/-- What the descriptors name is encoded by them and by the bytes taken. -/
theorem encoded_of_takeMessages {mds : List Word} {bytes rest : List Byte} {msgs : List Message}
    (hreserved : ∀ md ∈ mds, rsvField md = 0#7) (h : takeMessages mds bytes = some (msgs, rest)) :
    msgs.all (·.wellFormed) = true ∧ msgs.map (·.descriptor) = mds ∧
      msgs.flatMap (·.payloadBytes) ++ rest = bytes := by
  induction mds generalizing bytes msgs with
  | nil => cases h; exact ⟨rfl, rfl, rfl⟩
  | cons md mds ih =>
    obtain ⟨hlong, msgs', h', rfl⟩ := takeMessages_cons_eq_some.1 h
    obtain ⟨hwf, hmds, hbytes⟩ := ih (fun md' hmd' => hreserved md' (List.mem_cons_of_mem _ hmd')) h'
    obtain ⟨hdescriptor, hpayload, hmwf⟩ := messageOf_spec (hreserved md List.mem_cons_self) hlong
    refine ⟨by simp [hmwf, hwf], by simp [hdescriptor, hmds], ?_⟩
    rw [List.flatMap_cons, List.append_assoc, hbytes, hpayload, List.take_append_drop]

/-- The messages leave exactly the bytes that no descriptor calls for (R104). -/
theorem length_of_takeMessages {mds : List Word} {bytes rest : List Byte} {msgs : List Message}
    (h : takeMessages mds bytes = some (msgs, rest)) : bytes.length = payloadCount mds + rest.length := by
  induction mds generalizing bytes msgs with
  | nil => cases h; simp [payloadCount]
  | cons md mds ih =>
    obtain ⟨hlong, msgs', h', -⟩ := takeMessages_cons_eq_some.1 h
    have hrest := ih h'
    rw [List.length_drop] at hrest
    rw [payloadCount_cons]
    omega

theorem exists_takeMessages {mds : List Word} {bytes : List Byte} (h : payloadCount mds ≤ bytes.length) :
    ∃ msgs rest, takeMessages mds bytes = some (msgs, rest) := by
  induction mds generalizing bytes with
  | nil => exact ⟨[], bytes, rfl⟩
  | cons md mds ih =>
    rw [payloadCount_cons] at h
    obtain ⟨msgs, rest, h'⟩ := ih (bytes := bytes.drop (bytesCalledFor md)) (by rw [List.length_drop]; omega)
    exact ⟨_, rest, takeMessages_cons_eq_some.2 ⟨by omega, msgs, h', rfl⟩⟩

theorem messagesWellFormed_iff {msgs : List Message} :
    messagesWellFormed msgs = true ↔ msgs.length < 256 ∧ msgs.all (·.wellFormed) = true := by
  simp [messagesWellFormed]

/-- An operand list is read exactly as the messages that it encodes (R104). -/
theorem decodeMessages_eq_ok_iff {r : Record} {msgs : List Message} :
    decodeMessages r = .ok msgs ↔ messagesWellFormed msgs = true ∧ nField r.cmd = BitVec.ofNat 8 msgs.length ∧
      r.descriptors = msgs.map (·.descriptor) ∧ r.payload = msgs.flatMap (·.payloadBytes) := by
  constructor
  · intro h
    unfold decodeMessages at h
    split_ifs at h with hcount hreserved
    split at h
    next msgs' htake =>
      cases h
      rw [not_not] at hcount
      obtain ⟨hwf, hmds, hbytes⟩ := encoded_of_takeMessages (by simpa using hreserved) htake
      have hlength : (nField r.cmd).toNat = msgs.length := by rw [← hcount, ← hmds, List.length_map]
      have hn : nField r.cmd = BitVec.ofNat 8 msgs.length := by rw [← hlength, BitVec.ofNat_toNat, BitVec.setWidth_eq]
      have hfits : msgs.length < 256 := hlength ▸ (nField r.cmd).isLt
      exact ⟨messagesWellFormed_iff.2 ⟨hfits, hwf⟩, hn, hmds.symm, by rw [← hbytes, List.append_nil]⟩
    next => cases h
  · rintro ⟨hwf, hn, hmds, hbytes⟩
    obtain ⟨hlength, hall⟩ := messagesWellFormed_iff.1 hwf
    have htake := takeMessages_encoded msgs [] hall
    rw [List.append_nil] at htake
    simp [decodeMessages, hn, hmds, hbytes, htake, Nat.mod_eq_of_lt hlength, rsvField_descriptor]

/-- An operand list is read exactly if it is as long as R104 requires and its reserved bits are 0. -/
theorem exists_decodeMessages_iff {r : Record} : (∃ msgs, decodeMessages r = .ok msgs) ↔
    r.descriptors.length = (nField r.cmd).toNat ∧ r.payload.length = payloadCount r.descriptors ∧
      ∀ md ∈ r.descriptors, rsvField md = 0#7 := by
  constructor
  · rintro ⟨msgs, h⟩
    obtain ⟨hwf, hn, hmds, hbytes⟩ := decodeMessages_eq_ok_iff.1 h
    obtain ⟨hlength, hall⟩ := messagesWellFormed_iff.1 hwf
    have htake := takeMessages_encoded msgs [] hall
    rw [List.append_nil] at htake
    refine ⟨by simp [hn, hmds, Nat.mod_eq_of_lt hlength], ?_, by simp [hmds, rsvField_descriptor]⟩
    rw [hmds, hbytes]
    exact length_of_takeMessages htake
  · rintro ⟨hcount, hbytes, hreserved⟩
    obtain ⟨msgs, rest, htake⟩ := exists_takeMessages hbytes.ge
    have hrest : rest = [] := by
      have := length_of_takeMessages htake
      exact List.eq_nil_of_length_eq_zero (by omega)
    exact ⟨msgs, by simpa [decodeMessages, hcount, htake, hrest] using hreserved⟩

end Sys2Proof

/-! ## The decoder and the encoder are inverse (O44, O45) -/

namespace Sys2Proof

/-- The command that a record of a row asks for (R103, R104). -/
def Opcode.readOperands (r : Record) : Opcode → Except Malformed Instr
  | .start    => decodeAlone r .start
  | .stop     => decodeAlone r .stop
  | .wrbit    => decodeAlone r (.wrbit (bField r.cmd))
  | .rdbit    => decodeAlone r .rdbit
  | .wrbyte   => decodeAlone r (.wrbyte (dField r.cmd))
  | .rdbyte   => decodeAlone r (.rdbyte (bField r.cmd))
  | .reset    => decodeAlone r .reset
  | .xfer     => (decodeMessages r).map (.xfer (bField r.cmd))
  | .muxsel   => decodeAlone r (.muxsel (dField r.cmd))
  | .muxxfer  => (decodeMessages r).map (.muxxfer (dField r.cmd) (bField r.cmd))
  | .getstate => decodeAlone r .getstate

/-- A record whose word matches a row decodes as its operands are read. -/
theorem decode_of_row {r : Record} {op : Opcode} (hop : opcodeOf (opField r.cmd) = some op)
    (hrow : r.cmd &&& op.mask = op.pattern) : decode r = op.readOperands r := by
  simp only [decode, hop, hrow]
  cases op <;> rfl

/-- A record is accepted only in a row of the opcode map (R110 (a), (b)). -/
theorem decode_eq_ok_iff_row {r : Record} {i : Instr} : decode r = .ok i ↔
    ∃ op, opcodeOf (opField r.cmd) = some op ∧ r.cmd &&& op.mask = op.pattern ∧ op.readOperands r = .ok i := by
  constructor
  · intro h
    cases hop : opcodeOf (opField r.cmd) with
    | none => simp [decode, hop] at h
    | some op =>
      by_cases hrow : r.cmd &&& op.mask = op.pattern
      · exact ⟨op, rfl, hrow, (decode_of_row hop hrow).symm.trans h⟩
      · simp [decode, hop, hrow] at h
  · rintro ⟨op, hop, hrow, h⟩
    rw [decode_of_row hop hrow, h]

theorem decodeAlone_eq_ok_iff {r : Record} {i j : Instr} : decodeAlone r j = .ok i ↔ wordRecord r.cmd = r ∧ j = i := by
  obtain ⟨cmd, mds, bytes⟩ := r
  cases mds <;> cases bytes <;> simp [decodeAlone, wordRecord]

theorem map_eq_ok_iff {α β : Type} {x : Except Malformed α} {f : α → β} {b : β} :
    x.map f = .ok b ↔ ∃ a, x = .ok a ∧ f a = b := by
  cases x <;> simp [Except.map]

/-- A command of one word that is read from a matching word is encoded by it. -/
theorem encoded_of_decodeAlone {r : Record} {i j : Instr} (h : decodeAlone r j = .ok i)
    (hwf : j.wellFormed = true) (hj : encode j = wordRecord r.cmd) : i.wellFormed = true ∧ encode i = r := by
  obtain ⟨hr, rfl⟩ := decodeAlone_eq_ok_iff.1 h
  exact ⟨hwf, hj.trans hr⟩

/-- A transfer that is read from a matching word and its operands is encoded by them. -/
theorem encoded_of_decodeMessages {r : Record} {i : Instr} {f : List Message → Instr}
    (hwf : ∀ msgs, (f msgs).wellFormed = messagesWellFormed msgs)
    (hf : ∀ msgs, nField r.cmd = BitVec.ofNat 8 msgs.length →
      encode (f msgs) = ⟨r.cmd, msgs.map (·.descriptor), msgs.flatMap (·.payloadBytes)⟩)
    (h : (decodeMessages r).map f = .ok i) : i.wellFormed = true ∧ encode i = r := by
  obtain ⟨msgs, hmsgs, rfl⟩ := map_eq_ok_iff.1 h
  obtain ⟨hmsgsWf, hn, hmds, hbytes⟩ := decodeMessages_eq_ok_iff.1 hmsgs
  exact ⟨(hwf msgs).trans hmsgsWf, by rw [hf msgs hn, ← hmds, ← hbytes]⟩

/-- A record of a row that is accepted is the encoding of the command it gives. -/
theorem encoded_of_readOperands {r : Record} {op : Opcode} {i : Instr} (hrow : r.cmd &&& op.mask = op.pattern)
    (h : op.readOperands r = .ok i) : i.wellFormed = true ∧ encode i = r := by
  have hcmd := cmdWord_of_row hrow
  have hall (x : Byte) : x &&& 255#8 = x := BitVec.and_allOnes
  cases op <;>
    simp only [Opcode.mask, Opcode.pattern, opField, bField, nField, dField, hall, BitVec.reduceExtractLsb',
      BitVec.getLsbD_eq_getElem, BitVec.reduceGetElem, BitVec.reduceNot, BitVec.not_zero, BitVec.reduceAllOnes,
      BitVec.and_zero, Nat.reduceLT, Bool.not_true, Bool.not_false, Bool.and_false, Bool.and_true] at hcmd
  case xfer =>
    exact encoded_of_decodeMessages (f := .xfer (bField r.cmd)) (fun _ => rfl)
      (fun msgs hn => by simp [encode, ← hn, nField, bField, hcmd]) h
  case muxxfer =>
    exact encoded_of_decodeMessages (f := .muxxfer (dField r.cmd) (bField r.cmd)) (fun _ => rfl)
      (fun msgs hn => by simp [encode, ← hn, nField, bField, dField, hcmd]) h
  all_goals exact encoded_of_decodeAlone h rfl (congrArg wordRecord hcmd)

/-- The word of every command matches its row (R109). -/
theorem encode_matches_row (i : Instr) : Laws.EncodeMatchesRow.Statement i := by
  cases i with
  | start => exact Laws.EncodeMatchesRow.start
  | stop => exact Laws.EncodeMatchesRow.stop
  | wrbit b => exact Laws.EncodeMatchesRow.wrbit b
  | rdbit => exact Laws.EncodeMatchesRow.rdbit
  | wrbyte d => exact Laws.EncodeMatchesRow.wrbyte d
  | rdbyte a => exact Laws.EncodeMatchesRow.rdbyte a
  | reset => exact Laws.EncodeMatchesRow.reset
  | xfer chain msgs => exact Laws.EncodeMatchesRow.xfer chain msgs
  | muxsel c => exact Laws.EncodeMatchesRow.muxsel c
  | muxxfer c chain msgs => exact Laws.EncodeMatchesRow.muxxfer c chain msgs
  | getstate => exact Laws.EncodeMatchesRow.getstate

/-- The operands of a well-formed command are read back from its record (R103, R104). -/
theorem readOperands_encode {i : Instr} (hwf : i.wellFormed = true) : i.opcode.readOperands (encode i) = .ok i := by
  cases i with
  | xfer chain msgs =>
    have hmsgs : decodeMessages (encode (.xfer chain msgs)) = .ok msgs :=
      decodeMessages_eq_ok_iff.2 ⟨hwf, nField_cmdWord .., rfl, rfl⟩
    exact map_eq_ok_iff.2 ⟨msgs, hmsgs, by simp [encode]⟩
  | muxxfer c chain msgs =>
    have hmsgs : decodeMessages (encode (.muxxfer c chain msgs)) = .ok msgs :=
      decodeMessages_eq_ok_iff.2 ⟨hwf, nField_cmdWord .., rfl, rfl⟩
    exact map_eq_ok_iff.2 ⟨msgs, hmsgs, by simp [encode]⟩
  | _ => simp [Instr.opcode, Opcode.readOperands, encode]

/-- A record decodes exactly to the command that it encodes (R101 to R104, R109). -/
theorem decode_eq_ok_iff {r : Record} {i : Instr} : decode r = .ok i ↔ i.wellFormed = true ∧ encode i = r := by
  constructor
  · intro h
    obtain ⟨op, -, hrow, hread⟩ := decode_eq_ok_iff_row.1 h
    exact encoded_of_readOperands hrow hread
  · rintro ⟨hwf, rfl⟩
    obtain ⟨hop, hrow⟩ := encode_matches_row i
    rw [decode_of_row hop hrow]
    exact readOperands_encode hwf

/-- Settles O44: a well-formed command is what its record decodes to. -/
theorem decodeEncodeRoundTrip : Obligations.DecodeEncodeRoundTrip :=
  fun _ hwf => decode_eq_ok_iff.2 ⟨hwf, rfl⟩

/-- Settles O45: a record decodes to no command but the one that it encodes. -/
theorem encodeDecodeRoundTrip : Obligations.EncodeDecodeRoundTrip :=
  fun _ _ hdecode => decode_eq_ok_iff.1 hdecode

end Sys2Proof

/-! ## Malformed records (O46, O59) and placed words (O47, O51) -/

namespace Sys2Proof

theorem exists_decodeAlone_iff {r : Record} {j : Instr} : (∃ i, decodeAlone r j = .ok i) ↔
    r.descriptors.length = 0 ∧ r.payload.length = payloadCount r.descriptors ∧
      ∀ md ∈ r.descriptors, rsvField md = 0#7 := by
  obtain ⟨cmd, mds, bytes⟩ := r
  cases mds <;> cases bytes <;> simp [decodeAlone, payloadCount]

/-- The operands of a matching word are read exactly if they are those that R104 calls for. -/
theorem exists_readOperands_iff {r : Record} {op : Opcode} (hop : opcodeOf (opField r.cmd) = some op) :
    (∃ i, op.readOperands r = .ok i) ↔ r.descriptors.length = descriptorCount r.cmd ∧
      r.payload.length = payloadCount r.descriptors ∧ ∀ md ∈ r.descriptors, rsvField md = 0#7 := by
  have transfer (f : List Message → Instr) :
      (∃ i, (decodeMessages r).map f = .ok i) ↔ ∃ msgs, decodeMessages r = .ok msgs := by
    simp only [map_eq_ok_iff]
    exact ⟨fun ⟨_, msgs, h, _⟩ => ⟨msgs, h⟩, fun ⟨msgs, h⟩ => ⟨f msgs, msgs, h, rfl⟩⟩
  cases op <;> simp only [descriptorCount, hop]
  case xfer => exact (transfer _).trans exists_decodeMessages_iff
  case muxxfer => exact (transfer _).trans exists_decodeMessages_iff
  all_goals exact exists_decodeAlone_iff

/-- The command of a record is in the record's row. -/
theorem opcodeOf_of_decode {r : Record} {i : Instr} (hdecode : decode r = .ok i) :
    opcodeOf (opField r.cmd) = some i.opcode := by
  obtain ⟨-, rfl⟩ := decode_eq_ok_iff.1 hdecode
  exact (encode_matches_row i).1

end Sys2Proof

namespace Sys2Proof.Machine

/-- The decoder accepts exactly the records that R110 (a) to (d) call well formed. -/
theorem exists_decode_iff {r : Record} : (∃ i, decode r = .ok i) ↔ wellFormedRecord r := by
  unfold wellFormedRecord
  cases hop : opcodeOf (opField r.cmd) with
  | none => simp [decode_eq_ok_iff_row, hop]
  | some op =>
    rw [← exists_readOperands_iff hop]
    simp [decode_eq_ok_iff_row, hop]

theorem muxTransfer_outcome_ne_illegalCommand (c : Byte) (chain : Bool) (msgs : List Message) (s : State) :
    (muxTransfer c chain msgs s).1.outcome ≠ .illegalCommand := by
  by_cases hok : (muxSelect c s).1.outcome = .ok
  · simpa [muxTransfer, hok] using transfer_outcome_ne_illegalCommand chain msgs _
  · simpa [muxTransfer, hok] using (muxSelect_selects c s).2

/-- No command but a mux command on a block without a mux answers with ILLEGAL_COMMAND (R110 (e)). -/
theorem mux_of_illegalCommand {i : Instr} {s t : State} (hexec : exec i s = .next t) (hstatus : t.status = some 5#4) :
    (i.opcode = .muxsel ∨ i.opcode = .muxxfer) ∧ s.cfg.muxPresent = false := by
  cases htable : inTable i with
  | true =>
    obtain ⟨hill, hcell⟩ := stateMachineTable i s t htable hexec
    cases hnext : tableNext i s.bus with
    | none =>
      rw [hill hnext] at hstatus
      exact absurd (show some 4#4 = some 5#4 from hstatus) (by decide)
    | some b =>
      rcases hcell b hnext with ⟨hother, -⟩ | ⟨-, -, ⟨hother, -⟩ | ⟨hother, -⟩⟩ <;>
        exact absurd (hother.symm.trans hstatus) (by decide)
  | false =>
    cases i with
    | xfer chain msgs =>
      rw [exec_xfer] at hexec
      cases hexec
      exact absurd (by simpa using hstatus) (transfer_outcome_ne_illegalCommand chain msgs s.beginCommand)
    | muxsel c =>
      rw [exec_muxsel] at hexec
      cases hexec
      cases hmux : s.cfg.muxPresent with
      | false => exact ⟨.inl rfl, rfl⟩
      | true => exact absurd (by simpa [hmux] using hstatus) (muxSelect_selects c s.beginCommand).2
    | muxxfer c chain msgs =>
      rw [exec_muxxfer] at hexec
      cases hexec
      cases hmux : s.cfg.muxPresent with
      | false => exact ⟨.inr rfl, rfl⟩
      | true =>
        exact absurd (by simpa [hmux] using hstatus) (muxTransfer_outcome_ne_illegalCommand c chain msgs s.beginCommand)
    | _ => cases htable

/-- A mux command on a block without a mux is refused (R110 (e)). -/
theorem exec_of_no_mux {i : Instr} {s : State} (hi : i.opcode = .muxsel ∨ i.opcode = .muxxfer)
    (hmux : s.cfg.muxPresent = false) : exec i s = .next (refuseMalformed s) := by
  cases i with
  | muxsel c => simp [exec_muxsel, hmux]
  | muxxfer c chain msgs => simp [exec_muxxfer, hmux]
  | _ => rcases hi with hi | hi <;> cases hi

theorem isMuxRecord_of_decode {r : Record} {i : Instr} (hdecode : decode r = .ok i) :
    isMuxRecord r = true ↔ i.opcode = .muxsel ∨ i.opcode = .muxxfer := by
  simp [isMuxRecord, opcodeOf_of_decode hdecode]

/-- A record that the decoder does not accept, or that asks for a mux that is not there, is refused. -/
theorem runRecord_of_malformed {r : Record} {s : State}
    (hbad : ¬ wellFormedRecord r ∨ (isMuxRecord r = true ∧ s.cfg.muxPresent = false)) :
    runRecord r s = .next (refuseMalformed s) := by
  cases hdecode : decode r with
  | error e => simp only [runRecord, hdecode]
  | ok i =>
    obtain ⟨hmuxRecord, hmux⟩ := hbad.resolve_left (not_not_intro (exists_decode_iff.1 ⟨i, hdecode⟩))
    rw [runRecord_of_decode s hdecode, exec_of_no_mux ((isMuxRecord_of_decode hdecode).1 hmuxRecord) hmux]

/-- Settles O46: the decoder accepts exactly the well-formed records, and no command that it gives is refused as malformed
except for a missing mux. -/
theorem malformedRecordsAreRefused : Obligations.MalformedRecordsAreRefused := by
  refine fun r s => ⟨runRecord_of_malformed, fun t hrun hstatus => ?_⟩
  by_cases hwf : wellFormedRecord r
  · obtain ⟨i, hdecode⟩ := exists_decode_iff.2 hwf
    rw [runRecord_of_decode s hdecode] at hrun
    obtain ⟨hi, hmux⟩ := mux_of_illegalCommand hrun hstatus
    exact .inr ⟨(isMuxRecord_of_decode hdecode).2 hi, hmux⟩
  · exact .inl hwf

/-- Settles O59: the step serves the record with the lock taken, refuses it, and gives the lock back. -/
theorem stepRefusesMalformedRecord : Obligations.StepRefusesMalformedRecord := by
  intro r rest s hlegal hfree hport hbad
  rw [step_of_waiting hlegal hfree hport, runRecord_of_malformed (s := { s with port := rest, lock := .held }) hbad,
    releasing_next, hfree]
  rfl

/-- Settles O47: each word evaluated. -/
theorem opcodeWordsDecode : Obligations.OpcodeWordsDecode := by
  unfold Obligations.OpcodeWordsDecode
  decide

/-- Settles O51: the placed record is the head of the port of a state with a free lock, and it decodes. -/
theorem placedWordRuns : Obligations.PlacedWordRuns := by
  intro s nbits w i t hlegal hword hexec
  have hdecode : decode (recordOfBits (w % 2 ^ nbits)) = .ok i := by
    unfold decodeTableWord at hword
    cases h : decode (recordOfBits (w % 2 ^ nbits)) with
    | error e => rw [h] at hword; cases hword
    | ok j => rw [h] at hword; cases hword; rfl
  exact stepRunsDecodedCommand _ s.port i (s.withFetchWord nbits w) t hlegal rfl rfl hdecode hexec

end Sys2Proof.Machine

/-! ## Written lines (O48, O58): what every text of a line is, and what the reader makes of numbers and message lists -/

namespace Sys2Proof.Assembler

/-- A line parses to the command that its tokens are read as, if that command has an encoding. -/
theorem parseLine_eq (line : List Char) : parseLine line = ((tokens [] line).bind command).filter (·.wellFormed) := by
  cases htokens : tokens [] line with
  | none => simp [parseLine, htokens]
  | some ts => cases hcommand : command ts <;> simp [parseLine, htokens, hcommand, Option.filter]

/-- A line whose texts are words and punctuation is read through their tokens. -/
theorem parseLine_written {texts : List (List Char)} (htexts : ∀ w ∈ texts, IsText w) :
    parseLine (written texts) = (command (texts.map tokenOf)).filter (·.wellFormed) := by
  rw [parseLine_eq, tokens_written texts htexts, Option.bind_some]

/-- A line parses to no command without an encoding. -/
theorem wellFormed_of_parseLine {line : List Char} {i : Instr} (hparse : parseLine line = some i) :
    i.wellFormed = true := by
  rw [parseLine_eq] at hparse
  exact (Option.filter_eq_some_iff.1 hparse).2

/-! ### The texts of a line -/

theorem isText_keyword {w : List Char} (h : w ≠ [] ∧ w.all isWordChar = true) : IsText w :=
  .inl ⟨h.1, List.all_eq_true.1 h.2⟩

theorem isText_numeral (hex : Bool) (n : Nat) : IsText (numeral hex n) := .inl (isWord_numeral hex n)

theorem isText_of_punctuation {c : Char} (h : (punctuation c).isSome = true) : IsText [c] := .inr ⟨c, rfl, h⟩

theorem isText_of_mem_intercalate {sep : List (List Char)} (hsep : ∀ w ∈ sep, IsText w) {xss : List (List (List Char))}
    (hxss : ∀ xs ∈ xss, ∀ w ∈ xs, IsText w) : ∀ w ∈ List.intercalate sep xss, IsText w := by
  induction xss with
  | nil => simp [List.intercalate]
  | cons xs xss ih =>
    obtain ⟨hxs, hrest⟩ := List.forall_mem_cons.1 hxss
    cases xss with
    | nil => simpa using hxs
    | cons ys yss =>
      rw [List.intercalate_cons_cons]
      simp only [List.mem_append]
      rintro w ((hw | hw) | hw)
      · exact hxs w hw
      · exact hsep w hw
      · exact ih hrest w hw

theorem isText_of_mem_operandTexts (hex : Bool) (ns : List Nat) : ∀ w ∈ operandTexts hex ns, IsText w :=
  isText_of_mem_intercalate (by simpa using isText_of_punctuation rfl) (by simpa using fun n _ => isText_numeral hex n)

theorem isText_of_mem_transferTexts (hex chain : Bool) (msgs : List SourceMessage) :
    ∀ w ∈ transferTexts hex chain msgs, IsText w := by
  have hmsgs : ∀ w ∈ List.intercalate [[';']] (msgs.map (·.texts hex)), IsText w :=
    isText_of_mem_intercalate (by simpa using isText_of_punctuation rfl)
      (by simpa using fun m _ => isText_of_mem_message hex m)
  intro w hw
  simp only [transferTexts, List.mem_append, List.mem_singleton] at hw
  rcases hw with ((hw | rfl) | hw) | rfl
  · cases chain <;> simp only [keyword, if_true, Bool.false_eq_true, if_false, List.mem_singleton, List.not_mem_nil] at hw
    rw [hw]
    exact isText_keyword (by decide)
  · exact isText_of_punctuation rfl
  · exact hmsgs w hw
  · exact isText_of_punctuation rfl

/-- Every text of a line of R113 is a word or punctuation. -/
theorem isText_of_mem_source (hex : Bool) (l : Source) : ∀ w ∈ l.texts hex, IsText w := by
  cases l <;> simp only [Source.texts, List.forall_mem_cons, List.not_mem_nil, false_imp_iff, implies_true, and_true]
  case wrbit b => exact ⟨isText_keyword (by decide), isText_numeral false b⟩
  case wrbyte d => exact ⟨isText_keyword (by decide), isText_numeral hex d⟩
  case muxsel c => exact ⟨isText_keyword (by decide), isText_numeral hex c⟩
  case rdbyte a => exact ⟨isText_keyword (by decide), by cases a <;> exact isText_keyword (by decide)⟩
  case xfer chain msgs => exact ⟨isText_keyword (by decide), isText_of_mem_transferTexts hex chain msgs⟩
  case muxxfer c chain msgs =>
    exact ⟨isText_keyword (by decide), isText_numeral hex c, isText_of_mem_transferTexts hex chain msgs⟩
  all_goals exact isText_keyword (by decide)

/-- So is every text of a line of R114 and R115. -/
theorem isText_of_mem_pseudoSource (hex : Bool) (l : PseudoSource) : ∀ w ∈ l.texts hex, IsText w := by
  have hcomma : IsText [','] := isText_of_punctuation rfl
  cases l <;>
    simp only [PseudoSource.texts, List.forall_mem_cons, List.forall_mem_append, List.not_mem_nil, false_imp_iff,
      implies_true, and_true, List.cons_append]
  case quick a read =>
    exact ⟨isText_keyword (by decide), isText_of_mem_operandTexts hex _, hcomma,
      by cases read <;> exact isText_keyword (by decide)⟩
  case blockWrite a c vs =>
    exact ⟨isText_keyword (by decide), ⟨isText_of_mem_operandTexts hex _, hcomma⟩,
      isText_of_mem_payloadTexts hex vs⟩
  all_goals exact ⟨isText_keyword (by decide), isText_of_mem_operandTexts hex _⟩

/-- One numeral as an operand. -/
theorem map_field_numeral {w : Nat} {α : Type} (hex : Bool) (n : Nat) (f : BitVec w → α) :
    (field w ((numeral hex n).map capital)).map f = if n < 2 ^ w then some (f (BitVec.ofNat w n)) else none := by
  rw [field_numeral]
  split <;> rfl

/-! ### Message lists -/

/-- The numbers of a message fit their fields; whether `LEN` can count its payload is another matter. -/
def SourceMessage.readable : SourceMessage → Bool
  | .write a _ payload => decide (a < 128) && payload.all (fun b => decide (b < 256))
  | .read a _ len => decide (a < 128) && decide (len < 65536)

theorem SourceMessage.encodable_eq (m : SourceMessage) : m.encodable = (m.readable && m.message.wellFormed) := by
  cases m <;> simp [encodable, readable, SourceMessage.message, Message.wellFormed]

/-- `message` reads a written message exactly if its numbers fit. -/
theorem message_texts_of_readable (hex : Bool) (m : SourceMessage) :
    message ((m.texts hex).map tokenOf) = if m.readable then some m.message else none := by
  rw [message_texts]
  cases m <;> simp [SourceMessage.readable]

theorem mapM_ite {α β : Type} (p : α → Bool) (g : α → β) (l : List α) :
    (l.mapM fun a => if p a then some (g a) else none) = if l.all p then some (l.map g) else none := by
  induction l with
  | nil => rfl
  | cons a l ih =>
    rw [List.mapM_cons, ih]
    cases hp : p a <;> cases hl : l.all p <;> simp [hp, hl]

/-- A message list encodes exactly if its numbers fit and its messages are well formed. -/
theorem encodableMessages_eq (msgs : List SourceMessage) :
    encodableMessages msgs = (msgs.all (·.readable) && messagesWellFormed (msgs.map (·.message))) := by
  have hall : msgs.all (·.encodable) = (msgs.all (·.readable) && (msgs.map (·.message)).all (·.wellFormed)) := by
    induction msgs with
    | nil => rfl
    | cons m ms ih =>
      simp only [List.all_cons, List.map_cons, ih, m.encodable_eq]
      ac_rfl
  simp only [encodableMessages, messagesWellFormed, List.length_map, hall]
  ac_rfl

/-- The reader takes a written `["CHAIN"] "{" msgs "}"` exactly if its numbers fit. -/
theorem chainedMessages_transferTexts (hex chain : Bool) (msgs : List SourceMessage) :
    chainedMessages ((transferTexts hex chain msgs).map tokenOf) =
      if msgs.all (·.readable) then some (chain, msgs.map (·.message)) else none := by
  have hmessages : messages ((List.intercalate [[';']] (msgs.map (·.texts hex)) ++ [[Char.ofNat 125]]).map tokenOf) =
      if msgs.all (·.readable) then some (msgs.map (·.message)) else none := by
    rw [← mapM_ite]
    simp only [← message_texts_of_readable hex]
    cases msgs with
    | nil => rfl
    | cons m ms =>
      rw [← messagesFrom_texts]
      cases m <;> cases ms <;> rfl
  have hstart : chainedMessages ((transferTexts hex chain msgs).map tokenOf) = (messages
      ((List.intercalate [[';']] (msgs.map (·.texts hex)) ++ [[Char.ofNat 125]]).map tokenOf)).map (chain, ·) := by
    cases chain <;> rfl
  rw [hstart, hmessages]
  split <;> rfl

end Sys2Proof.Assembler

/-! ## The lines of R113 (O48) -/

namespace Sys2Proof.Assembler

/-- A numeral of one field, as the operand of a command that is always well formed. -/
theorem filter_field_numeral {w : Nat} (hex : Bool) (n : Nat) {f : BitVec w → Instr}
    (hf : ∀ x, (f x).wellFormed = true) :
    ((field w ((numeral hex n).map capital)).map f).filter (·.wellFormed) =
      if n < 2 ^ w then some (f (BitVec.ofNat w n)) else none := by
  rw [map_field_numeral]
  split <;> simp [Option.filter, hf]

/-- A transfer that is read from a written message list is accepted exactly if the list is encodable. -/
theorem filter_transfer (msgs : List SourceMessage) {f : List Message → Instr}
    (hf : ∀ ms, (f ms).wellFormed = messagesWellFormed ms) :
    (if msgs.all (·.readable) then some (f (msgs.map (·.message))) else none).filter (·.wellFormed) =
      if encodableMessages msgs then some (f (msgs.map (·.message))) else none := by
  rw [encodableMessages_eq]
  cases msgs.all (·.readable) with
  | true => simp [Option.filter, hf]
  | false => rfl

/-- A text that begins with a digit, and is neither 0 nor 1, is not a bit (R113). -/
theorem command_wrbit_eq_none {d : Nat} (hd : d < 16) {cs : List Char} (hcs : d < 2 → cs ≠ []) :
    command [.word ['W', 'R', 'B', 'I', 'T'], .word (capital (Nat.digitChar d) :: cs)] = none := by
  cases cs with
  | nil =>
    have hd2 : 2 ≤ d := Nat.le_of_not_lt fun h => hcs h rfl
    interval_cases d <;> rfl
  | cons c cs => interval_cases d <;> rfl

/-- Only the numerals of 0 and 1 are bits (R113). -/
theorem command_wrbit (b : Nat) : command [.word ['W', 'R', 'B', 'I', 'T'], .word ((numeral false b).map capital)] =
    if b < 2 then some (.wrbit (b == 1)) else none := by
  split
  · next hb => interval_cases b <;> rfl
  · next hb =>
    obtain ⟨c, cs, hnumeral⟩ : ∃ c cs, numeral false b = c :: cs :=
      List.exists_cons_of_ne_nil (isWord_numeral false b).1
    obtain ⟨d, hd, rfl⟩ : ∃ d < 16, c = Nat.digitChar d :=
      numeralDigits_mem (base := 10) (by decide) (by decide) (b + 1) b c (by
        rw [show numeralDigits 10 (b + 1) b = _ from hnumeral]; exact List.mem_cons_self)
    have hnumber := number_numeral false b
    rw [hnumeral, List.map_cons] at hnumber ⊢
    refine command_wrbit_eq_none hd fun hd2 hcs => hb ?_
    rw [hcs, show number [capital (Nat.digitChar d)] = some d by interval_cases d <;> rfl] at hnumber
    exact Option.some.inj hnumber ▸ hd2

/-- The line of every form of R113 is read as its command, if its numbers fit. -/
theorem command_source (hex : Bool) (l : Source) :
    (command ((l.texts hex).map tokenOf)).filter (·.wellFormed) = if l.encodable then some l.instr else none := by
  cases l with
  | wrbit b =>
    rw [show (Source.texts hex (.wrbit b)).map tokenOf =
      [.word ['W', 'R', 'B', 'I', 'T'], tokenOf (numeral false b)] from rfl, tokenOf_numeral, command_wrbit]
    by_cases hb : b < 2 <;> simp [hb, Option.filter, Source.encodable, Source.instr, Instr.wellFormed]
  | wrbyte d =>
    rw [show (Source.texts hex (.wrbyte d)).map tokenOf =
      [.word ['W', 'R', 'B', 'Y', 'T', 'E'], tokenOf (numeral hex d)] from rfl, tokenOf_numeral]
    exact (filter_field_numeral (f := .wrbyte) hex d fun _ => rfl).trans (by simp [Source.encodable, Source.instr])
  | muxsel c =>
    rw [show (Source.texts hex (.muxsel c)).map tokenOf =
      [.word ['M', 'U', 'X', 'S', 'E', 'L'], tokenOf (numeral hex c)] from rfl, tokenOf_numeral]
    exact (filter_field_numeral (f := .muxsel) hex c fun _ => rfl).trans (by simp [Source.encodable, Source.instr])
  | rdbyte a => cases a <;> rfl
  | xfer chain msgs =>
    rw [show command ((Source.texts hex (.xfer chain msgs)).map tokenOf) =
      (chainedMessages ((transferTexts hex chain msgs).map tokenOf)).map fun (chain, ms) => .xfer chain ms from rfl,
      chainedMessages_transferTexts, Source.encodable, Source.instr, ← filter_transfer msgs fun _ => rfl]
    split <;> rfl
  | muxxfer c chain msgs =>
    rw [show (Source.texts hex (.muxxfer c chain msgs)).map tokenOf = .word ['M', 'U', 'X', 'X', 'F', 'E', 'R'] ::
      tokenOf (numeral hex c) :: (transferTexts hex chain msgs).map tokenOf from rfl, tokenOf_numeral]
    change (match field 8 _, chainedMessages _ with
      | some c, some (chain, ms) => some (Instr.muxxfer c chain ms)
      | _, _ => none).filter _ = _
    have hfilter := filter_transfer msgs (f := .muxxfer (BitVec.ofNat 8 c) chain) fun _ => rfl
    rw [field_numeral, chainedMessages_transferTexts, Source.encodable, Source.instr]
    by_cases hc : c < 256
    · simp only [Nat.reducePow, hc, if_true, decide_true, Bool.true_and, ← hfilter]
      cases msgs.all (·.readable) <;> rfl
    · simp [hc]
  | _ => rfl

/-- Settles O48: by the forms of the grammar, the tokens of a line in capitals, and the round trip of O44. -/
theorem linesParseToTheirCommands : Obligations.LinesParseToTheirCommands := by
  refine ⟨fun hex l => ?_, fun line => ?_, fun line r hassemble => ?_⟩
  · rw [parseLine_written (isText_of_mem_source hex l), command_source]
  · rw [parseLine_eq, parseLine_eq, tokens_map_capital]
  · obtain ⟨i, hparse, rfl⟩ := Option.map_eq_some_iff.1 hassemble
    have hwf := wellFormed_of_parseLine hparse
    exact ⟨i, hparse, hwf, decodeEncodeRoundTrip i hwf⟩

end Sys2Proof.Assembler

/-! ## The lines of R114 and R115 (O58) -/

namespace Sys2Proof.Assembler

/-- The low byte of a word. -/
theorem extractLsb'_low_ofNat (w : Nat) : (BitVec.ofNat 16 w).extractLsb' 0 8 = BitVec.ofNat 8 (w % 256) := by
  apply BitVec.eq_of_toNat_eq
  simp

/-- The high byte of a word. -/
theorem extractLsb'_high_ofNat (w : Nat) : (BitVec.ofNat 16 w).extractLsb' 8 8 = BitVec.ofNat 8 (w / 256) := by
  apply BitVec.eq_of_toNat_eq
  simp [Nat.shiftRight_eq_div_pow]
  omega

/-- The operands of three forms of R115: an address and a byte. -/
theorem match_address_byte (hex : Bool) (a c : Nat) (f : BitVec 7 → Byte → Instr) :
    (match field 7 ((numeral hex a).map capital), field 8 ((numeral hex c).map capital) with
      | some a, some c => some (f a c)
      | _, _ => none) = if a < 128 ∧ c < 256 then some (f (BitVec.ofNat 7 a) (BitVec.ofNat 8 c)) else none := by
  rw [field_numeral, field_numeral]
  by_cases ha : a < 128 <;> by_cases hc : c < 256 <;> simp [ha, hc]

/-- The line of a pseudo-instruction is read as its expansion, if its operands fit. -/
theorem command_pseudo (hex : Bool) (l : PseudoSource) :
    command ((l.texts hex).map tokenOf) = if l.encodable then some l.expansion.instr else none := by
  cases l <;>
    simp only [PseudoSource.texts, operandTexts, List.map_cons, List.map_nil, List.intercalate_cons_cons,
      List.intercalate_singleton, List.cons_append, List.nil_append, tokenOf_numeral, PseudoSource.encodable,
      PseudoSource.expansion, Source.encodable, encodableMessages, SourceMessage.encodable, Source.instr,
      SourceMessage.message]
  case quick a read =>
    cases read
    · exact (map_field_numeral hex a quickWrite).trans (by simp [quickWrite, single])
    · exact (map_field_numeral hex a quickRead).trans (by simp [quickRead, single])
  case recv a => exact (map_field_numeral hex a smbRecv).trans (by simp [smbRecv, single])
  case send a v => exact (match_address_byte hex a v smbSend).trans (by simp [smbSend, single])
  case readByte a c =>
    exact (match_address_byte hex a c smbReadByte).trans (by simp [smbReadByte, single, and_right_comm])
  case readWord a c =>
    exact (match_address_byte hex a c smbReadWord).trans (by simp [smbReadWord, single, and_right_comm])
  case writeByte a c v =>
    change (match field 7 _, field 8 _, field 8 _ with
      | some a, some c, some v => some (smbWriteByte a c v)
      | _, _, _ => none) = _
    rw [field_numeral, field_numeral, field_numeral]
    by_cases ha : a < 128 <;> by_cases hc : c < 256 <;> by_cases hv : v < 256 <;>
      simp [ha, hc, hv, smbWriteByte, single]
  case writeWord a c w =>
    change (match field 7 _, field 8 _, field 16 _ with
      | some a, some c, some w => some (smbWriteWord a c w)
      | _, _, _ => none) = _
    rw [field_numeral, field_numeral, field_numeral]
    have hhigh : w / 256 < 256 ↔ w < 65536 := by omega
    by_cases ha : a < 128 <;> by_cases hc : c < 256 <;> by_cases hw : w < 65536 <;>
      simp [ha, hc, hw, hhigh, smbWriteWord, single, extractLsb'_low_ofNat, extractLsb'_high_ofNat, Nat.mod_lt]
  case blockWrite a c vs =>
    obtain ⟨ts, hts, hbytes⟩ : ∃ ts, (payloadTexts hex vs).map tokenOf = .openBracket :: ts ∧ bytes ts = _ :=
      ⟨_, rfl, bytes_payloadTexts hex vs⟩
    rw [hts]
    change (match field 7 _, field 8 _, bytes _ with
      | some a, some c, some vs => smbBlockWrite a c vs
      | _, _, _ => none) = _
    rw [field_numeral, field_numeral, hbytes]
    have hcount : vs.length ≤ 32 → vs.length < 256 ∧ vs.length + 1 + 1 < 65536 := by omega
    by_cases ha : a < 128 <;> by_cases hc : c < 256 <;> cases hvs : vs.all (fun b => decide (b < 256)) <;>
      by_cases hlength : 1 ≤ vs.length ∧ vs.length ≤ 32 <;>
      simp [ha, hc, hvs, hlength, hcount, smbBlockWrite, single]

/-- The expansion of an encodable pseudo-instruction has an encoding. -/
theorem wellFormed_of_encodable {l : Source} (h : l.encodable = true) : l.instr.wellFormed = true := by
  cases l <;> simp_all [Source.encodable, Source.instr, Instr.wellFormed, encodableMessages_eq]

/-- Settles O58: the texts of the line are read as the expansion, which has an encoding where the operands fit. -/
theorem pseudoLinesParseToTheirExpansions : Obligations.PseudoLinesParseToTheirExpansions := by
  refine ⟨fun hex l => ?_, fun _ _ => rfl⟩
  rw [parseLine_written (isText_of_mem_pseudoSource hex l), command_pseudo]
  split
  · next hencodable =>
    have hexpansion : l.expansion.encodable = true := (Bool.and_eq_true_iff.1 hencodable).1
    simp [Option.filter, wellFormed_of_encodable hexpansion]
  · rfl

end Sys2Proof.Assembler

/-! ## The bus conditions (O14 to O17) -/

namespace Sys2Proof.Machine

/-! ### Legal states and refusals -/

/-- The legal states of START (R141). -/
theorem ready_iff_mem (s : State) : s.ready = true ↔ s.bus ∈ [BusState.idle, .started, .byteInProgress] := by
  unfold State.ready State.held
  cases s.bus <;> decide

/-- The legal states of STOP and of the bit and byte commands (R142). -/
theorem held_iff_mem (s : State) : s.held = true ↔ s.bus ∈ [BusState.started, .byteInProgress] := by
  unfold State.held
  cases s.bus <;> decide

/-- Where START may begin, the bus is held exactly if it is not idle. -/
theorem bne_idle_of_ready {s : State} (hready : s.ready = true) : (s.bus != .idle) = s.held := by
  rcases ready_cases s hready with ⟨hbus, hheld⟩ | ⟨hbus, hheld⟩ <;> simp [hbus, hheld]

/-- A command of the state table is refused in an ILL cell (R23). -/
theorem exec_of_illCell {i : Instr} {s : State} (htable : inTable i = true) (hcell : tableNext i s.bus = none) :
    exec i s = .next { s with trace := [], response := some ⟨0x40000000#32, 0#32, 0#32, []⟩ } := by
  obtain ⟨t, hexec⟩ := exists_exec_next i s
  rw [hexec, (stateMachineTable i s t htable hexec).1 hcell]
  rfl

/-- A stretch of fewer polls than `POLL_LIMIT` stays within the budget (R66). -/
theorem stretch_lt_timeout {c : Config} {n : Nat} (hlegal : legalConfig c = true) (hn : n < pollLimit c) :
    n * c.pollInterval < c.timeout := by
  obtain ⟨-, hinterval, -⟩ := (legalConfig_iff c).1 hlegal
  exact (lt_pollLimit hinterval n).1 hn

/-- Every wait has a first poll (R66). -/
theorem pollLimit_pos {c : Config} (hlegal : legalConfig c = true) : 0 < pollLimit c := by
  obtain ⟨htimeout, hinterval, -⟩ := (legalConfig_iff c).1 hlegal
  exact (lt_pollLimit hinterval 0).2 (by omega)

/-! ### Completion of an engine command by the host -/

section
variable {s : State} {n : Nat} {rest : List Level} {f : FailedRun}

/-- The response of a command that times out: STATUS 3, every other field 0 (R106). -/
theorem toResponse_of_timedOut (hbus : f.bus = .timedOut) :
    (Result.failed f.failure).toResponse = ⟨0x30000000#32, 0#32, 0#32, []⟩ := by
  rw [FailedRun.failure, if_pos hbus]
  rfl

/-- The response of a command that loses the arbitration: STATUS 2, every other field 0 (R106). -/
theorem toResponse_of_arbitrationLost (hbus : f.bus = .arbitrationLost) :
    (Result.failed f.failure).toResponse = ⟨0x20000000#32, 0#32, 0#32, []⟩ := by
  rw [FailedRun.failure, if_neg (by simp [hbus])]
  rfl

/-- A failing run of START, issued by the host: what its state and its response are. -/
theorem exec_start_fails (hlegal : legalConfig s.cfg = true) (hready : s.ready = true) (hn : n < pollLimit s.cfg)
    (hf : f ∈ startFailures s.cfg n (s.bus != .idle)) (henv : s.env = f.draws ++ rest) :
    exec .start s = .next { s with
      bus := f.bus, scl := .rel, sda := f.sda, trace := f.trace, env := rest, draws := s.draws + f.draws.length,
      response := some (Result.failed f.failure).toResponse } := by
  rw [bne_idle_of_ready hready] at hf
  rw [exec_start, engStart_fails (s := s.beginCommand) hlegal hready (stretch_lt_timeout hlegal hn) hf henv]
  rfl

/-- A failing run of STOP, issued by the host. -/
theorem exec_stop_fails (hlegal : legalConfig s.cfg = true) (hheld : s.held = true) (hn : n < pollLimit s.cfg)
    (hf : f ∈ stopFailures s.cfg n) (henv : s.env = f.draws ++ rest) :
    exec .stop s = .next { s with
      bus := f.bus, scl := .rel, sda := f.sda, trace := f.trace, env := rest, draws := s.draws + f.draws.length,
      response := some (Result.failed f.failure).toResponse } := by
  rw [exec_stop, engStop_fails (s := s.beginCommand) hlegal hheld (stretch_lt_timeout hlegal hn) hf henv]
  rfl

/-- START on a co-operating bus, issued by the host. -/
theorem exec_start_succeeds (b : Level) (hlegal : legalConfig s.cfg = true) (hready : s.ready = true)
    (hn : n < pollLimit s.cfg) (henv : s.env = startDraws n b ++ rest) (hb : s.cfg.openDrainReadback = true ∨ b = false) :
    exec .start s = .next { s with
      bus := .started, scl := .rel, sda := .low, trace := startTrace s.cfg (s.bus != .idle) n, env := rest,
      draws := s.draws + (startDraws n b).length, response := some ⟨0#32, 0#32, 0#32, []⟩ } := by
  rw [bne_idle_of_ready hready, exec_start,
    engStart_succeeds (s := s.beginCommand) b hlegal hready henv hb (stretch_lt_timeout hlegal hn)]
  rfl

/-- STOP on a co-operating bus, issued by the host. -/
theorem exec_stop_succeeds (hlegal : legalConfig s.cfg = true) (hheld : s.held = true) (hn : n < pollLimit s.cfg)
    (henv : s.env = stopDraws s.cfg n ++ rest) :
    exec .stop s = .next { s with
      bus := .idle, scl := .rel, sda := .rel, trace := stopTrace s.cfg n, env := rest,
      draws := s.draws + (stopDraws s.cfg n).length, response := some ⟨0#32, 0#32, 0#32, []⟩ } := by
  rw [exec_stop, engStop_succeeds (s := s.beginCommand) hlegal hheld henv (stretch_lt_timeout hlegal hn)]
  rfl

end

/-- Settles O14: START is refused in its ILL cells, fails in each run of `startFailures`, and succeeds otherwise. -/
theorem startRule : Obligations.StartRule := by
  intro s rest hlegal
  refine ⟨fun hbus => exec_of_illCell rfl ?_, fun hbus => ?_⟩
  · rw [tableNext_start, if_neg (mt (ready_iff_mem s).1 hbus)]
  have hready := (ready_iff_mem s).2 hbus
  refine ⟨fun henv => ?_, fun n hn henv => ?_, fun n hn henv hreadback => ?_, fun n b hn henv hb => ?_⟩
  · rw [exec_start_fails (rest := rest) hlegal hready (pollLimit_pos hlegal) (mem_startFailures.2 (.inl rfl)) henv,
      toResponse_of_timedOut rfl, List.length_replicate]
  · rw [exec_start_fails (rest := rest) hlegal hready hn (mem_startFailures.2 (.inr (.inl rfl))) (by simp [henv]),
      toResponse_of_arbitrationLost rfl]
    simp [stretchDraws]
  · rw [exec_start_fails (rest := rest) hlegal hready hn (mem_startFailures.2 (.inr (.inr ⟨hreadback, rfl⟩)))
      (by simp [henv]), toResponse_of_arbitrationLost rfl]
    simp [stretchDraws]
  · rw [exec_start_succeeds (rest := rest) b hlegal hready hn (by simp [henv, startDraws]) hb]
    simp [startDraws, stretchDraws]

/-- Settles O15: STOP is refused in its ILL cells, fails in each run of `stopFailures`, and succeeds otherwise. -/
theorem stopRule : Obligations.StopRule := by
  intro s rest hlegal
  refine ⟨fun hbus => exec_of_illCell rfl ?_, fun hbus => ?_⟩
  · rw [tableNext_stop, if_neg (mt (held_iff_mem s).1 hbus)]
  have hheld := (held_iff_mem s).2 hbus
  refine ⟨fun henv => ?_, fun n hn henv hcheck => ?_, fun n hn henv => exec_stop_succeeds hlegal hheld hn henv⟩
  · rw [exec_stop_fails (rest := rest) hlegal hheld (pollLimit_pos hlegal) (mem_stopFailures.2 (.inl rfl)) henv,
      toResponse_of_timedOut rfl]
    simp [clockTimeout]
  · rw [exec_stop_fails (rest := rest) hlegal hheld hn (mem_stopFailures.2 (.inr ⟨hcheck, rfl⟩)) (by simp [henv]),
      toResponse_of_arbitrationLost rfl]
    simp [stretchDraws]

/-- Settles O16: nothing in RESET depends on the state or on a draw. -/
theorem resetRule : Obligations.ResetRule := fun _ => rfl

/-! ### The state word (R144) -/

/-- Zeros above a word widen it. -/
theorem zero_append {m n : Nat} (v : BitVec n) : 0#m ++ v = v.setWidth (m + n) := by
  apply BitVec.eq_of_toNat_eq
  have hlt : v.toNat < 2 ^ (m + n) := v.isLt.trans_le (Nat.pow_le_pow_right (by decide) (Nat.le_add_left n m))
  simp [BitVec.toNat_append, Nat.mod_eq_of_lt hlt]

/-- The response of GETSTATE: the state word in RSP0, the mux index in RSP2, every other field 0 (R106, R144). -/
theorem toResponse_getstate (v i : Byte) :
    Result.toResponse { outcome := .ok, value := v, muxIndex := i } = ⟨v.setWidth 32, 0#32, i.setWidth 32, []⟩ := by
  have hrsp0 : (0#4 ++ 0#11 ++ BitVec.ofBool false ++ 0#8 ++ v : Word) = v.setWidth 32 := zero_append v
  have hrsp2 : (0#16 ++ (0#16 ||| i.setWidth 16) : Word) = i.setWidth 32 := by
    rw [BitVec.zero_or, zero_append]
    exact BitVec.setWidth_setWidth (by decide)
  simp only [Result.toResponse, CmdOutcome.code, CmdOutcome.nackIndex, hrsp0, hrsp2]

/-- GETSTATE writes its response and empties the trace; it changes nothing else (R144). -/
theorem exec_getstate_response (s : State) : exec .getstate s = .next { s with
    trace := [], response := some ⟨(stateWord s).setWidth 32, 0#32, s.muxCur.indexOrZero.setWidth 32, []⟩ } := by
  rw [exec_getstate, State.answer, toResponse_getstate]
  rfl

/-- The low three bits of the state word are the code of the bus state (R22). -/
theorem stateWord_code (s : State) : (stateWord s).extractLsb' 0 3 = s.bus.code := BitVec.extractLsb'_append_eq_right

/-- The bits of the state word above the bus state: the two drives, the selection, and zeros in between. -/
theorem stateWord_bits (s : State) :
    (stateWord s).getLsbD 3 = false ∧ ((stateWord s).getLsbD 4 = true ↔ s.scl = .rel) ∧
      ((stateWord s).getLsbD 5 = true ↔ s.sda = .rel) ∧ ((stateWord s).getLsbD 6 = true ↔ s.muxCur ≠ .unknown) ∧
      (stateWord s).getLsbD 7 = false := by
  simp only [stateWord, BitVec.getLsbD_append]
  simp

/-- An idle engine with both lines released shows 0x30, or 0x70 with a known selection. -/
theorem stateWord_of_idle {s : State} (hbus : s.bus = .idle) (hscl : s.scl = .rel) (hsda : s.sda = .rel) :
    stateWord s = 0x30#8 ∨ stateWord s = 0x70#8 := by
  unfold stateWord
  rw [hbus, hscl, hsda]
  cases s.muxCur != .unknown with
  | false => exact .inl rfl
  | true => exact .inr rfl

/-- Settles O17: the reported byte is the state word; an idle engine that meets the invariant has released both lines. -/
theorem getstateRule : Obligations.GetstateRule := by
  intro s
  obtain ⟨hbit3, hscl, hsda, hmux, hbit7⟩ := stateWord_bits s
  refine ⟨stateWord s, ?_, ?_, hbit3, hscl, hsda, hmux, hbit7,
    fun hinv hidle => stateWord_of_idle hidle hinv.scl (hinv.idle hidle)⟩
  · rw [exec_getstate_response]
    cases s.muxCur <;> rfl
  · rw [stateWord_code]
    cases s.bus <;> rfl

end Sys2Proof.Machine

/-! ## The bits (O18, O19) -/

namespace Sys2Proof.Machine

/-! ### Completion of a bit command by the host -/

section
variable {s : State} {n : Nat} {rest : List Level} {f : FailedRun}

/-- A failing run of WRBIT, issued by the host. -/
theorem exec_wrbit_fails (b : Level) (hlegal : legalConfig s.cfg = true) (hheld : s.held = true) (hn : n < pollLimit s.cfg)
    (hf : f ∈ wrbitFailures s.cfg n b) (henv : s.env = f.draws ++ rest) :
    exec (.wrbit b) s = .next { s with
      bus := f.bus, scl := .rel, sda := f.sda, trace := f.trace, env := rest, draws := s.draws + f.draws.length,
      response := some (Result.failed f.failure).toResponse } := by
  rw [exec_wrbit, engWrbit_fails (s := s.beginCommand) b hlegal hheld (stretch_lt_timeout hlegal hn) hf henv]
  rfl

/-- WRBIT on a co-operating bus, issued by the host. -/
theorem exec_wrbit_succeeds (b : Level) (hlegal : legalConfig s.cfg = true) (hheld : s.held = true)
    (hn : n < pollLimit s.cfg) (henv : s.env = wrbitDraws s.cfg n b ++ rest) :
    exec (.wrbit b) s = .next { s with
      bus := .byteInProgress, scl := .rel, sda := bitDrive b, trace := wrbitTrace s.cfg n b, env := rest,
      draws := s.draws + (wrbitDraws s.cfg n b).length, response := some ⟨0#32, 0#32, 0#32, []⟩ } := by
  rw [exec_wrbit, engWrbit_succeeds (s := s.beginCommand) b hlegal hheld henv (stretch_lt_timeout hlegal hn)]
  rfl

/-- RDBIT whose clock is not seen to rise, issued by the host. -/
theorem exec_rdbit_timeout (hlegal : legalConfig s.cfg = true) (hheld : s.held = true)
    (henv : s.env = (clockTimeout s.cfg .rel).draws ++ rest) :
    exec .rdbit s = .next { s with
      bus := .timedOut, scl := .rel, sda := .rel, trace := (clockTimeout s.cfg .rel).trace, env := rest,
      draws := s.draws + (clockTimeout s.cfg .rel).draws.length, response := some ⟨0x30000000#32, 0#32, 0#32, []⟩ } := by
  rw [exec_rdbit, engRdbit_fails (s := s.beginCommand) hlegal hheld henv]
  rfl

/-- The response of RDBIT: the bit that was read, widened to a byte, in VALUE, and every other field 0 (R106, R161). -/
theorem toResponse_valued_bit (v : Level) : (Result.valued ((BitVec.ofBool v).setWidth 8)).toResponse =
    ⟨if v then 0x00000001#32 else 0x00000000#32, 0#32, 0#32, []⟩ := by
  cases v <;> rfl

/-- RDBIT on a co-operating bus, issued by the host. -/
theorem exec_rdbit_succeeds (v : Level) (hlegal : legalConfig s.cfg = true) (hheld : s.held = true)
    (hn : n < pollLimit s.cfg) (henv : s.env = rdbitDraws n v ++ rest) :
    exec .rdbit s = .next { s with
      bus := .byteInProgress, scl := .rel, sda := .rel, trace := rdbitTrace s.cfg n v, env := rest,
      draws := s.draws + (rdbitDraws n v).length,
      response := some ⟨if v then 0x00000001#32 else 0x00000000#32, 0#32, 0#32, []⟩ } := by
  rw [exec_rdbit, engRdbit_succeeds (s := s.beginCommand) v hlegal hheld henv (stretch_lt_timeout hlegal hn),
    ← toResponse_valued_bit]
  rfl

end

/-- RDBIT never reports a lost arbitration: every level that it samples is a legal bit (R161). -/
theorem exec_rdbit_status_ne {s t : State} (hexec : exec .rdbit s = .next t) : t.status ≠ some 2#4 := by
  rw [exec_rdbit] at hexec
  cases hexec
  have hends := engRdbit_ends s.beginCommand
  cases hrun : engRdbit s.beginCommand with
  | ok v u => simp [Res.complete, Result.valued]
  | fail f u =>
    rw [hrun] at hends
    obtain ⟨-, -, hlost, -⟩ := hends
    cases f with
    | arbitrationLost => exact absurd rfl hlost
    | timeout => simp [Res.complete, Result.failed, Failure.outcome]
    | illegalState => simp [Res.complete, Result.failed, Failure.outcome]

/-- Settles O18: WRBIT is refused in its ILL cells, fails in each run of `wrbitFailures`, and succeeds otherwise. -/
theorem wrbitRule : Obligations.WrbitRule := by
  intro b s rest hlegal
  refine ⟨fun hbus => exec_of_illCell rfl ?_, fun hbus => ?_⟩
  · rw [tableNext_bitOrByte s (.inr (.inl ⟨b, rfl⟩)), if_neg (mt (held_iff_mem s).1 hbus)]
  have hheld := (held_iff_mem s).2 hbus
  refine ⟨fun henv => ?_, fun n hn henv hb hcheck => ?_, fun n hn henv => exec_wrbit_succeeds b hlegal hheld hn henv⟩
  · rw [exec_wrbit_fails (rest := rest) b hlegal hheld (pollLimit_pos hlegal) (mem_wrbitFailures.2 (.inl rfl)) henv,
      toResponse_of_timedOut rfl]
    simp [clockTimeout, bitDrive]
  · rw [exec_wrbit_fails (rest := rest) b hlegal hheld hn (mem_wrbitFailures.2 (.inr ⟨⟨hb, hcheck⟩, rfl⟩))
      (by simp [henv]), toResponse_of_arbitrationLost rfl]
    simp [stretchDraws]

/-- Settles O19: RDBIT is refused in its ILL cells, fails where its clock is not seen to rise, and reads any level as a
bit. -/
theorem rdbitRule : Obligations.RdbitRule := by
  intro s rest hlegal
  refine ⟨fun hbus => exec_of_illCell rfl ?_, fun hbus => ?_, fun t hexec => exec_rdbit_status_ne hexec⟩
  · rw [tableNext_bitOrByte s (.inl rfl), if_neg (mt (held_iff_mem s).1 hbus)]
  have hheld := (held_iff_mem s).2 hbus
  refine ⟨fun henv => ?_, fun n v hn henv => ?_⟩
  · rw [exec_rdbit_timeout (rest := rest) hlegal hheld henv]
    simp [clockTimeout]
  · rw [exec_rdbit_succeeds (rest := rest) v hlegal hheld hn (by simp [henv, rdbitDraws])]
    simp [rdbitDraws, stretchDraws]

end Sys2Proof.Machine

/-! ## The bytes (O20, O21, O22) -/

namespace Sys2Proof.Machine

/-! ### Bytes that fail, every clock with its own stretch -/

section
variable {s : State} {n : Nat} {rest : List Level} {f : FailedRun} {w : Nat → Nat}

/-- A byte that fails in data bit `j` while it is sent (R180). -/
theorem engWrbyte_fails_in_bit (d : Byte) {j : Nat} (hj : j < 8) (hlegal : legalConfig s.cfg = true)
    (hheld : s.held = true) (hw : ByteStretches s.cfg w) (hn : n * s.cfg.pollInterval < s.cfg.timeout)
    (hf : f ∈ wrbitFailures s.cfg n (d.getLsbD (7 - j)))
    (henv : s.env = sendDraws s.cfg ((stretchedBits w d).take j) ++ f.draws ++ rest) :
    engWrbyte d s = .fail f.failure (s.failedBy
      (f.after (sendDraws s.cfg ((stretchedBits w d).take j)) (sendTrace s.cfg ((stretchedBits w d).take j))) rest) := by
  have hbits : sendBits (bitsMsbFirst d) s = _ := sendBits_fails (stretchedBits w d) j s f hj hlegal hheld
    (stretchedBits_stretches hw d) hn (by rwa [stretchedBits_get _ _ _ hj]) henv
  rw [engWrbyte, if_neg (by simp [hheld]), hbits]
  rfl

/-- A sent byte whose ninth clock is not seen to rise (R180). -/
theorem engWrbyte_fails_in_ninth (d : Byte) (hlegal : legalConfig s.cfg = true) (hheld : s.held = true)
    (hw : ByteStretches s.cfg w)
    (henv : s.env = sendDraws s.cfg (stretchedBits w d) ++ ((clockTimeout s.cfg .rel).draws ++ rest)) :
    engWrbyte d s = .fail .timeout (s.failedBy ((clockTimeout s.cfg .rel).after (sendDraws s.cfg (stretchedBits w d))
      (sendTrace s.cfg (stretchedBits w d))) rest) := by
  rw [engWrbyte, if_neg (by simp [hheld]), sendByte_succeeds d w hlegal hheld hw henv, Res.ok_andThen,
    engRdbit_fails (rest := rest) ?_ ?_ ?_]
  · simp [State.failedBy, Nat.add_assoc]
  · exact hlegal
  · rfl
  · rfl

/-- A byte that times out in data bit `j` while it is received (R181). -/
theorem engRdbyte_fails_in_bit (v : Byte) (sendAck : Bool) {j : Nat} (hj : j < 8) (hlegal : legalConfig s.cfg = true)
    (hheld : s.held = true) (hw : ByteStretches s.cfg w)
    (henv : s.env = receiveDraws ((stretchedBits w v).take j) ++ (clockTimeout s.cfg .rel).draws ++ rest) :
    engRdbyte sendAck s = .fail .timeout (s.failedBy ((clockTimeout s.cfg .rel).after
      (receiveDraws ((stretchedBits w v).take j)) (receiveTrace s.cfg ((stretchedBits w v).take j))) rest) := by
  have hbits : receiveBits 8 0#8 s = _ := receiveBits_fails (stretchedBits w v) j 0#8 s hj hlegal hheld
    (stretchedBits_stretches hw v) henv
  rw [engRdbyte, if_neg (by simp [hheld]), hbits]
  rfl

/-- A received byte that fails in its ninth clock, in which the acknowledgment is sent (R181). -/
theorem engRdbyte_fails_in_ninth (v : Byte) (sendAck : Bool) (hlegal : legalConfig s.cfg = true) (hheld : s.held = true)
    (hw : ByteStretches s.cfg w) (hn : n * s.cfg.pollInterval < s.cfg.timeout)
    (hf : f ∈ wrbitFailures s.cfg n (!sendAck))
    (henv : s.env = receiveDraws (stretchedBits w v) ++ (f.draws ++ rest)) :
    engRdbyte sendAck s = .fail f.failure (s.failedBy
      (f.after (receiveDraws (stretchedBits w v)) (receiveTrace s.cfg (stretchedBits w v))) rest) := by
  rw [engRdbyte, if_neg (by simp [hheld]), receiveByte_succeeds v w hlegal hheld hw henv, Res.ok_andThen,
    engWrbit_fails (n := n) (f := f) (rest := rest) (!sendAck) ?_ ?_ ?_ ?_ ?_]
  · simp [State.failedBy, Nat.add_assoc]
  · exact hlegal
  · rfl
  · exact hn
  · exact hf
  · rfl

/-! ### Completion of a byte command by the host -/

/-- An engine command that ends with a failing run, issued by the host: what its state and its response are. -/
theorem complete_failedRun {α : Type} {r : Res α} (x : Failure) (report : α → Result)
    (hrun : r = .fail x (s.beginCommand.failedBy f rest)) :
    r.complete report = { s with
      bus := f.bus, scl := .rel, sda := f.sda, trace := f.trace, env := rest, draws := s.draws + f.draws.length,
      response := some (Result.failed x).toResponse } := by
  rw [hrun]
  rfl

/-- STATUS 3, every other field 0 (R106). -/
theorem toResponse_failed_timeout : (Result.failed .timeout).toResponse = ⟨0x30000000#32, 0#32, 0#32, []⟩ := rfl

/-- STATUS 2, every other field 0 (R106). -/
theorem toResponse_failed_arbitrationLost :
    (Result.failed .arbitrationLost).toResponse = ⟨0x20000000#32, 0#32, 0#32, []⟩ := rfl

/-- The response of WRBYTE: ACK where SDA was low in the ninth clock (R106, R180). -/
theorem toResponse_acknowledged (v : Level) : (Result.acknowledged (!v)).toResponse =
    ⟨if v then 0x00000000#32 else 0x00010000#32, 0#32, 0#32, []⟩ := by
  cases v <;> rfl

/-- The response of RDBYTE: the byte in VALUE, every other field 0 (R106, R181). -/
theorem toResponse_valued (v : Byte) : (Result.valued v).toResponse = ⟨v.setWidth 32, 0#32, 0#32, []⟩ :=
  toResponse_getstate v 0#8

/-- WRBYTE on a co-operating bus, issued by the host. -/
theorem exec_wrbyte_succeeds (d : Byte) (v : Level) (hlegal : legalConfig s.cfg = true) (hheld : s.held = true)
    (hw : ByteStretches s.cfg w) (henv : s.env = wrbyteDraws s.cfg w d v ++ rest) :
    exec (.wrbyte d) s = .next { s with
      bus := .byteInProgress, scl := .rel, sda := .rel, trace := wrbyteTrace s.cfg w d v, env := rest,
      draws := s.draws + (wrbyteDraws s.cfg w d v).length,
      response := some ⟨if v then 0x00000000#32 else 0x00010000#32, 0#32, 0#32, []⟩ } := by
  rw [exec_wrbyte, engWrbyte_succeeds (s := s.beginCommand) d w v hlegal hheld hw henv, ← toResponse_acknowledged]
  rfl

/-- RDBYTE on a co-operating bus, issued by the host. -/
theorem exec_rdbyte_succeeds (v : Byte) (a : Bool) (hlegal : legalConfig s.cfg = true) (hheld : s.held = true)
    (hw : ByteStretches s.cfg w) (henv : s.env = rdbyteDraws s.cfg w v a ++ rest) :
    exec (.rdbyte a) s = .next { s with
      bus := .byteInProgress, scl := .rel, sda := bitDrive (!a), trace := rdbyteTrace s.cfg w v a, env := rest,
      draws := s.draws + (rdbyteDraws s.cfg w v a).length, response := some ⟨v.setWidth 32, 0#32, 0#32, []⟩ } := by
  rw [exec_rdbyte, engRdbyte_succeeds (s := s.beginCommand) v w a hlegal hheld hw henv, ← toResponse_valued]
  rfl

end

/-- The drive of the acknowledgment bit of RDBYTE: an ack pulls SDA low (R181). -/
theorem bitDrive_not (a : Bool) : bitDrive (!a) = if a then .low else .rel := by cases a <;> rfl

/-- Settles O20: WRBYTE is refused in its ILL cells, succeeds with either acknowledgment, fails in data bit `j` as WRBIT
does there, and fails in its ninth clock as RDBIT does. -/
theorem wrbyteRule : Obligations.WrbyteRule := by
  intro d s rest w hlegal hw
  refine ⟨fun hbus => exec_of_illCell rfl ?_, fun hbus => ?_⟩
  · rw [tableNext_bitOrByte s (.inr (.inr (.inl ⟨d, rfl⟩))), if_neg (mt (held_iff_mem s).1 hbus)]
  have hheld := (held_iff_mem s).2 hbus
  have hstretches : ByteStretches s.cfg w := fun j hj => stretch_lt_timeout hlegal (hw j hj)
  refine ⟨fun v henv => exec_wrbyte_succeeds d v hlegal hheld hstretches henv, fun j hj henv => ?bitTimeout,
    fun henv => ?ninthTimeout, fun j hj hbit hcheck henv => ?bitLost⟩
  case bitTimeout =>
    have hrun := engWrbyte_fails_in_bit (s := s.beginCommand) d hj hlegal hheld hstretches (hstretches j hj.le)
      (mem_wrbitFailures.2 (.inl rfl)) henv
    rw [exec_wrbyte, complete_failedRun .timeout _ hrun, toResponse_failed_timeout]
    simp [clockTimeout, bitDrive, Nat.add_assoc]
  case ninthTimeout =>
    have hrun := engWrbyte_fails_in_ninth (s := s.beginCommand) (rest := rest) d hlegal hheld hstretches
      (by simpa [clockTimeout] using henv)
    rw [exec_wrbyte, complete_failedRun .timeout _ hrun, toResponse_failed_timeout]
    simp [clockTimeout, Nat.add_assoc]
  case bitLost =>
    have hrun := engWrbyte_fails_in_bit (s := s.beginCommand) (rest := rest) d hj hlegal hheld hstretches
      (hstretches j hj.le) (mem_wrbitFailures.2 (.inr ⟨⟨hbit, hcheck⟩, rfl⟩)) (by simp [henv])
    rw [exec_wrbyte, complete_failedRun .arbitrationLost _ hrun, toResponse_failed_arbitrationLost]
    simp [stretchDraws, Nat.add_assoc]

/-- Settles O21: RDBYTE is refused in its ILL cells, succeeds, times out in data bit `j` as RDBIT does, and fails in its
ninth clock as WRBIT does, which checks a nack only. -/
theorem rdbyteRule : Obligations.RdbyteRule := by
  intro a s rest w v hlegal hw
  refine ⟨fun hbus => exec_of_illCell rfl ?_, fun hbus => ?_⟩
  · rw [tableNext_bitOrByte s (.inr (.inr (.inr ⟨a, rfl⟩))), if_neg (mt (held_iff_mem s).1 hbus)]
  have hheld := (held_iff_mem s).2 hbus
  have hstretches : ByteStretches s.cfg w := fun j hj => stretch_lt_timeout hlegal (hw j hj)
  refine ⟨fun henv => ?success, fun j hj henv => ?bitTimeout, fun henv => ?ninthTimeout, fun hnack hcheck henv => ?ninthLost⟩
  case success => rw [← bitDrive_not]; exact exec_rdbyte_succeeds v a hlegal hheld hstretches henv
  case bitTimeout =>
    have hrun := engRdbyte_fails_in_bit (s := s.beginCommand) (rest := rest) v a hj hlegal hheld hstretches henv
    rw [exec_rdbyte, complete_failedRun .timeout _ hrun, toResponse_failed_timeout]
    simp [clockTimeout, Nat.add_assoc]
  case ninthTimeout =>
    have hrun := engRdbyte_fails_in_ninth (s := s.beginCommand) (rest := rest) v a hlegal hheld hstretches
      (hstretches 8 le_rfl) (mem_wrbitFailures.2 (.inl rfl)) (by simpa [clockTimeout] using henv)
    rw [exec_rdbyte, complete_failedRun .timeout _ hrun, toResponse_failed_timeout]
    simp [clockTimeout, bitDrive_not, Nat.add_assoc]
  case ninthLost =>
    have hrun := engRdbyte_fails_in_ninth (s := s.beginCommand) (rest := rest) v a hlegal hheld hstretches
      (hstretches 8 le_rfl) (mem_wrbitFailures.2 (.inr ⟨⟨by simp [hnack], hcheck⟩, rfl⟩)) (by simp [henv])
    rw [exec_rdbyte, complete_failedRun .arbitrationLost _ hrun, toResponse_failed_arbitrationLost]
    simp [stretchDraws, Nat.add_assoc]

/-! ### Clock pulses (R182) -/

theorem clockPulses_append (es fs : List Event) : clockPulses (es ++ fs) = clockPulses es + clockPulses fs := by
  induction es with
  | nil => simp [clockPulses]
  | cons e es ih =>
    match e with
    | .set .scl .rel => simp [clockPulses, ih]; omega
    | .set .scl .low => simp [clockPulses, ih]
    | .set .sda _ => simp [clockPulses, ih]
    | .get _ _ => simp [clockPulses, ih]
    | .wait _ => simp [clockPulses, ih]

/-- A wait makes no clock pulse. -/
@[simp] theorem clockPulses_lowTrace (c : Config) (n : Nat) : clockPulses (lowTrace c n) = 0 := by
  induction n with
  | zero => rfl
  | succ n ih => exact ih

@[simp] theorem clockPulses_stretchTrace (c : Config) (n : Nat) : clockPulses (stretchTrace c n) = 0 := by
  simp [stretchTrace, clockPulses_append, clockPulses]

@[simp] theorem clockPulses_wrbitTrace (c : Config) (n : Nat) (b : Level) : clockPulses (wrbitTrace c n b) = 1 := by
  cases hcheck : b && c.arbCheckData <;> simp [wrbitTrace, clockPulses_append, clockPulses, hcheck]

@[simp] theorem clockPulses_rdbitTrace (c : Config) (n : Nat) (v : Level) : clockPulses (rdbitTrace c n v) = 1 := by
  simp [rdbitTrace, clockPulses_append, clockPulses]

/-- One clock pulse for each sent bit. -/
@[simp] theorem clockPulses_sendTrace (c : Config) (ps : List (Nat × Level)) :
    clockPulses (sendTrace c ps) = ps.length := by
  induction ps with
  | nil => rfl
  | cons p ps ih =>
    rw [sendTrace, List.flatMap_cons, clockPulses_append, clockPulses_wrbitTrace, ← sendTrace, ih, List.length_cons]
    omega

/-- One clock pulse for each received bit. -/
@[simp] theorem clockPulses_receiveTrace (c : Config) (ps : List (Nat × Level)) :
    clockPulses (receiveTrace c ps) = ps.length := by
  induction ps with
  | nil => rfl
  | cons p ps ih =>
    rw [receiveTrace, List.flatMap_cons, clockPulses_append, clockPulses_rdbitTrace, ← receiveTrace, ih, List.length_cons]
    omega

/-- Settles O22: the trace of a byte that succeeds is that of eight bits and of a ninth. -/
theorem byteIsNineClocks : Obligations.ByteIsNineClocks := by
  intro s t hstatus
  refine ⟨fun d hexec => ?wrbyte, fun a hexec => ?rdbyte, fun b hexec => ?wrbit, fun hexec => ?rdbit⟩
  case wrbyte =>
    rw [exec_wrbyte] at hexec
    cases hexec
    obtain ⟨ack, u, ⟨-, -, -, -, -, ps, m, hbits, hu⟩, htrace⟩ := trace_of_complete_ok (engWrbyte_ends d _) hstatus
    have hlength : ps.length = 8 := by simpa [bitsMsbFirst] using congrArg List.length hbits
    simp [htrace, hu, clockPulses_append, hlength]
  case rdbyte =>
    rw [exec_rdbyte] at hexec
    cases hexec
    obtain ⟨v, u, ⟨-, -, -, -, -, ps, m, hlength, -, hu⟩, htrace⟩ := trace_of_complete_ok (engRdbyte_ends a _) hstatus
    simp [htrace, hu, clockPulses_append, hlength]
  case wrbit =>
    rw [exec_wrbit] at hexec
    cases hexec
    obtain ⟨-, u, ⟨-, -, -, -, -, m, hu⟩, htrace⟩ := trace_of_complete_ok (engWrbit_ends b _) hstatus
    simp [htrace, hu]
  case rdbit =>
    rw [exec_rdbit] at hexec
    cases hexec
    obtain ⟨v, u, ⟨-, -, -, -, -, m, hu⟩, htrace⟩ := trace_of_complete_ok (engRdbit_ends _) hstatus
    simp [htrace, hu]

end Sys2Proof.Machine

/-! ## Transfers (O28 to O37, O55 to O57) -/

namespace Sys2Proof.Machine

/-! ### A state and the draws and events that lead to it -/

/-- `t` is where `s` gets over the events `trace`, for which the environment shows `draws` (R62, R65); `rest` are the draws
still to come. The bus state and the drives of `t` are left open. -/
structure Reached (s : State) (draws : List Level) (trace : List Event) (rest : List Level) (t : State) : Prop where
  frame : Frame s t
  trace : t.trace = s.trace ++ trace
  env   : t.env = rest
  draws : t.draws = s.draws + draws.length

section
variable {s t u : State} {ds ds' : List Level} {es es' : List Event} {rest rest' : List Level}

theorem Reached.refl (henv : s.env = rest) : Reached s [] [] rest s := ⟨.refl s, by simp, henv, rfl⟩

theorem Reached.trans (h : Reached s ds es rest t) (h' : Reached t ds' es' rest' u) :
    Reached s (ds ++ ds') (es ++ es') rest' u :=
  ⟨h.frame.trans h'.frame, by rw [h'.trace, h.trace, List.append_assoc], h'.env,
    by rw [h'.draws, h.draws, List.length_append, Nat.add_assoc]⟩

/-- The state in which a command of the engine leaves `s`, written out (as in Laws/Engine.lean). -/
theorem reached_of_fields (b : BusState) (c d : Drive) : Reached s ds es rest
    { s with bus := b, scl := c, sda := d, trace := s.trace ++ es, env := rest, draws := s.draws + ds.length } :=
  ⟨⟨rfl, rfl, rfl, rfl, rfl⟩, rfl, rfl, rfl⟩

/-- A state that is reached is known but for its bus state and its drives. -/
theorem Reached.eq (h : Reached s ds es rest t) : t =
    { s with bus := t.bus, scl := t.scl, sda := t.sda, trace := s.trace ++ es, env := rest, draws := s.draws + ds.length } := by
  obtain ⟨⟨hcfg, hlock, hport, hresponse, hmux⟩, htrace, henv, hdraws⟩ := h
  cases t
  simp only at hcfg hlock hport hresponse hmux htrace henv hdraws
  simp [hcfg, hlock, hport, hresponse, hmux, htrace, henv, hdraws]

/-- A failing run from a state that is reached is a failing run from the start. -/
theorem Reached.failedBy (h : Reached s ds es rest' t) (f : FailedRun) : t.failedBy f rest = s.failedBy (f.after ds es) rest := by
  rw [h.eq]
  simp [State.failedBy, Nat.add_assoc]

end

/-! ### The responses of transfers -/

section
variable {s t : State} {p : Progress} {f : FailedRun} {rest : List Level}

/-- STATUS 0, and the bytes completed (R106, R206). -/
theorem toResponse_ending_ok : (p.ending .ok).toResponse = ⟨0#32, BitVec.ofNat 32 p.count, 0#32, p.rdata⟩ := by
  simp [Result.toResponse, Progress.ending, CmdOutcome.code, CmdOutcome.nackIndex]

/-- STATUS 1 and NACK_INDEX, and the bytes completed (R106, R206). -/
theorem toResponse_ending_nack (k : Nat) : (p.ending (.nack k)).toResponse =
    ⟨0x10000000#32, BitVec.ofNat 32 p.count, (BitVec.ofNat 16 k).setWidth 32, p.rdata⟩ := by
  have hindex : (0#16 ++ BitVec.ofNat 16 k : Word) = (BitVec.ofNat 16 k).setWidth 32 := zero_append _
  simp [Result.toResponse, Progress.ending, CmdOutcome.code, CmdOutcome.nackIndex, hindex]

/-- STATUS 2 or 3, and the bytes completed (R106, R206). -/
theorem toResponse_ending_failure : (p.ending f.failure.outcome).toResponse =
    ⟨if f.bus = .timedOut then 0x30000000#32 else 0x20000000#32, BitVec.ofNat 32 p.count, 0#32, p.rdata⟩ := by
  unfold FailedRun.failure
  split <;> simp [Result.toResponse, Progress.ending, Failure.outcome, CmdOutcome.code, CmdOutcome.nackIndex]

/-- The state after a failing run of a whole transfer, reset or not, with its response: `transferFailed` (R204). -/
theorem answer_failure : ((if s.cfg.driverAutoReset then engReset (s.beginCommand.failedBy f rest)
      else s.beginCommand.failedBy f rest).answer (p.ending f.failure.outcome)) =
    s.transferFailed f rest p.count p.rdata := by
  rw [State.answer, toResponse_ending_failure, State.transferFailed]
  cases s.cfg.driverAutoReset <;>
    simp [engReset, releaseBus, State.failedBy, State.setBus, State.setMux, State.delayRf, State.delay, State.note,
      State.setLine, State.setDrv, resetTrace]

end

/-! ### What is left of a transfer -/

/-- The transfer of `s` goes on as `run`: where `run` is over, the whole transfer is over with the same result and state. -/
def GoesOn {α : Type} (s : State) (chain : Bool) (msgs : List Message) (run : Run α) : Prop :=
  ∀ r t, run = .ended r t → transfer chain msgs s = (r, t)

section
variable {α β : Type} {s t : State} {chain : Bool} {msgs : List Message} {p : Progress} {ds : List Level} {es : List Event}
  {rest rest' : List Level} {n : Nat}

/-- A transfer that is over in a part of a run is over in the run. -/
theorem GoesOn.head {run : Run α} {k : α → State → Run β} (h : GoesOn s chain msgs (run.andThen k)) :
    GoesOn s chain msgs run := fun r t hrun => h r t (by rw [hrun, Run.ended_andThen])

/-- A transfer that may begin goes on as its messages and its final STOP (R200). -/
theorem goesOn_runTransfer (hready : s.ready = true) : GoesOn s chain msgs (runTransfer chain msgs s) := by
  intro r t hrun
  rw [transfer, hrun]
  simp [hready]

/-- A transfer that comes to its end is Ok (R200). -/
theorem transfer_of_go (hready : s.ready = true) (hrun : runTransfer chain msgs s = .go p t) :
    transfer chain msgs s = (p.ending .ok, t) := by
  rw [transfer, hrun]
  simp [hready]

/-- A transfer that is Ok: what its state and its response are. -/
theorem exec_xfer_ok (htransfer : transfer chain msgs s.beginCommand = (p.ending .ok, t)) : exec (.xfer chain msgs) s =
    .next { t with response := some ⟨0#32, BitVec.ofNat 32 p.count, 0#32, p.rdata⟩ } := by
  rw [exec_xfer, htransfer, State.answer, toResponse_ending_ok]

/-- A transfer whose next command fails: the failing run begins with the draws and events before it (R204). -/
theorem exec_xfer_fails {r : Res α} {f : FailedRun} (hgo : GoesOn s.beginCommand chain msgs (eng p r))
    (hreached : Reached s.beginCommand ds es rest' t) (hfails : r = .fail f.failure (t.failedBy f rest)) :
    exec (.xfer chain msgs) s = .next (s.transferFailed (f.after ds es) rest p.count p.rdata) := by
  rw [hfails, eng_failed, hreached.failedBy] at hgo
  rw [exec_xfer, hgo _ _ rfl, ← answer_failure]
  rfl

/-- A STOP that succeeds in a state that is reached (R142). -/
theorem Reached.stop_succeeds (h : Reached s ds es (stopDraws s.cfg n ++ rest) t) (hheld : t.held = true)
    (hlegal : legalConfig s.cfg = true) (hn : n < pollLimit s.cfg) :
    engStop t = .ok () { s with
      bus := .idle, scl := .rel, sda := .rel, trace := s.trace ++ (es ++ stopTrace s.cfg n), env := rest,
      draws := s.draws + (ds ++ stopDraws s.cfg n).length } := by
  have hcfg := h.frame.cfg
  rw [← hcfg] at hlegal hn
  rw [engStop_succeeds hlegal hheld (hcfg.symm ▸ h.env) (stretch_lt_timeout hlegal hn), h.eq]
  simp [Nat.add_assoc]

/-- A transfer that was nacked and whose cleanup STOP succeeds (R207). -/
theorem exec_xfer_nacked {k : Nat} (hgo : GoesOn s.beginCommand chain msgs (nackExit p k t : Run α))
    (hreached : Reached s.beginCommand ds es (stopDraws s.cfg n ++ rest) t) (hheld : t.held = true)
    (hlegal : legalConfig s.cfg = true) (hn : n < pollLimit s.cfg) :
    exec (.xfer chain msgs) s = .next { s with
      bus := .idle, scl := .rel, sda := .rel, env := rest, draws := s.draws + (ds ++ stopDraws s.cfg n).length,
      trace := es ++ stopTrace s.cfg n,
      response := some ⟨0x10000000#32, BitVec.ofNat 32 p.count, (BitVec.ofNat 16 k).setWidth 32, p.rdata⟩ } := by
  rw [nackExit, hreached.stop_succeeds hheld hlegal hn, eng_ok, Run.go_andThen] at hgo
  rw [exec_xfer, hgo _ _ rfl, State.answer, toResponse_ending_nack]
  rfl

/-- Messages that complete on a held bus, and the final STOP (R209). -/
theorem exec_xfer_stopped (hready : s.ready = true)
    (hrun : runMessages (lastReadFrom 0 msgs) 0 ⟨0, []⟩ msgs s.beginCommand = .go p t)
    (hreached : Reached s.beginCommand ds es (stopDraws s.cfg n ++ rest) t) (hheld : t.held = true)
    (hlegal : legalConfig s.cfg = true) (hn : n < pollLimit s.cfg) :
    exec (.xfer false msgs) s = .next { s with
      bus := .idle, scl := .rel, sda := .rel, env := rest, draws := s.draws + (ds ++ stopDraws s.cfg n).length,
      trace := es ++ stopTrace s.cfg n, response := some ⟨0#32, BitVec.ofNat 32 p.count, 0#32, p.rdata⟩ } := by
  have hend : runTransfer false msgs s.beginCommand = (eng p (engStop t)).andThen fun _ u => .go p u := by
    rw [runTransfer, hrun, Run.go_andThen, hheld]
    rfl
  rw [hreached.stop_succeeds hheld hlegal hn, eng_ok, Run.go_andThen] at hend
  rw [exec_xfer_ok (transfer_of_go hready hend)]
  rfl

end

/-! ### The stages of a message (R201 to R205)

Each stage that succeeds takes a message to a state that is reached, and what is left of the message begins there. -/

section
variable {s t : State} {rest : List Level} {n : Nat}

/-- What is left of a message after its START: the address byte and the payload (R202). -/
def messageFromAddress (last : Bool) (p : Progress) (m : Message) (s : State) : Run Progress :=
  (eng p (engWrbyte m.addressByte s)).andThen fun ack s => if !ack then nackExit p 0 s else transferPayload last p m s

/-- What is left of a message after the STOP before it: START, the address byte and the payload (R201). -/
def messageFromStart (last : Bool) (p : Progress) (m : Message) (s : State) : Run Progress :=
  (eng p (engStart s)).andThen fun _ s => messageFromAddress last p m s

theorem runMessage_eq (last : Bool) (p : Progress) (m : Message) (s : State) : runMessage last p m s =
    (if s.held && !m.noStart then eng p (engStop s) else .go () s).andThen fun _ s => messageFromStart last p m s := rfl

/-- The STOP before a message on a held bus without no_start (R201). -/
theorem runMessage_stopBefore (last : Bool) (p : Progress) (m : Message) (hlegal : legalConfig s.cfg = true)
    (hready : s.ready = true) (hn : n < pollLimit s.cfg) (henv : s.env = stopBeforeDraws s.cfg n s.held m ++ rest) :
    ∃ t, runMessage last p m s = messageFromStart last p m t ∧ t.ready = true ∧ t.held = (s.held && m.noStart) ∧
      Reached s (stopBeforeDraws s.cfg n s.held m) (stopBeforeTrace s.cfg n s.held m) rest t := by
  obtain ⟨t, hstop, htready, htheld, -, ht⟩ :=
    stopFirst_succeeds m p s rest hlegal hready (stretch_lt_timeout hlegal hn) henv
  refine ⟨t, by rw [runMessage_eq, hstop, Run.go_andThen], htready, htheld, ?_⟩
  rw [ht]
  exact reached_of_fields _ _ _

/-- The START of a message (R141, R201). -/
theorem messageFromStart_succeeds (last : Bool) (p : Progress) (m : Message) (b : Level) (hlegal : legalConfig s.cfg = true)
    (hready : s.ready = true) (hn : n < pollLimit s.cfg) (hb : s.cfg.openDrainReadback = true ∨ b = false)
    (henv : s.env = startDraws n b ++ rest) :
    ∃ t, messageFromStart last p m s = messageFromAddress last p m t ∧ t.held = true ∧
      Reached s (startDraws n b) (startTrace s.cfg s.held n) rest t := by
  rw [messageFromStart, engStart_succeeds b hlegal hready henv hb (stretch_lt_timeout hlegal hn)]
  exact ⟨_, rfl, rfl, reached_of_fields _ _ _⟩

/-- After the address byte and acknowledged payload bytes the engine has released both lines of a held bus. -/
structure AtByte (s : State) : Prop where
  bus : s.bus = .byteInProgress
  scl : s.scl = .rel
  sda : s.sda = .rel

theorem AtByte.held (h : AtByte s) : s.held = true := held_of_byteInProgress h.bus

/-- The address byte, acknowledged or not (R202). -/
theorem messageFromAddress_answered (last : Bool) (p : Progress) (m : Message) (w : Nat → Nat) (nack : Level)
    (hlegal : legalConfig s.cfg = true) (hheld : s.held = true) (hw : ∀ j ≤ 8, w j < pollLimit s.cfg)
    (henv : s.env = wrbyteDraws s.cfg w m.addressByte nack ++ rest) :
    ∃ t, messageFromAddress last p m s = (if nack then nackExit p 0 t else transferPayload last p m t) ∧ AtByte t ∧
      Reached s (wrbyteDraws s.cfg w m.addressByte nack) (wrbyteTrace s.cfg w m.addressByte nack) rest t := by
  rw [messageFromAddress, engWrbyte_succeeds m.addressByte w nack hlegal hheld
    (fun j hj => stretch_lt_timeout hlegal (hw j hj)) henv]
  exact ⟨_, by rw [eng_ok, Run.go_andThen, Bool.not_not], ⟨rfl, rfl, rfl⟩, reached_of_fields _ _ _⟩

/-- A message up to the end of its address byte, every wait with its own stretch (R201, R202): `w` gives those of the START
and of the nine clocks. -/
theorem runMessage_addressed (last : Bool) (p : Progress) (m : Message) (w : Nat → Nat) (b nack : Level)
    (hlegal : legalConfig s.cfg = true) (hready : s.ready = true) (hn : n < pollLimit s.cfg)
    (hw : ∀ j ≤ 9, w j < pollLimit s.cfg) (hb : s.cfg.openDrainReadback = true ∨ b = false)
    (henv : s.env = stopBeforeDraws s.cfg n s.held m ++ (startDraws (w 0) b ++
      (wrbyteDraws s.cfg (fun j => w (j + 1)) m.addressByte nack ++ rest))) :
    ∃ t, runMessage last p m s = (if nack then nackExit p 0 t else transferPayload last p m t) ∧ AtByte t ∧
      Reached s (stopBeforeDraws s.cfg n s.held m ++ startDraws (w 0) b ++
          wrbyteDraws s.cfg (fun j => w (j + 1)) m.addressByte nack)
        (stopBeforeTrace s.cfg n s.held m ++ startTrace s.cfg (s.held && m.noStart) (w 0) ++
          wrbyteTrace s.cfg (fun j => w (j + 1)) m.addressByte nack) rest t := by
  obtain ⟨t, hmessage, htready, htheld, ht⟩ := runMessage_stopBefore last p m hlegal hready hn henv
  have htcfg := ht.frame.cfg
  obtain ⟨u, hstart, huheld, hu⟩ := messageFromStart_succeeds last p m b (htcfg ▸ hlegal) htready (htcfg ▸ hw 0 (by omega))
    (htcfg ▸ hb) ht.env
  have hucfg := hu.frame.cfg.trans htcfg
  obtain ⟨v, haddress, hvbyte, hv⟩ := messageFromAddress_answered last p m (fun j => w (j + 1)) nack (hucfg ▸ hlegal) huheld
    (fun j hj => hucfg ▸ hw (j + 1) (by omega)) (hucfg ▸ hu.env)
  rw [htcfg, htheld] at hu
  rw [hucfg] at hv
  exact ⟨v, by rw [hmessage, hstart, haddress], hvbyte, (ht.trans hu).trans hv⟩

/-- Nothing follows the cleanup of a nack (R207). -/
theorem nackExit_andThen {α β : Type} (p : Progress) (k : Nat) (s : State) (next : α → State → Run β) :
    (nackExit p k s).andThen next = nackExit p k s := by
  unfold nackExit
  cases eng p (engStop s) <;> rfl

theorem sendPayload_append (ds' ds : List Byte) : ∀ (p : Progress) (k : Nat) (s : State),
    sendPayload p k (ds ++ ds') s =
      (sendPayload p k ds s).andThen fun q t => sendPayload q (k + ds.length) ds' t := by
  induction ds with
  | nil => exact fun p k s => rfl
  | cons d ds ih =>
    intro p k s
    rw [List.cons_append, sendPayload, sendPayload]
    cases eng p (engWrbyte d s) with
    | ended r t => rfl
    | go ack t =>
      simp only [Run.go_andThen]
      split
      · exact (nackExit_andThen p k t _).symm
      · rw [ih, List.length_cons, Nat.add_assoc, Nat.add_comm 1]

/-- The acknowledged bytes with which a Write payload begins (R203). -/
theorem sendPayload_acknowledged (ds ds' : List Byte) (p : Progress) (k : Nat) (hlegal : legalConfig s.cfg = true)
    (hbyte : AtByte s) (hn : n < pollLimit s.cfg) (henv : s.env = writeDraws s.cfg n ds ++ rest) :
    ∃ t, sendPayload p k (ds ++ ds') s = sendPayload { p with count := p.count + ds.length } (k + ds.length) ds' t ∧
      AtByte t ∧ Reached s (writeDraws s.cfg n ds) (writeTrace s.cfg n ds) rest t := by
  rw [sendPayload_append, sendPayload_succeeds ds p k s rest hlegal hbyte.bus hbyte.scl hbyte.sda
    (stretch_lt_timeout hlegal hn) henv, Run.go_andThen]
  exact ⟨_, rfl, ⟨hbyte.bus, hbyte.scl, hbyte.sda⟩, reached_of_fields _ _ _⟩

/-- Every byte of a Read message but its last one is acked, as in a message that is not the last Read message (R205). -/
theorem receivePayload_add (last : Bool) (k n : Nat) : ∀ (p : Progress) (s : State),
    receivePayload last (k + (n + 1)) p s =
      (receivePayload false k p s).andThen fun q t => receivePayload last (n + 1) q t := by
  induction k with
  | zero => exact fun p s => by rw [Nat.zero_add]; rfl
  | succ k ih =>
    intro p s
    have hnotLast : (k + (n + 1) == 0) = false := by simp
    rw [Nat.add_right_comm k 1, receivePayload, receivePayload, hnotLast, Bool.and_false, Bool.false_and]
    cases eng p (engRdbyte (!false) s) with
    | ended r t => rfl
    | go v t => exact ih _ t

/-- The bytes with which a Read payload begins, more being asked for (R205). -/
theorem receivePayload_received (last : Bool) (vs : List Byte) (k : Nat) (p : Progress) (hlegal : legalConfig s.cfg = true)
    (hbyte : AtByte s) (hn : n < pollLimit s.cfg) (henv : s.env = readDraws s.cfg n false vs ++ rest) :
    ∃ t, receivePayload last (vs.length + (k + 1)) p s =
        receivePayload last (k + 1) { count := p.count + vs.length, rdata := p.rdata ++ vs } t ∧
      t.held = true ∧ Reached s (readDraws s.cfg n false vs) (readTrace s.cfg n false vs) rest t := by
  rw [receivePayload_add, receivePayload_succeeds false vs p s rest hlegal hbyte.bus hbyte.scl
    (stretch_lt_timeout hlegal hn) henv, Run.go_andThen]
  exact ⟨_, rfl, hbyte.held, reached_of_fields _ _ _⟩

end

/-! ### A transfer after exchanges that complete -/

/-- What exchanges that complete have transferred (R206, R107). -/
def completed (xs : List Exchange) : Progress := ⟨payloadTotal (xs.map (·.1)), bytesReturned xs⟩

section
variable {s t : State} {chain : Bool} {xs : List Exchange} {m : Message} {later : List Message} {rest : List Level} {n : Nat}

/-- Exchanges that complete: the messages after them run in a state that is reached, and the last Read message of the list
is known (R205). -/
theorem exchanges_reach (later : List Message) (hfits : ∀ x ∈ xs, x.fits) (hlegal : legalConfig s.cfg = true)
    (hready : s.ready = true) (hn : n < pollLimit s.cfg) (henv : s.env = exchangesDraws s.cfg n later s.held xs ++ rest) :
    ∃ t, runMessages (lastReadFrom 0 (xs.map (·.1) ++ later)) 0 ⟨0, []⟩ (xs.map (·.1) ++ later) s =
        runMessages (lastReadFrom 0 (xs.map (·.1) ++ later)) xs.length (completed xs) later t ∧
      t.ready = true ∧ t.held = (s.held || !xs.isEmpty) ∧
      Reached s (exchangesDraws s.cfg n later s.held xs) (exchangesTrace s.cfg n later s.held xs) rest t := by
  have hrun := runMessages_succeeds (n := n) _ later xs 0 ⟨0, []⟩ s rest (knowsLastRead _) hfits hlegal hready
    (stretch_lt_timeout hlegal hn) henv
  simp only [Nat.zero_add, List.nil_append] at hrun
  refine ⟨_, hrun, ?_, ?_, reached_of_fields _ _ _⟩
  · cases xs with
    | nil => exact hready
    | cons x xs => rfl
  · cases xs with
    | nil => simp [State.held]
    | cons x xs => simp [State.held]

/-- The message after exchanges that complete. -/
theorem goesOn_message (hfits : ∀ x ∈ xs, x.fits) (hlegal : legalConfig s.cfg = true) (hready : s.ready = true)
    (hn : n < pollLimit s.cfg) (henv : s.env = exchangesDraws s.cfg n (m :: later) s.held xs ++ rest) :
    ∃ t, GoesOn s chain (xs.map (·.1) ++ m :: later) (runMessage (isLastRead m later) (completed xs) m t) ∧
      t.ready = true ∧ t.held = (s.held || !xs.isEmpty) ∧
      Reached s (exchangesDraws s.cfg n (m :: later) s.held xs) (exchangesTrace s.cfg n (m :: later) s.held xs) rest t := by
  obtain ⟨t, hrun, ht⟩ := exchanges_reach (m :: later) hfits hlegal hready hn henv
  have hgo := (goesOn_runTransfer (chain := chain) (msgs := xs.map (·.1) ++ m :: later) hready).head
  have hlast := lastReadFrom_append (xs.map (·.1)) m later 0
  rw [List.length_map, Nat.zero_add] at hlast
  rw [hrun, runMessages, hlast] at hgo
  exact ⟨t, hgo.head, ht⟩

/-- The START of the message after exchanges that complete, the STOP before it done (R201). -/
theorem goesOn_fromStart (hfits : ∀ x ∈ xs, x.fits) (hlegal : legalConfig s.cfg = true) (hready : s.ready = true)
    (hn : n < pollLimit s.cfg)
    (henv : s.env = exchangesDraws s.cfg n (m :: later) s.held xs ++
      (stopBeforeDraws s.cfg n (s.held || !xs.isEmpty) m ++ rest)) :
    ∃ t, GoesOn s chain (xs.map (·.1) ++ m :: later) (messageFromStart (isLastRead m later) (completed xs) m t) ∧
      t.ready = true ∧ t.held = ((s.held || !xs.isEmpty) && m.noStart) ∧
      Reached s (exchangesDraws s.cfg n (m :: later) s.held xs ++ stopBeforeDraws s.cfg n (s.held || !xs.isEmpty) m)
        (exchangesTrace s.cfg n (m :: later) s.held xs ++ stopBeforeTrace s.cfg n (s.held || !xs.isEmpty) m) rest t := by
  obtain ⟨t, hgo, htready, htheld, ht⟩ := goesOn_message (chain := chain) hfits hlegal hready hn henv
  have hcfg := ht.frame.cfg
  obtain ⟨u, hmessage, huready, huheld, hu⟩ := runMessage_stopBefore (n := n) (rest := rest) (isLastRead m later)
    (completed xs) m (hcfg ▸ hlegal) htready (hcfg ▸ hn) (by rw [ht.env, hcfg, htheld])
  rw [hcfg, htheld] at hu
  exact ⟨u, hmessage ▸ hgo, huready, htheld ▸ huheld, ht.trans hu⟩

/-- The address byte of the message after exchanges that complete, the START done (R202). -/
theorem goesOn_fromAddress (hfits : ∀ x ∈ xs, x.fits) (hlegal : legalConfig s.cfg = true) (hready : s.ready = true)
    (hn : n < pollLimit s.cfg)
    (henv : s.env = exchangesDraws s.cfg n (m :: later) s.held xs ++
      (stopBeforeDraws s.cfg n (s.held || !xs.isEmpty) m ++ (startDraws n false ++ rest))) :
    ∃ t, GoesOn s chain (xs.map (·.1) ++ m :: later) (messageFromAddress (isLastRead m later) (completed xs) m t) ∧
      t.held = true ∧
      Reached s
        (exchangesDraws s.cfg n (m :: later) s.held xs ++ stopBeforeDraws s.cfg n (s.held || !xs.isEmpty) m ++
          startDraws n false)
        (exchangesTrace s.cfg n (m :: later) s.held xs ++ stopBeforeTrace s.cfg n (s.held || !xs.isEmpty) m ++
          startTrace s.cfg ((s.held || !xs.isEmpty) && m.noStart) n) rest t := by
  obtain ⟨t, hgo, htready, htheld, ht⟩ := goesOn_fromStart (chain := chain) hfits hlegal hready hn henv
  have hcfg := ht.frame.cfg
  obtain ⟨u, hmessage, huheld, hu⟩ := messageFromStart_succeeds (n := n) (rest := rest) (isLastRead m later) (completed xs)
    m false (hcfg ▸ hlegal) htready (hcfg ▸ hn) (.inr rfl) ht.env
  rw [hcfg, htheld] at hu
  exact ⟨u, hmessage ▸ hgo, huheld, ht.trans hu⟩

/-- The address byte of the message after exchanges that complete, answered at level `nack`. -/
theorem goesOn_answered (nack : Level) (hfits : ∀ x ∈ xs, x.fits) (hlegal : legalConfig s.cfg = true)
    (hready : s.ready = true) (hn : n < pollLimit s.cfg)
    (henv : s.env = exchangesDraws s.cfg n (m :: later) s.held xs ++
      (addressDraws s.cfg n (s.held || !xs.isEmpty) m nack ++ rest)) :
    ∃ t, GoesOn s chain (xs.map (·.1) ++ m :: later)
        (if nack then nackExit (completed xs) 0 t else transferPayload (isLastRead m later) (completed xs) m t) ∧
      AtByte t ∧
      Reached s (exchangesDraws s.cfg n (m :: later) s.held xs ++ addressDraws s.cfg n (s.held || !xs.isEmpty) m nack)
        (exchangesTrace s.cfg n (m :: later) s.held xs ++ addressTrace s.cfg n (s.held || !xs.isEmpty) m nack) rest t := by
  obtain ⟨t, hgo, htready, htheld, ht⟩ := goesOn_message (chain := chain) hfits hlegal hready hn henv
  have hcfg := ht.frame.cfg
  obtain ⟨u, hmessage, hubyte, hu⟩ := runMessage_addressed (n := n) (rest := rest) (isLastRead m later) (completed xs) m
    (fun _ => n) false nack (hcfg ▸ hlegal) htready (hcfg ▸ hn) (fun _ _ => hcfg ▸ hn) (.inr rfl)
    (by rw [ht.env, hcfg, htheld, addressDraws, stopBeforeDraws]; simp only [List.append_assoc])
  rw [hcfg, htheld] at hu
  exact ⟨u, hmessage ▸ hgo, hubyte, ht.trans hu⟩

/-- The byte after acknowledged bytes of a Write message. -/
theorem goesOn_writeByte {a : BitVec 7} {ns : Bool} {ds es : List Byte} (hfits : ∀ x ∈ xs, x.fits)
    (hlegal : legalConfig s.cfg = true) (hready : s.ready = true) (hn : n < pollLimit s.cfg)
    (hm : m = .write a ns (ds ++ es))
    (henv : s.env = exchangesDraws s.cfg n (m :: later) s.held xs ++
      (addressDraws s.cfg n (s.held || !xs.isEmpty) m false ++ (writeDraws s.cfg n ds ++ rest))) :
    ∃ t, GoesOn s chain (xs.map (·.1) ++ m :: later)
        (sendPayload { completed xs with count := (completed xs).count + ds.length } ds.length es t) ∧ AtByte t ∧
      Reached s
        (exchangesDraws s.cfg n (m :: later) s.held xs ++ addressDraws s.cfg n (s.held || !xs.isEmpty) m false ++
          writeDraws s.cfg n ds)
        (exchangesTrace s.cfg n (m :: later) s.held xs ++ addressTrace s.cfg n (s.held || !xs.isEmpty) m false ++
          writeTrace s.cfg n ds) rest t := by
  obtain ⟨t, hgo, htbyte, ht⟩ := goesOn_answered (chain := chain) false hfits hlegal hready hn henv
  have hcfg := ht.frame.cfg
  obtain ⟨u, hpayload, hubyte, hu⟩ := sendPayload_acknowledged (n := n) (rest := rest) ds es (completed xs) 0 (hcfg ▸ hlegal)
    htbyte (hcfg ▸ hn) (hcfg ▸ ht.env)
  rw [hcfg] at hu
  have hwrite : transferPayload (isLastRead m later) (completed xs) m t = sendPayload (completed xs) 0 (ds ++ es) t := by
    rw [hm]; rfl
  rw [if_neg Bool.false_ne_true, hwrite, hpayload, Nat.zero_add] at hgo
  exact ⟨u, hgo, hubyte, ht.trans hu⟩

/-- The byte after received bytes of a Read message. -/
theorem goesOn_readByte {a : BitVec 7} {ns : Bool} {len : BitVec 16} {vs : List Byte} {k : Nat}
    (hfits : ∀ x ∈ xs, x.fits) (hlegal : legalConfig s.cfg = true) (hready : s.ready = true) (hn : n < pollLimit s.cfg)
    (hlen : len.toNat = vs.length + (k + 1)) (hm : m = .read a ns len)
    (henv : s.env = exchangesDraws s.cfg n (m :: later) s.held xs ++
      (addressDraws s.cfg n (s.held || !xs.isEmpty) m false ++ (readDraws s.cfg n false vs ++ rest))) :
    ∃ t, GoesOn s chain (xs.map (·.1) ++ m :: later) (receivePayload (isLastRead m later) (k + 1)
        { count := (completed xs).count + vs.length, rdata := (completed xs).rdata ++ vs } t) ∧ t.held = true ∧
      Reached s
        (exchangesDraws s.cfg n (m :: later) s.held xs ++ addressDraws s.cfg n (s.held || !xs.isEmpty) m false ++
          readDraws s.cfg n false vs)
        (exchangesTrace s.cfg n (m :: later) s.held xs ++ addressTrace s.cfg n (s.held || !xs.isEmpty) m false ++
          readTrace s.cfg n false vs) rest t := by
  obtain ⟨t, hgo, htbyte, ht⟩ := goesOn_answered (chain := chain) false hfits hlegal hready hn henv
  have hcfg := ht.frame.cfg
  obtain ⟨u, hpayload, huheld, hu⟩ := receivePayload_received (n := n) (rest := rest) (isLastRead m later) vs k (completed xs)
    (hcfg ▸ hlegal) htbyte (hcfg ▸ hn) (hcfg ▸ ht.env)
  rw [hcfg] at hu
  have hread : transferPayload (isLastRead m later) (completed xs) m t =
    receivePayload (isLastRead m later) len.toNat (completed xs) t := by rw [hm]; rfl
  rw [if_neg Bool.false_ne_true, hread, hlen, hpayload] at hgo
  exact ⟨u, hgo, huheld, ht.trans hu⟩

/-- The byte after acknowledged bytes of a Write message, nacked (R203). -/
theorem goesOn_writeNack {a : BitVec 7} {ns : Bool} {ds es : List Byte} {d : Byte} (hfits : ∀ x ∈ xs, x.fits)
    (hlegal : legalConfig s.cfg = true) (hready : s.ready = true) (hn : n < pollLimit s.cfg)
    (hm : m = .write a ns (ds ++ d :: es))
    (henv : s.env = exchangesDraws s.cfg n (m :: later) s.held xs ++
      (addressDraws s.cfg n (s.held || !xs.isEmpty) m false ++ (writeDraws s.cfg n ds ++
        (wrbyteDraws s.cfg (fun _ => n) d true ++ rest)))) :
    ∃ t, GoesOn s chain (xs.map (·.1) ++ m :: later)
        (nackExit { completed xs with count := (completed xs).count + ds.length } ds.length t : Run Progress) ∧
      t.held = true ∧
      Reached s
        (exchangesDraws s.cfg n (m :: later) s.held xs ++ addressDraws s.cfg n (s.held || !xs.isEmpty) m false ++
          writeDraws s.cfg n ds ++ wrbyteDraws s.cfg (fun _ => n) d true)
        (exchangesTrace s.cfg n (m :: later) s.held xs ++ addressTrace s.cfg n (s.held || !xs.isEmpty) m false ++
          writeTrace s.cfg n ds ++ wrbyteTrace s.cfg (fun _ => n) d true) rest t := by
  obtain ⟨t, hgo, htbyte, ht⟩ := goesOn_writeByte (chain := chain) hfits hlegal hready hn hm henv
  have hcfg := ht.frame.cfg
  rw [sendPayload, engWrbyte_succeeds (rest := rest) d (fun _ => n) true (hcfg ▸ hlegal) htbyte.held
    (fun _ _ => stretch_lt_timeout (hcfg ▸ hlegal) (hcfg ▸ hn)) (hcfg ▸ ht.env), eng_ok, Run.go_andThen, hcfg] at hgo
  exact ⟨_, hgo, rfl, ht.trans (hcfg ▸ reached_of_fields _ _ _)⟩

/-- The final STOP after exchanges that complete (R209). -/
theorem goesOn_finalStop (hfits : ∀ x ∈ xs, x.fits) (hlegal : legalConfig s.cfg = true) (hready : s.ready = true)
    (hn : n < pollLimit s.cfg) (hheld : (s.held || !xs.isEmpty) = true)
    (henv : s.env = exchangesDraws s.cfg n [] s.held xs ++ rest) :
    ∃ t, GoesOn s false (xs.map (·.1)) (eng (completed xs) (engStop t)) ∧ t.held = true ∧
      Reached s (exchangesDraws s.cfg n [] s.held xs) (exchangesTrace s.cfg n [] s.held xs) rest t := by
  obtain ⟨t, hrun, -, htheld, ht⟩ := exchanges_reach [] hfits hlegal hready hn henv
  have hgo := goesOn_runTransfer (chain := false) (msgs := xs.map (·.1)) hready
  rw [List.append_nil] at hrun
  rw [runTransfer, hrun, runMessages, Run.go_andThen, htheld, hheld] at hgo
  exact ⟨t, hgo.head, htheld.trans hheld, ht⟩

end

/-! ### Transfers that succeed (O28, O29) -/

/-- Settles O28, by the rule of a transfer on a co-operating bus (Laws/Transfer.lean). -/
theorem xferSucceeds : Obligations.XferSucceeds := by
  intro chain xs n s rest hxs hfits hlegal hready hn henv
  exact exec_xfer_ok (p := completed xs) (transfer_succeeds (n := n) chain xs s.beginCommand rest hxs hfits hlegal hready
    (stretch_lt_timeout hlegal hn) henv)

/-- Settles O29: with no message a transfer is its final STOP alone, if it has one. -/
theorem emptyXfer : Obligations.EmptyXfer := by
  intro chain s hlegal hready
  refine ⟨fun hnone => ?_, fun n rest hchain hheld hn henv => ?_⟩
  · have hstop : (!chain && s.held) = false := by rcases hnone with h | h <;> simp [h]
    have hrun : runTransfer chain [] s.beginCommand = .go ⟨0, []⟩ s.beginCommand := by
      rw [runTransfer, runMessages, Run.go_andThen, State.held_beginCommand, hstop]
      rfl
    exact exec_xfer_ok (transfer_of_go hready hrun)
  · rw [hchain]
    exact exec_xfer_stopped (p := ⟨0, []⟩) hready rfl (Reached.refl henv) hheld hlegal hn

/-! ### Transfers that are nacked (O31, O32) -/

/-- Settles O31: the nacked address byte after the exchanges, and its cleanup STOP. -/
theorem xferAddressNack : Obligations.XferAddressNack := by
  intro chain xs m later n s rest hfits hlegal hready hn draws henv
  obtain ⟨t, hgo, htbyte, ht⟩ := goesOn_answered (s := s.beginCommand) (chain := chain) (rest := stopDraws s.cfg n ++ rest)
    true hfits hlegal hready hn (henv.trans (by simp only [draws, List.append_assoc]; rfl))
  exact exec_xfer_nacked hgo ht htbyte.held hlegal hn

/-- Settles O32: the nacked byte after the acknowledged ones, and its cleanup STOP. -/
theorem xferPayloadNack : Obligations.XferPayloadNack := by
  intro chain xs a ns ds d es later n s rest hfits hlegal hready hn m draws henv
  obtain ⟨t, hgo, htheld, ht⟩ := goesOn_writeNack (s := s.beginCommand) (chain := chain)
    (rest := stopDraws s.cfg n ++ rest) hfits hlegal hready hn (m := m) rfl
    (henv.trans (by simp only [draws, List.append_assoc]; rfl))
  exact exec_xfer_nacked hgo ht htheld hlegal hn

/-! ### Transfers that fail (O33, O34, O55, O56, O57) -/

section
variable {s t : State} {ds : List Level} {es : List Event} {rest : List Level} {n : Nat} {f : FailedRun}
  (h : Reached s ds es (f.draws ++ rest) t) (hlegal : legalConfig s.cfg = true) (hn : n < pollLimit s.cfg)
include h hlegal hn

theorem Reached.stop_fails (hheld : t.held = true) (hf : f ∈ stopFailures s.cfg n) :
    engStop t = .fail f.failure (t.failedBy f rest) := by
  rw [← h.frame.cfg] at hlegal hn hf
  exact engStop_fails hlegal hheld (stretch_lt_timeout hlegal hn) hf h.env

theorem Reached.start_fails (hready : t.ready = true) (hf : f ∈ startFailures s.cfg n t.held) :
    engStart t = .fail f.failure (t.failedBy f rest) := by
  rw [← h.frame.cfg] at hlegal hn hf
  exact engStart_fails hlegal hready (stretch_lt_timeout hlegal hn) hf h.env

theorem Reached.wrbyte_fails (hheld : t.held = true) {d : Byte} (hf : f ∈ wrbyteFailures s.cfg n d) :
    engWrbyte d t = .fail f.failure (t.failedBy f rest) := by
  rw [← h.frame.cfg] at hlegal hn hf
  exact engWrbyte_fails d hlegal hheld (stretch_lt_timeout hlegal hn) hf h.env

theorem Reached.rdbyte_fails (hheld : t.held = true) {v : Byte} {sendAck : Bool}
    (hf : f ∈ rdbyteFailures s.cfg n v sendAck) : engRdbyte sendAck t = .fail f.failure (t.failedBy f rest) := by
  rw [← h.frame.cfg] at hlegal hn hf
  exact engRdbyte_fails v sendAck hlegal hheld (stretch_lt_timeout hlegal hn) hf h.env

end

/-- Settles O55: the cleanup STOP after either nack is the command that fails. -/
theorem xferCleanupStopFails : Obligations.XferCleanupStopFails := by
  intro chain xs later n s rest hfits hlegal hready hn f hf held
  constructor
  · intro m run henv
    obtain ⟨t, hgo, htbyte, ht⟩ := goesOn_answered (s := s.beginCommand) (chain := chain) (rest := f.draws ++ rest)
      true hfits hlegal hready hn (henv.trans (by simp only [run, FailedRun.after_draws, List.append_assoc]; rfl))
    rw [if_pos rfl, nackExit] at hgo
    exact exec_xfer_fails hgo.head ht (ht.stop_fails hlegal hn htbyte.held hf)
  · intro a ns ds d es m run henv
    obtain ⟨t, hgo, htheld, ht⟩ := goesOn_writeNack (s := s.beginCommand) (chain := chain) (rest := f.draws ++ rest)
      hfits hlegal hready hn (m := m) rfl
      (henv.trans (by simp only [run, FailedRun.after_draws, List.append_assoc]; rfl))
    rw [nackExit] at hgo
    exact exec_xfer_fails hgo.head ht (ht.stop_fails hlegal hn htheld hf)

/-- Settles O56: the next byte of the payload is the command that fails. -/
theorem xferPayloadByteFails : Obligations.XferPayloadByteFails := by
  intro chain xs later n s rest hfits hlegal hready hn held
  constructor
  · intro a ns ds d es f hf m run henv
    obtain ⟨t, hgo, htbyte, ht⟩ := goesOn_writeByte (s := s.beginCommand) (chain := chain) (rest := f.draws ++ rest)
      hfits hlegal hready hn (m := m) rfl
      (henv.trans (by simp only [run, FailedRun.after_draws, List.append_assoc]; rfl))
    rw [sendPayload] at hgo
    exact exec_xfer_fails hgo.head ht (ht.wrbyte_fails hlegal hn htbyte.held hf)
  · intro a ns len vs v hlen m f hf run henv
    obtain ⟨k, hk⟩ : ∃ k, len.toNat = vs.length + (k + 1) := ⟨len.toNat - vs.length - 1, by omega⟩
    obtain ⟨t, hgo, htheld, ht⟩ := goesOn_readByte (s := s.beginCommand) (chain := chain) (rest := f.draws ++ rest)
      hfits hlegal hready hn hk (m := m) rfl
      (henv.trans (by simp only [run, FailedRun.after_draws, List.append_assoc]; rfl))
    have hlastByte : (vs.length + 1 == len.toNat) = (k == 0) := by
      rw [Bool.eq_iff_iff, beq_iff_eq, beq_iff_eq]
      omega
    rw [hlastByte] at hf
    rw [receivePayload] at hgo
    exact exec_xfer_fails hgo.head ht (ht.rdbyte_fails hlegal hn htheld hf)

/-- Settles O57: the STOP before the message, its START, its address byte, or the final STOP is the command that fails. -/
theorem xferBusConditionOrAddressFails : Obligations.XferBusConditionOrAddressFails := by
  intro chain xs m later n s rest hfits hlegal hready hn held before started ends
  refine ⟨fun hheld hstop f hf henv => ?stopBefore, fun f hf henv => ?start, fun f hf henv => ?address,
    fun hchain hheld f hf henv => ?finalStop⟩
  case stopBefore =>
    obtain ⟨t, hgo, -, htheld, ht⟩ := goesOn_message (s := s.beginCommand) (chain := chain) (rest := f.draws ++ rest)
      hfits hlegal hready hn (henv.trans (by simp only [before, FailedRun.after_draws, List.append_assoc]; rfl))
    have htheld : t.held = true := htheld.trans hheld
    rw [runMessage_eq, htheld, hstop] at hgo
    exact exec_xfer_fails hgo.head ht (ht.stop_fails hlegal hn htheld hf)
  case start =>
    obtain ⟨t, hgo, htready, htheld, ht⟩ := goesOn_fromStart (s := s.beginCommand) (chain := chain) (rest := f.draws ++ rest)
      hfits hlegal hready hn (henv.trans (by simp only [started, before, FailedRun.after_draws, List.append_assoc]; rfl))
    rw [← show t.held = (held && m.noStart) from htheld] at hf
    exact exec_xfer_fails hgo.head ht (ht.start_fails hlegal hn htready hf)
  case address =>
    obtain ⟨t, hgo, htheld, ht⟩ := goesOn_fromAddress (s := s.beginCommand) (chain := chain) (rest := f.draws ++ rest)
      hfits hlegal hready hn (henv.trans (by simp only [started, before, FailedRun.after_draws, List.append_assoc]; rfl))
    exact exec_xfer_fails hgo.head ht (ht.wrbyte_fails hlegal hn htheld hf)
  case finalStop =>
    obtain ⟨t, hgo, htheld, ht⟩ := goesOn_finalStop (s := s.beginCommand) (rest := f.draws ++ rest)
      hfits hlegal hready hn hheld (henv.trans (by simp only [FailedRun.after_draws, List.append_assoc]; rfl))
    rw [hchain]
    exact exec_xfer_fails hgo ht (ht.stop_fails hlegal hn htheld hf)

/-- Settles O33: the Timeout of the cleanup STOP after an address nack, with no exchange before it. -/
theorem xferCleanupStopTimesOut : Obligations.XferCleanupStopTimesOut := by
  intro chain m later n s rest hlegal hready hn draws henv trace
  have hfails := (xferCleanupStopFails chain [] later n s rest nofun hlegal hready hn (clockTimeout s.cfg .low)
    (mem_stopFailures.2 (.inl rfl))).1 m
  simp only [List.isEmpty_nil, Bool.not_true, Bool.or_false] at hfails
  refine (hfails henv).trans ?_
  simp [State.transferFailed, clockTimeout, exchangesDraws, exchangesTrace, draws, trace, payloadTotal, bytesReturned]

/-- Settles O34: the Timeout in the first bit of the byte, with no bit before it. -/
theorem xferPayloadTimeout : Obligations.XferPayloadTimeout := by
  intro chain xs a ns ds d es later n s rest hfits hlegal hready hn m draws trace response henv
  have hrun : (clockTimeout s.cfg (bitDrive (d.getLsbD 7))).after [] [] ∈ wrbyteFailures s.cfg n d :=
    mem_wrbyteFailures.2 (.inl ⟨0, by decide, _, mem_wrbitFailures.2 (.inl rfl), rfl⟩)
  refine ((xferPayloadByteFails chain xs later n s rest hfits hlegal hready hn).1 a ns ds d es _ hrun henv).trans ?_
  simp [State.transferFailed, clockTimeout, bitDrive, draws, trace, response, m]

/-! ### The address probe (O37) -/

/-- A message without payload is over with its address byte (R208). -/
theorem transferPayload_of_len_zero {m : Message} (hm : m.len = 0) (last : Bool) (p : Progress) (s : State) :
    transferPayload last p m s = .go p s := by
  cases m with
  | write a ns payload => rw [transferPayload, List.eq_nil_of_length_eq_zero hm, sendPayload]
  | read a ns len => rw [transferPayload, show len.toNat = 0 from hm, receivePayload]

/-- Settles O37: the message without payload up to the answer to its address byte, then the cleanup STOP or the final one. -/
theorem addressProbe : Obligations.AddressProbe := by
  intro a m b nack w s rest hm hlegal hready hw hb draws henv
  obtain ⟨hlen, hnoStart⟩ : m.len = 0 ∧ m.noStart = false := by rcases hm with rfl | rfl <;> exact ⟨rfl, rfl⟩
  obtain ⟨t, hmessage, htbyte, ht⟩ := runMessage_addressed (s := s.beginCommand) (n := w 11)
    (rest := stopDraws s.cfg (w 10) ++ rest) (lastReadFrom 0 [m] == some 0) ⟨0, []⟩ m w b nack hlegal hready
    (hw 11 (by omega)) (fun j hj => hw j (by omega)) hb
    (henv.trans (by simp [draws, stopBeforeDraws, hnoStart]))
  simp only [stopBeforeDraws, stopBeforeTrace, hnoStart, Bool.not_false, Bool.and_true, Bool.and_false] at ht
  cases nack with
  | true =>
    have hgo := (goesOn_runTransfer (s := s.beginCommand) (chain := false) (msgs := [m]) hready).head.head
    rw [hmessage, if_pos rfl] at hgo
    exact exec_xfer_nacked hgo ht htbyte.held hlegal (hw 10 (by omega))
  | false =>
    rw [if_neg Bool.false_ne_true, transferPayload_of_len_zero hlen] at hmessage
    have hrun : runMessages (lastReadFrom 0 [m]) 0 ⟨0, []⟩ [m] s.beginCommand = .go ⟨0, []⟩ t := by
      rw [runMessages, hmessage, Run.go_andThen, runMessages]
    exact exec_xfer_stopped hready hrun ht htbyte.held hlegal (hw 10 (by omega))

/-! ### Refused transfers (O30) -/

/-- An engine that is not ready refuses a transfer (R211). -/
theorem transfer_of_not_ready {s : State} (chain : Bool) (msgs : List Message) (hready : s.ready = false) :
    transfer chain msgs s = ({ outcome := .illegalState }, s) := by
  rw [transfer, hready]
  simp

/-- STATUS 4, every other field 0 (R106, R265). -/
theorem toResponse_illegalState :
    Result.toResponse { outcome := .illegalState } = ⟨0x40000000#32, 0#32, 0#32, []⟩ := rfl

/-- Settles O30: a terminal engine is not ready. -/
theorem xferRefusedOnTerminalEngine : Obligations.XferRefusedOnTerminalEngine := by
  intro chain msgs s hterminal
  have hready : s.beginCommand.ready = false := by
    rcases hterminal with hbus | hbus <;> simp [State.ready, State.held, hbus]
  rw [exec_xfer, transfer_of_not_ready chain msgs hready, State.answer, toResponse_illegalState]
  rfl

/-! ### How every transfer ends (O35, O36) -/

@[simp] theorem code_eq_nack (o : CmdOutcome) : o.code = 1#4 ↔ ∃ k, o = .nack k := by cases o <;> simp [CmdOutcome.code]

/-- A transfer that is over with an engine failure ends as `ENG` does: with RESET where `DRIVER_AUTO_RESET` is set
(R204). -/
def EndsInEng (r : Result) (t : State) : Prop :=
  r.outcome = .arbitrationLost ∨ r.outcome = .timeout → ∃ u : State, t = if u.cfg.driverAutoReset then engReset u else u

/-- A run that is over is over with `EndsInEng`. -/
abbrev Run.OverInEng {α : Type} (r : Run α) : Prop := r.Ends (fun _ _ => True) EndsInEng

theorem Run.OverInEng.andThen {α β : Type} {r : Run α} {k : α → State → Run β} (h : r.OverInEng)
    (hk : ∀ a t, (k a t).OverInEng) : (r.andThen k).OverInEng := Run.Ends.andThen h fun a t _ => hk a t

theorem eng_overInEng {α : Type} (p : Progress) (r : Res α) : (eng p r).OverInEng := by
  cases r with
  | ok a t => trivial
  | fail f t =>
    cases f with
    | illegalState => rintro (h | h) <;> cases h
    | arbitrationLost => exact fun _ => ⟨t, rfl⟩
    | timeout => exact fun _ => ⟨t, rfl⟩

theorem nackExit_overInEng {α : Type} (p : Progress) (k : Nat) (s : State) : (nackExit p k s : Run α).OverInEng :=
  (eng_overInEng p (engStop s)).andThen fun _ t => by rintro (h | h) <;> cases h

theorem sendPayload_overInEng (ds : List Byte) : ∀ (p : Progress) (k : Nat) (s : State), (sendPayload p k ds s).OverInEng := by
  induction ds with
  | nil => exact fun _ _ _ => trivial
  | cons d ds ih =>
    intro p k s
    refine (eng_overInEng p (engWrbyte d s)).andThen fun ack t => ?_
    split
    · exact nackExit_overInEng p k t
    · exact ih _ _ t

theorem receivePayload_overInEng (last : Bool) (n : Nat) : ∀ (p : Progress) (s : State),
    (receivePayload last n p s).OverInEng := by
  induction n with
  | zero => exact fun _ _ => trivial
  | succ n ih => exact fun p s => (eng_overInEng p _).andThen fun _ t => ih _ t

theorem transferPayload_overInEng (last : Bool) (p : Progress) (m : Message) (s : State) :
    (transferPayload last p m s).OverInEng := by
  cases m with
  | write a ns payload => exact sendPayload_overInEng payload p 0 s
  | read a ns len => exact receivePayload_overInEng last len.toNat p s

/-- An optional STOP. -/
theorem stopIf_overInEng (c : Bool) (p : Progress) (s : State) :
    (if c then eng p (engStop s) else .go () s : Run Unit).OverInEng := by
  split
  · exact eng_overInEng p _
  · trivial

theorem runMessage_overInEng (last : Bool) (p : Progress) (m : Message) (s : State) : (runMessage last p m s).OverInEng := by
  refine (stopIf_overInEng _ p s).andThen fun _ t => (eng_overInEng p _).andThen fun _ u =>
    (eng_overInEng p _).andThen fun ack v => ?_
  split
  · exact nackExit_overInEng p 0 v
  · exact transferPayload_overInEng last p m v

theorem runMessages_overInEng (lastRead : Option Nat) (msgs : List Message) : ∀ (i : Nat) (p : Progress) (s : State),
    (runMessages lastRead i p msgs s).OverInEng := by
  induction msgs with
  | nil => exact fun _ _ _ => trivial
  | cons m msgs ih => exact fun i p s => (runMessage_overInEng _ p m s).andThen fun q t => ih _ q t

theorem transfer_endsInEng (chain : Bool) (msgs : List Message) (s : State) :
    EndsInEng (transfer chain msgs s).1 (transfer chain msgs s).2 := by
  have hrun : (runTransfer chain msgs s).OverInEng :=
    (runMessages_overInEng _ msgs 0 ⟨0, []⟩ s).andThen fun p t => (stopIf_overInEng _ p t).andThen fun _ _ => trivial
  unfold transfer
  split
  · rintro (h | h) <;> cases h
  · cases hr : runTransfer chain msgs s with
    | go p t => rintro (h | h) <;> cases h
    | ended r t => rw [hr] at hrun; exact hrun

/-- The end of a transfer that is over by an engine failure (R204, R271): reset, with the events of RESET last, or terminal. -/
theorem over_of_engineFailure {s t : State} {r : Result} (hover : Over s r t) (hends : EndsInEng r t)
    (hfailed : r.outcome = .arbitrationLost ∨ r.outcome = .timeout) :
    if s.cfg.driverAutoReset then
      t.bus = .idle ∧ t.scl = .rel ∧ t.sda = .rel ∧ t.muxCur = .unknown ∧ ∃ es, t.trace = es ++ resetTrace s.cfg
    else t.bus = (if r.outcome = .arbitrationLost then .arbitrationLost else .timedOut) ∧ t.muxCur = s.muxCur := by
  obtain ⟨hsteady, hscl, hover⟩ := hover
  have hafter : AfterEngineFailure s (if r.outcome = .arbitrationLost then .arbitrationLost else .timedOut) t := by
    rcases hfailed with hout | hout <;> simpa [hout] using hover
  unfold AfterEngineFailure at hafter
  cases hauto : s.cfg.driverAutoReset with
  | false => simpa [hauto] using hafter
  | true =>
    obtain ⟨hbus, hsda, hmux⟩ : t.bus = .idle ∧ t.sda = .rel ∧ t.muxCur = .unknown := by simpa [hauto] using hafter
    obtain ⟨u, hu⟩ := hends hfailed
    have hcfg : u.cfg = s.cfg := by
      rw [← hsteady.cfg, hu]
      split <;> rfl
    rw [hcfg, hauto, if_pos rfl] at hu
    exact ⟨hbus, hscl, hsda, hmux, u.trace, by simp [hu, engReset, releaseBus, resetTrace, hcfg]⟩

/-- Settles O35: the ends of `transfer_ends`, told apart by the status. -/
theorem xferEndState : Obligations.XferEndState := by
  intro chain msgs s t hlegal hready hidle hexec
  obtain ⟨r, u, htransfer⟩ : ∃ r u, transfer chain msgs s.beginCommand = (r, u) := ⟨_, _, rfl⟩
  have hends : EndsInEng r u := by simpa only [htransfer] using transfer_endsInEng chain msgs s.beginCommand
  rw [exec_xfer, htransfer] at hexec
  cases hexec
  simp only [answer_status, Option.some.injEq, code_eq_ok, code_eq_nack, code_eq_arbitrationLost, code_eq_timeout,
    State.answer_bus, State.answer_scl, State.answer_sda, State.answer_muxCur, State.answer_trace]
  rcases transfer_ends chain msgs s.beginCommand r u htransfer with ⟨hrefused, -⟩ | ⟨-, -, -, ⟨hok, -, -, hend⟩ | hover⟩
  · exact absurd (hready.symm.trans hrefused) (by decide)
  · refine ⟨fun _ hchain => ?_, fun _ hchain hmsgs => ?_, fun h => ?_, fun h => ?_⟩
    · rcases hend with ⟨hnone, -, hu⟩ | ⟨hchained, -⟩ | ⟨-, hu⟩
      · have hheld : s.held = false := hnone.resolve_left (by simp [hchain])
        have hbus : s.bus = .idle := by simpa [State.ready, hheld] using hready
        rw [hu]
        exact ⟨hbus, hidle hbus⟩
      · exact absurd (hchain.symm.trans hchained) (by decide)
      · exact hu
    · rcases hend with ⟨-, hempty, -⟩ | ⟨-, -, hu⟩ | ⟨hunchained, -⟩
      · exact absurd hempty hmsgs
      · exact hu
      · exact absurd (hunchained.symm.trans hchain) (by decide)
    · simp [hok] at h
    · simp [hok] at h
  · refine ⟨fun h => ?_, fun h => ?_, fun h => ?_, over_of_engineFailure (s := s.beginCommand) hover hends⟩
    · simp [Over, h] at hover
    · simp [Over, h] at hover
    · obtain ⟨k, hnack⟩ := h
      obtain ⟨-, hscl, hover⟩ := hover
      simp only [hnack] at hover
      obtain ⟨hbus, hsda, -⟩ := hover
      exact ⟨hbus, hscl, hsda⟩

/-- The payload of a message that has an encoding fits `LEN` (R102). -/
theorem len_lt_of_wellFormed {m : Message} (hm : m.wellFormed = true) : m.len < 65536 := by
  cases m with
  | write a ns payload => exact of_decide_eq_true hm
  | read a ns len => exact len.isLt

/-- `COUNT` of a transfer that has an encoding fits its response word (R101, R102, R107). -/
theorem payloadTotal_lt_of_wellFormed {msgs : List Message} (hmsgs : messagesWellFormed msgs = true) :
    payloadTotal msgs < 2 ^ 32 := by
  obtain ⟨hlength, hall⟩ : msgs.length < 256 ∧ ∀ m ∈ msgs, m.wellFormed = true := by
    simpa [messagesWellFormed] using hmsgs
  have hsum := List.sum_le_card_nsmul (msgs.map (·.len)) 65535 (by
    simp only [List.mem_map, forall_exists_index, and_imp, forall_apply_eq_imp_iff₂]
    exact fun m hm => Nat.le_of_lt_succ (len_lt_of_wellFormed (hall m hm)))
  rw [List.length_map, smul_eq_mul] at hsum
  rw [payloadTotal]
  omega

/-- Settles O36: the bounds of `transfer_ends`, which no encodable transfer exceeds in RSP1. -/
theorem xferCountIsBounded : Obligations.XferCountIsBounded := by
  intro chain msgs s t r hwellFormed hexec hresponse
  obtain ⟨q, u, htransfer⟩ : ∃ q u, transfer chain msgs s.beginCommand = (q, u) := ⟨_, _, rfl⟩
  rw [exec_xfer, htransfer] at hexec
  cases hexec
  cases hresponse
  have hlt := payloadTotal_lt_of_wellFormed hwellFormed
  have hstatus : q.toResponse.status = 0#4 ↔ q.outcome = .ok := by
    rw [← code_eq_ok]
    exact Eq.congr_left (Option.some.inj (answer_status q s))
  have hcount (hle : q.count ≤ payloadTotal msgs) : q.toResponse.count.toNat = q.count := Nat.mod_eq_of_lt (by omega)
  rw [hstatus]
  rcases transfer_ends chain msgs s.beginCommand q u htransfer with ⟨-, rfl, -⟩ | ⟨-, hle, hrdata, hend⟩
  · exact ⟨Nat.zero_le _, Nat.le_refl 0, nofun⟩
  · rw [hcount hle]
    refine ⟨hle, hrdata, fun hok => ?_⟩
    rcases hend with ⟨-, htotal, -⟩ | ⟨-, -, hover⟩
    · exact htotal
    · simp [hok] at hover

end Sys2Proof.Machine

/-! ## The mux (O39 to O43) -/

namespace Sys2Proof.Machine

/-! ### The channel table (R242) -/

/-- Every entry of a legal table is found by its index: no other entry has it (R29). -/
theorem channelFor_of_mem {c : Config} {ch : MuxChannel} (hlegal : legalConfig c = true) (hmem : ch ∈ c.channels) :
    channelFor c ch.index = some ch := by
  obtain ⟨-, -, hunique⟩ := (legalConfig_iff c).1 hlegal
  rw [uniqueIndices_iff_nodup] at hunique
  cases hfound : channelFor c ch.index with
  | none => simpa using List.find?_eq_none.1 hfound ch hmem
  | some other =>
    have hindex : other.index = ch.index := by simpa using List.find?_some hfound
    rw [List.inj_on_of_nodup_map hunique (List.mem_of_find?_eq_some hfound) hmem hindex]

theorem channelFor_eq_none_iff (c : Config) (index : Byte) :
    channelFor c index = none ↔ ∀ ch ∈ c.channels, ch.index ≠ index := by
  simp [channelFor]

section
variable {c : Byte} {ch : MuxChannel} {chain : Bool} {msgs : List Message} {s t u : State}

/-! ### MUXSEL is one transfer (R240) -/

/-- STATUS 6, every other field 0 (R106, R267). -/
theorem toResponse_invalidChannel :
    Result.toResponse { outcome := .invalidChannel } = ⟨0x60000000#32, 0#32, 0#32, []⟩ := rfl

/-- A select of an index that no channel has (R242). -/
theorem exec_muxsel_of_no_channel (hmux : s.cfg.muxPresent = true) (hnone : ∀ ch ∈ s.cfg.channels, ch.index ≠ c) :
    exec (.muxsel c) s = .next
      { s with muxCur := .unknown, trace := [], response := some ⟨0x60000000#32, 0#32, 0#32, []⟩ } := by
  have hch : channelFor s.beginCommand.cfg c = none := (channelFor_eq_none_iff s.cfg c).2 hnone
  rw [exec_muxsel, if_pos hmux, muxSelect_of_no_channel hch, State.answer, toResponse_invalidChannel]
  rfl

/-- A select of a channel answers as its transfer does, whose status decides the selection (R31, R240). -/
theorem exec_muxsel_of_channel (hmux : s.cfg.muxPresent = true) (hch : channelFor s.cfg c = some ch)
    (hxfer : exec (.xfer false [selectMessage s.cfg ch]) s = .next t) :
    exec (.muxsel c) s = .next { t with muxCur := if t.status = some 0#4 then .known c else .unknown } := by
  rw [exec_xfer] at hxfer
  cases hxfer
  rw [exec_muxsel, if_pos hmux, muxSelect_of_channel (s := s.beginCommand) hch]
  simp only [answer_status, Option.some.injEq, code_eq_ok]
  rfl

/-- STATUS of a response whose first word is 0 (R106). -/
theorem status_of_rsp0_zero {r : Response} (hresponse : t.response = some r) (hzero : r.rsp0 = 0#32) :
    t.status = some 0#4 := by
  rw [State.status, hresponse, Option.map_some, Response.status, hzero]
  rfl

/-- A select whose transfer is Ok makes its channel known (R31). -/
theorem exec_muxsel_of_channel_ok (hmux : s.cfg.muxPresent = true) (hch : channelFor s.cfg c = some ch)
    (hxfer : exec (.xfer false [selectMessage s.cfg ch]) s = .next t) (hstatus : t.status = some 0#4) :
    exec (.muxsel c) s = .next { t with muxCur := .known c } := by
  rw [exec_muxsel_of_channel hmux hch hxfer, if_pos hstatus]

/-! ### MUXXFER is MUXSEL, then XFER (R241) -/

/-- A transfer that begins at once after a command does what XFER does after that command was answered: it reads neither the
trace nor the response. -/
theorem transfer_after_answer {q : Result} (hxfer : exec (.xfer chain msgs) (s.answer q) = .next u) :
    (transfer chain msgs s).2.answer (transfer chain msgs s).1 = { u with trace := s.trace ++ u.trace } := by
  have hstate : s = (s.answer q).beginCommand.rebase true s.response s.trace := by
    simp [State.rebase, State.beginCommand, State.answer]
  have htransfer := transfer_rebase true s.response s.trace chain msgs (s.answer q).beginCommand
  rw [← hstate] at htransfer
  rw [exec_xfer] at hxfer
  cases hxfer
  rw [htransfer]
  rfl

/-- After a select that succeeds, the transfer (R241, R243). -/
theorem exec_muxxfer_of_selected (hmux : s.cfg.muxPresent = true) (hsel : exec (.muxsel c) s = .next t)
    (hstatus : t.status = some 0#4) (hxfer : exec (.xfer chain msgs) t = .next u) :
    exec (.muxxfer c chain msgs) s = .next { u with trace := t.trace ++ u.trace } := by
  rw [exec_muxsel, if_pos hmux] at hsel
  cases hsel
  have hok : (muxSelect c s.beginCommand).1.outcome = .ok := by simpa using hstatus
  rw [exec_muxxfer, if_pos hmux, muxTransfer, if_pos hok, transfer_after_answer hxfer]
  rfl

/-- A select that fails is the whole command (R241). -/
theorem exec_muxxfer_of_not_selected (hmux : s.cfg.muxPresent = true) (hsel : exec (.muxsel c) s = .next t)
    (hstatus : t.status ≠ some 0#4) : exec (.muxxfer c chain msgs) s = .next t := by
  rw [exec_muxsel, if_pos hmux] at hsel
  cases hsel
  have hfailed : (muxSelect c s.beginCommand).1.outcome ≠ .ok := by simpa using hstatus
  rw [exec_muxxfer, if_pos hmux, muxTransfer, if_neg hfailed]

end

/-- Settles O39: indices are unique, and MUXXFER ends with a select that finds no channel. -/
theorem channelLookup : Obligations.ChannelLookup := by
  intro c s hlegal hmux
  refine ⟨fun ch => channelFor_of_mem hlegal, fun hnone => ?_⟩
  have hsel := exec_muxsel_of_no_channel hmux hnone
  have hstatus : some (Response.status ⟨0x60000000#32, 0#32, 0#32, []⟩) ≠ some 0#4 := by decide
  exact ⟨hsel, fun chain msgs => exec_muxxfer_of_not_selected hmux hsel hstatus⟩

/-- Settles O40: no channel has the index, or the one that has it is found. -/
theorem muxselRule : Obligations.MuxselRule := by
  intro c s hlegal hmux
  refine ⟨exec_muxsel_of_no_channel hmux, ?_⟩
  rintro ch hmem rfl t hxfer
  exact exec_muxsel_of_channel hmux (channelFor_of_mem hlegal hmem) hxfer

/-- Settles O42: the select succeeds and the transfer follows, or the select fails and is all. -/
theorem muxxferRule : Obligations.MuxxferRule := by
  intro c chain msgs s t u hmux hsel hxfer
  split
  next hstatus => exact exec_muxxfer_of_selected hmux hsel hstatus hxfer
  next hstatus => exact exec_muxxfer_of_not_selected hmux hsel hstatus

/-! ### Mux commands on a co-operating bus (O41, O43) -/

/-- The select message with the bytes it returns, none (R240). -/
def selectExchange (c : Config) (ch : MuxChannel) : Exchange := (selectMessage c ch, [])

theorem selectExchange_draws (c : Config) (n : Nat) (held : Bool) (ch : MuxChannel) :
    transferDraws c n held false [selectExchange c ch] =
      (if held then stopDraws c n else []) ++ startDraws n false ++ wrbyteDraws c (fun _ => n) (c.muxAddr ++ 0#1) false ++
        wrbyteDraws c (fun _ => n) ch.selector false ++ stopDraws c n := by
  simp [transferDraws, exchangesDraws, exchangeDraws, payloadDraws, writeDraws, selectExchange, selectMessage,
    Message.noStart, Message.addressByte, Message.address, Message.isRead]

theorem selectExchange_trace (c : Config) (n : Nat) (held : Bool) (ch : MuxChannel) :
    transferTrace c n held false [selectExchange c ch] =
      (if held then stopTrace c n else []) ++ startTrace c false n ++ wrbyteTrace c (fun _ => n) (c.muxAddr ++ 0#1) false ++
        wrbyteTrace c (fun _ => n) ch.selector false ++ stopTrace c n := by
  simp [transferTrace, exchangesTrace, exchangeTrace, payloadTrace, writeTrace, selectExchange, selectMessage,
    Message.noStart, Message.addressByte, Message.address, Message.isRead]

section
variable {c : Byte} {ch : MuxChannel} {n : Nat} {s : State} {rest : List Level}

/-- MUXSEL where the mux chip acknowledges: the transfer of the select message, and the selection known (R240). -/
theorem exec_muxsel_acknowledged (hlegal : legalConfig s.cfg = true) (hmux : s.cfg.muxPresent = true)
    (hch : channelFor s.cfg c = some ch) (hready : s.ready = true) (hn : n < pollLimit s.cfg)
    (henv : s.env = transferDraws s.cfg n s.held false [selectExchange s.cfg ch] ++ rest) :
    exec (.muxsel c) s = .next { s with
      bus := .idle, scl := .rel, sda := .rel, muxCur := .known c, env := rest,
      draws := s.draws + (transferDraws s.cfg n s.held false [selectExchange s.cfg ch]).length,
      trace := transferTrace s.cfg n s.held false [selectExchange s.cfg ch],
      response := some ⟨0#32, 1#32, 0#32, []⟩ } := by
  have hfits : ∀ x ∈ [selectExchange s.cfg ch], x.fits := fun x hx => by rw [List.mem_singleton.1 hx]; rfl
  exact exec_muxsel_of_channel_ok hmux hch
    (xferSucceeds false [selectExchange s.cfg ch] n s rest (List.cons_ne_nil _ _) hfits hlegal hready hn henv)
    (status_of_rsp0_zero rfl rfl)

/-- XFER of any list, the empty one too, from an idle engine that has released both lines: R200 and R210 in one. -/
theorem exec_xfer_of_idle (chain : Bool) {xs : List Exchange} (hfits : ∀ x ∈ xs, x.fits)
    (hlegal : legalConfig s.cfg = true) (hbus : s.bus = .idle) (hscl : s.scl = .rel) (hsda : s.sda = .rel)
    (hn : n < pollLimit s.cfg) (henv : s.env = transferDraws s.cfg n false chain xs ++ rest) :
    exec (.xfer chain (xs.map (·.1))) s = .next { s with
      bus := if chain && !xs.isEmpty then .byteInProgress else .idle, scl := .rel, sda := .rel, env := rest,
      draws := s.draws + (transferDraws s.cfg n false chain xs).length, trace := transferTrace s.cfg n false chain xs,
      response := some ⟨0#32, BitVec.ofNat 32 (payloadTotal (xs.map (·.1))), 0#32, bytesReturned xs⟩ } := by
  have hheld : s.held = false := by simp [State.held, hbus]
  have hready : s.ready = true := by simp [State.ready, hbus]
  cases xs with
  | nil =>
    have hrest : s.env = rest := by simpa [transferDraws, exchangesDraws] using henv
    rw [List.map_nil, (emptyXfer chain s hlegal hready).1 (.inr hheld)]
    simp [transferDraws, transferTrace, exchangesDraws, exchangesTrace, payloadTotal, bytesReturned, hbus, hscl, hsda,
      ← hrest]
  | cons x xs =>
    rw [xferSucceeds chain (x :: xs) n s rest (List.cons_ne_nil x xs) hfits hlegal hready hn (hheld ▸ henv), hheld]
    simp

end

/-- Settles O41: the transfer of the select message, its draws and its trace written out. -/
theorem muxselSucceeds : Obligations.MuxselSucceeds := by
  rintro c ch n s rest hlegal hmux hmem rfl hready hn draws henv
  have hdraws : draws = transferDraws s.cfg n s.held false [selectExchange s.cfg ch] :=
    (selectExchange_draws s.cfg n s.held ch).symm
  rw [hdraws] at henv ⊢
  rw [exec_muxsel_acknowledged hlegal hmux (channelFor_of_mem hlegal hmem) hready hn henv, selectExchange_trace]

/-- Settles O43: the select leaves an idle engine, from which the transfer runs. -/
theorem muxxferSucceeds : Obligations.MuxxferSucceeds := by
  rintro c ch chain xs n s rest hlegal hmux hmem rfl hready hn hfits select draws henv
  have hsel := exec_muxsel_acknowledged hlegal hmux (channelFor_of_mem hlegal hmem) hready hn
    (henv.trans (List.append_assoc _ _ _))
  have hxfer := exec_xfer_of_idle chain (rest := rest) hfits (s := { s with
    bus := .idle, scl := .rel, sda := .rel, muxCur := .known ch.index, env := transferDraws s.cfg n false chain xs ++ rest,
    draws := s.draws + (transferDraws s.cfg n s.held false [selectExchange s.cfg ch]).length,
    trace := transferTrace s.cfg n s.held false [selectExchange s.cfg ch],
    response := some ⟨0#32, 1#32, 0#32, []⟩ }) hlegal rfl rfl rfl hn rfl
  rw [exec_muxxfer_of_selected hmux hsel (status_of_rsp0_zero rfl rfl) hxfer]
  simp only [draws, List.length_append, ← Nat.add_assoc]
  rfl

end Sys2Proof.Machine

/-! ## Failures and refusals of every command (O23 to O27) -/

namespace Sys2Proof.Machine

/-! ### Every command answers (O27) -/

/-- Every command ends with the delivery of a result (R261). -/
theorem exists_exec_eq_answer (i : Instr) (s : State) : ∃ u q, exec i s = .next (State.answer q u) := by
  have engine {α : Type} (r : Res α) (report : α → Result) :
      ∃ u q, (.next (r.complete report) : Host.Outcome State Fault Refusal) = .next (State.answer q u) := by
    cases r <;> exact ⟨_, _, rfl⟩
  cases i with
  | start => exact engine _ _
  | stop => exact engine _ _
  | wrbit b => exact engine _ _
  | rdbit => exact engine _ _
  | wrbyte d => exact engine _ _
  | rdbyte a => exact engine _ _
  | reset => exact ⟨_, _, rfl⟩
  | getstate => exact ⟨_, _, rfl⟩
  | xfer chain msgs => exact ⟨_, _, rfl⟩
  | muxsel c => rw [exec_muxsel]; split <;> exact ⟨_, _, rfl⟩
  | muxxfer c chain msgs => rw [exec_muxxfer]; split <;> exact ⟨_, _, rfl⟩

/-- The codes of R108 end with 6. -/
theorem toNat_code_le (o : CmdOutcome) : o.code.toNat ≤ 6 := by
  cases o <;> simp [CmdOutcome.code]

/-- Settles O27: every command delivers a result, whose status is the code of its outcome. -/
theorem everyCommandAnswers : Obligations.EveryCommandAnswers := by
  intro i s
  obtain ⟨u, q, hexec⟩ := exists_exec_eq_answer i s
  have hstatus : q.toResponse.status = q.outcome.code := Option.some.inj (answer_status q u)
  exact ⟨_, _, hexec, rfl, hstatus ▸ toNat_code_le q.outcome⟩

/-! ### Engines on which no transfer may begin (O25, O26) -/

/-- Stopped apart, an engine is terminal exactly if no transfer may begin on it (R211, R265). -/
theorem terminal_iff_not_ready {s : State} (hbus : s.bus ≠ .stopped) : s.terminal = true ↔ s.ready = false := by
  unfold State.terminal State.ready State.held
  cases h : s.bus <;> simp [h] at hbus ⊢

theorem not_ready_of_terminal {s : State} (hterminal : s.terminal = true) : s.ready = false :=
  (terminal_iff_not_ready fun hbus => by simp [State.terminal, hbus] at hterminal).1 hterminal

/-- A terminal state admits no engine command of the table but RESET and GETSTATE (R23, R265). -/
theorem tableNext_of_terminal {i : Instr} {s : State} (hterminal : s.terminal = true) (hreset : i ≠ .reset)
    (hgetstate : i ≠ .getstate) : tableNext i s.bus = none := by
  have hbus : s.bus = .arbitrationLost ∨ s.bus = .timedOut := by simpa [State.terminal] using hterminal
  cases i with
  | reset => exact absurd rfl hreset
  | getstate => exact absurd rfl hgetstate
  | _ => rcases hbus with hbus | hbus <;> rw [hbus] <;> rfl

/-- A select of a channel of the table, on an engine that is not ready, is refused as its transfer is (R240, R265). -/
theorem muxSelect_of_not_ready {c : Byte} {ch : MuxChannel} {s : State} (hch : channelFor s.cfg c = some ch)
    (hready : s.ready = false) : muxSelect c s = ({ outcome := .illegalState }, s.setMux .unknown) := by
  rw [muxSelect_of_channel hch, transfer_of_not_ready _ _ hready]
  rfl

/-- A select on an engine that is not ready is refused, by the channel table or by the engine (R240, R242). -/
theorem muxSelect_refuses {s : State} (c : Byte) (hready : s.ready = false) : (muxSelect c s).1.outcome.Refuses := by
  cases hch : channelFor s.cfg c with
  | none => rw [muxSelect_of_no_channel hch]; exact .inr (.inr rfl)
  | some ch => rw [muxSelect_of_not_ready hch hready]; exact .inl rfl

/-- MUXXFER on an engine that is not ready ends with its select (R241). -/
theorem muxTransfer_of_not_ready {s : State} (c : Byte) (chain : Bool) (msgs : List Message) (hready : s.ready = false) :
    muxTransfer c chain msgs s = muxSelect c s := by
  rw [muxTransfer, if_neg (muxSelect_refuses c hready).ne_ok]

/-- Every command but RESET and GETSTATE is refused in a terminal state (R265, R268). -/
theorem refused_of_terminal {i : Instr} {s t : State} (hterminal : s.terminal = true) (hreset : i ≠ .reset)
    (hgetstate : i ≠ .getstate) (hexec : exec i s = .next t) : t.Refused := by
  have hready : s.beginCommand.ready = false := not_ready_of_terminal hterminal
  have mux {r : Result × State} (hr : r.1.outcome.Refuses) :
      State.Refused (if s.cfg.muxPresent then r.2.answer r.1 else refuseMalformed s) := by
    split
    · exact (answer_refused _ _).2 hr
    · exact .inr (.inl (refuseMalformed_status s))
  cases htable : inTable i with
  | true =>
    rw [(stateMachineTable i s t htable hexec).1 (tableNext_of_terminal hterminal hreset hgetstate)]
    exact .inl rfl
  | false =>
    cases i with
    | xfer chain msgs =>
      rw [exec_xfer, transfer_of_not_ready chain msgs hready] at hexec
      cases hexec
      exact (answer_refused _ _).2 (.inl rfl)
    | muxsel c => rw [exec_muxsel] at hexec; cases hexec; exact mux (muxSelect_refuses c hready)
    | muxxfer c chain msgs =>
      rw [exec_muxxfer, muxTransfer_of_not_ready c chain msgs hready] at hexec
      cases hexec
      exact mux (muxSelect_refuses c hready)
    | _ => cases htable

/-- Settles O26: in a terminal state every command but RESET is refused or is GETSTATE, and such commands have no events
(O10). -/
theorem onlyResetLeavesTerminal : Obligations.OnlyResetLeavesTerminal := by
  intro i s t hterminal hexec
  refine ⟨fun hreset => ?_, ?_⟩
  · have hquiet : i = .getstate ∨ t.Refused :=
      or_iff_not_imp_left.2 fun hgetstate => refused_of_terminal hterminal hreset hgetstate hexec
    obtain ⟨htrace, hbus, hscl, hsda, -⟩ := refusedCommandsHaveNoEvents i s t hexec hquiet
    exact ⟨hbus, hscl, hsda, htrace⟩
  · rintro rfl
    rw [exec_reset] at hexec
    cases hexec
    exact ⟨rfl, rfl, rfl, rfl, by simp [Result.success]⟩

/-- A select reports IllegalState only where its transfer does, on an engine that is not ready. -/
theorem not_ready_of_muxSelect {c : Byte} {s : State} (hillegal : (muxSelect c s).1.outcome = .illegalState) :
    s.ready = false := by
  cases hch : channelFor s.cfg c with
  | none => rw [muxSelect_of_no_channel hch] at hillegal; cases hillegal
  | some ch =>
    rw [muxSelect_of_channel hch] at hillegal
    exact (transfer_of_refuses (.inl hillegal)).1

/-- So does MUXXFER: the transfer after a successful select begins on an idle engine. -/
theorem not_ready_of_muxTransfer {c : Byte} {chain : Bool} {msgs : List Message} {s : State}
    (hillegal : (muxTransfer c chain msgs s).1.outcome = .illegalState) : s.ready = false := by
  by_cases hok : (muxSelect c s).1.outcome = .ok
  · rw [muxTransfer, if_pos hok] at hillegal
    simpa [State.ready, muxSelect_bus_of_ok hok] using (transfer_of_refuses (.inl hillegal)).1
  · rw [muxTransfer, if_neg hok] at hillegal
    exact not_ready_of_muxSelect hillegal

/-- A command of the table reports IllegalState only in an ILL cell (R23). -/
theorem illCell_of_illegalState {i : Instr} {s t : State} (htable : inTable i = true) (hexec : exec i s = .next t)
    (hstatus : t.status = some 4#4) : tableNext i s.bus = none := by
  cases hnext : tableNext i s.bus with
  | none => rfl
  | some b =>
    rcases (stateMachineTable i s t htable hexec).2 b hnext with ⟨hother, -⟩ | ⟨-, -, ⟨hother, -⟩ | ⟨hother, -⟩⟩ <;>
      exact absurd (hother.symm.trans hstatus) (by decide)

/-- The delivery of IllegalState: STATUS 4, every other field 0 (R106, R265). -/
theorem answer_illegalState (s : State) :
    s.answer { outcome := .illegalState } = { s with response := some (statusOnly 4#4) } := by
  rw [State.answer, toResponse_illegalState]
  rfl

/-- Settles O25: the commands of the table by their cells, the others because an engine that is not ready is terminal. -/
theorem illegalStateExactlyWhereNotAdmitted : Obligations.IllegalStateExactlyWhereNotAdmitted := by
  intro i s hbus refused
  have hterminal : s.terminal = true ↔ s.beginCommand.ready = false := terminal_iff_not_ready hbus
  refine ⟨fun htable => ⟨exec_of_illCell htable, fun t => illCell_of_illegalState htable⟩, ?xfer, ?mux⟩
  case xfer =>
    rintro chain msgs rfl
    refine ⟨fun h => ?_, fun t hexec hstatus => hterminal.2 ?_⟩
    · rw [exec_xfer, transfer_of_not_ready chain msgs (hterminal.1 h), answer_illegalState]
      rfl
    · rw [exec_xfer] at hexec
      cases hexec
      exact (transfer_of_refuses (.inl (by simpa using hstatus))).1
  case mux =>
    intro c hi hmux hmem
    obtain ⟨ch, hch⟩ : ∃ ch, channelFor s.cfg c = some ch := by
      rw [← Option.ne_none_iff_exists', Ne, channelFor_eq_none_iff]
      simpa using hmem
    have hselect (h : s.terminal = true) : muxSelect c s.beginCommand = _ :=
      muxSelect_of_not_ready (s := s.beginCommand) hch (hterminal.1 h)
    rcases hi with rfl | ⟨chain, msgs, rfl⟩
    · refine ⟨fun h => ?_, fun t hexec hstatus => hterminal.2 ?_⟩
      · rw [exec_muxsel, if_pos hmux, hselect h, answer_illegalState]
        rfl
      · rw [exec_muxsel, if_pos hmux] at hexec
        cases hexec
        exact not_ready_of_muxSelect (by simpa using hstatus)
    · refine ⟨fun h => ?_, fun t hexec hstatus => hterminal.2 ?_⟩
      · rw [exec_muxxfer, if_pos hmux, muxTransfer_of_not_ready c chain msgs (hterminal.1 h), hselect h,
          answer_illegalState]
        rfl
      · rw [exec_muxxfer, if_pos hmux] at hexec
        cases hexec
        exact not_ready_of_muxTransfer (by simpa using hstatus)

/-! ### How an engine command fails (O23, O24) -/

section
variable {α β : Type}

theorem Res.Ends.and {r : Res α} {Q Q' : α → State → Prop} {F F' : Failure → State → Prop} (h : r.Ends Q F)
    (h' : r.Ends Q' F') : r.Ends (fun a t => Q a t ∧ Q' a t) fun f t => F f t ∧ F' f t := by
  cases r <;> exact ⟨h, h'⟩

/-- A failure is precise (R263, R264, R271): ArbitrationLost comes right after a sample of SDA that disagrees with the drive,
and Timeout, in a legal configuration, after the release of SCL and exactly `POLL_LIMIT` low polls. -/
def Failure.Precise (f : Failure) (t : State) : Prop :=
  match f with
  | .arbitrationLost => ∃ u : State, t = (u.sampled .sda).setBus .arbitrationLost ∧ u.sense .sda = (u.sda == .low)
  | .timeout => legalConfig t.cfg = true → ∃ u : State, t = (u.setLine .scl .rel).waitedOut (pollLimit t.cfg)
  | .illegalState => True

/-- Where the engine command fails, its failure is precise. -/
abbrev Res.FailsPrecisely (r : Res α) : Prop := r.Ends (fun _ _ => True) Failure.Precise

theorem Res.FailsPrecisely.andThen {r : Res α} {k : α → State → Res β} (h : r.FailsPrecisely)
    (hk : ∀ a t, (k a t).FailsPrecisely) : (r.andThen k).FailsPrecisely := Res.Ends.andThen h fun a t _ => hk a t

end

/-- A low poll before a wait that runs out. -/
theorem State.waitedOut_succ {s : State} (m : Nat) (hlow : s.sense .scl = false) :
    ((s.sampled .scl).delay s.cfg.pollInterval).waitedOut m = s.waitedOut (m + 1) := by
  simp [State.sampled, State.drawn, State.note, State.delay, State.waitedOut, lowTrace, hlow]
  omega

/-- A wait that has `m` polls left of its `POLL_LIMIT` fails after exactly that many (R64, R66). -/
theorem waitLoop_fails_at_pollLimit (fuel : Nat) : ∀ (k m : Nat) (s : State), 1 ≤ s.cfg.pollInterval →
    pollLimit s.cfg = k + m → m ≤ fuel →
    (waitLoop fuel k s).Ends (fun _ _ => True) fun _ t => t = s.waitedOut m := by
  have out (s : State) : s.afterFailure .timeout = s.waitedOut 0 := by
    simp [State.afterFailure, State.setBus, State.waitedOut, lowTrace]
  induction fuel with
  | zero =>
    intro k m s _ _ hm
    obtain rfl : m = 0 := Nat.le_zero.1 hm
    exact out s
  | succ fuel ih =>
    intro k m s hinterval hlimit hm
    have hpolls := lt_pollLimit hinterval k
    unfold waitLoop
    split
    next hbudget =>
      obtain rfl : m = 0 := by omega
      exact out s
    next hbudget =>
      split
      next => trivial
      next hlow =>
        obtain ⟨m, rfl⟩ : ∃ n, m = n + 1 := Nat.exists_eq_succ_of_ne_zero (by omega)
        rw [← s.waitedOut_succ m (Bool.eq_false_iff.2 hlow)]
        exact ih (k + 1) m _ hinterval (by rw [← Nat.add_assoc, Nat.add_right_comm] at hlimit; exact hlimit) (by omega)

/-- The fuel of `WaitSclHigh` lasts for `POLL_LIMIT` polls (R29, R66). -/
theorem pollLimit_le_timeout {c : Config} (hinterval : 1 ≤ c.pollInterval) : pollLimit c ≤ c.timeout := by
  by_contra h
  have hlt := (lt_pollLimit hinterval c.timeout).1 (by omega)
  have hle := Nat.le_mul_of_pos_right c.timeout hinterval
  omega

/-- `WaitSclHigh`, right after the release of SCL, fails precisely (R64). -/
theorem waitSclHigh_fails {s : State} (hrise : ∃ u : State, s = u.setLine .scl .rel) :
    (waitSclHigh s).Ends (fun _ t => ∃ m, t = s.waited m) Failure.Precise := by
  obtain ⟨u, hu⟩ := hrise
  by_cases hinterval : 1 ≤ s.cfg.pollInterval
  · refine ((waitSclHigh_ends s).and (waitLoop_fails_at_pollLimit _ 0 _ s hinterval (Nat.zero_add _).symm
      (pollLimit_le_timeout hinterval))).mono (fun _ _ h => h.1) ?_
    rintro f t ⟨⟨rfl, -⟩, rfl⟩
    exact fun _ => ⟨u, hu ▸ rfl⟩
  · refine (waitSclHigh_ends s).mono (fun _ _ h => h) ?_
    rintro f t ⟨rfl, m, rfl⟩ hlegal
    obtain ⟨-, hpositive, -⟩ := (legalConfig_iff _).1 hlegal
    exact absurd hpositive hinterval

/-- START releases SCL right before its wait (R141). -/
theorem State.raiseBoth_rises (s : State) : ∃ u : State, s.raiseBoth = u.setLine .scl .rel := ⟨_, rfl⟩

/-- So do STOP and the bit commands (R142, R160, R161). -/
theorem State.raiseClock_rises (d : Drive) (s : State) : ∃ u : State, s.raiseClock d = u.setLine .scl .rel := ⟨_, rfl⟩

/-- A check that finds a released SDA low loses the arbitration precisely (R263). -/
theorem lost_of_released_low {α : Type} {u : State} (hsda : u.sda = .rel) (hlow : u.sense .sda = false) :
    (failWith .arbitrationLost (u.sampled .sda) : Res α).FailsPrecisely :=
  ⟨u, rfl, by rw [hlow, hsda]; rfl⟩

theorem engStart_failsPrecisely (s : State) : (engStart s).FailsPrecisely := by
  unfold engStart
  split
  · trivial
  refine (waitSclHigh_fails s.raiseBoth_rises).andThen ?_
  rintro _ t ⟨m, rfl⟩
  split
  next hcheck => exact lost_of_released_low s.raiseBoth_sda (by simpa using hcheck)
  dsimp only
  split
  next hcheck => exact ⟨_, rfl, hcheck⟩
  · trivial

theorem engStop_failsPrecisely (s : State) : (engStop s).FailsPrecisely := by
  unfold engStop
  split
  · trivial
  refine (waitSclHigh_fails (s.raiseClock_rises _)).andThen ?_
  rintro _ t ⟨m, rfl⟩
  dsimp only
  split
  · split
    next hcheck => exact lost_of_released_low rfl (by simpa using hcheck)
    · trivial
  · trivial

theorem engWrbit_failsPrecisely (b : Level) (s : State) : (engWrbit b s).FailsPrecisely := by
  unfold engWrbit
  split
  · trivial
  refine (waitSclHigh_fails (s.raiseClock_rises _)).andThen ?_
  rintro _ t ⟨m, rfl⟩
  split
  next hcheck =>
    obtain ⟨rfl, -⟩ : b = true ∧ _ := by simpa using hcheck
    split
    next hlow => exact lost_of_released_low rfl (by simpa using hlow)
    · trivial
  · trivial

theorem engRdbit_failsPrecisely (s : State) : (engRdbit s).FailsPrecisely := by
  unfold engRdbit
  split
  · trivial
  · exact (waitSclHigh_fails (s.raiseClock_rises _)).andThen fun _ _ _ => trivial

theorem sendBits_failsPrecisely (bits : List Level) : ∀ s : State, (sendBits bits s).FailsPrecisely := by
  induction bits with
  | nil => exact fun _ => trivial
  | cons b bits ih => exact fun s => (engWrbit_failsPrecisely b s).andThen fun _ t => ih t

theorem receiveBits_failsPrecisely (n : Nat) : ∀ (v : Byte) (s : State), (receiveBits n v s).FailsPrecisely := by
  induction n with
  | zero => exact fun _ _ => trivial
  | succ n ih => exact fun v s => (engRdbit_failsPrecisely s).andThen fun _ t => ih _ t

theorem engWrbyte_failsPrecisely (d : Byte) (s : State) : (engWrbyte d s).FailsPrecisely := by
  unfold engWrbyte
  split
  · trivial
  · exact (sendBits_failsPrecisely _ s).andThen fun _ t => (engRdbit_failsPrecisely t).andThen fun _ _ => trivial

theorem engRdbyte_failsPrecisely (a : Bool) (s : State) : (engRdbyte a s).FailsPrecisely := by
  unfold engRdbyte
  split
  · trivial
  · exact (receiveBits_failsPrecisely 8 _ s).andThen fun _ t => (engWrbit_failsPrecisely _ t).andThen fun _ _ => trivial

theorem Failure.code_ne_ok (f : Failure) : f.outcome.code ≠ 0#4 := by cases f <;> decide

theorem Failure.eq_of_code_eq {f g : Failure} (h : g.outcome.code = f.outcome.code) : g = f := by
  cases g <;> cases f <;> simp [Failure.outcome, CmdOutcome.code] at h ⊢

/-- No success is reported with the status of a failure (R108). -/
theorem status_ne_of_ok {r : Result} (hok : r.outcome = .ok) (f : Failure) (u : State) :
    (u.answer r).status ≠ some f.outcome.code := by
  rw [answer_status, hok]
  exact fun h => f.code_ne_ok (Option.some.inj h).symm

/-- An engine command of the host that reports a failure has failed with it. -/
theorem failed_of_complete {α : Type} {r : Res α} {report : α → Result} {Q : α → State → Prop}
    {F : Failure → State → Prop} {f : Failure} (hends : r.Ends Q F) (hreport : ∀ a, (report a).outcome = .ok)
    (hstatus : (r.complete report).status = some f.outcome.code) :
    ∃ u, F f u ∧ r.complete report = State.answer (Result.failed f) u := by
  cases r with
  | ok a u => exact absurd hstatus (status_ne_of_ok (hreport a) f u)
  | fail g u =>
    obtain rfl : g = f := Failure.eq_of_code_eq (Option.some.inj ((answer_status (Result.failed g) u).symm.trans hstatus))
    exact ⟨u, hends, rfl⟩

/-- A failure that a command of the table reports is precise. -/
theorem precise_of_exec {i : Instr} {s t : State} {f : Failure} (htable : inTable i = true) (hexec : exec i s = .next t)
    (hstatus : t.status = some f.outcome.code) : ∃ u, f.Precise u ∧ t = State.answer (Result.failed f) u := by
  cases i with
  | start =>
    rw [exec_start] at hexec; cases hexec
    exact failed_of_complete (engStart_failsPrecisely _) (fun _ => rfl) hstatus
  | stop =>
    rw [exec_stop] at hexec; cases hexec
    exact failed_of_complete (engStop_failsPrecisely _) (fun _ => rfl) hstatus
  | wrbit b =>
    rw [exec_wrbit] at hexec; cases hexec
    exact failed_of_complete (engWrbit_failsPrecisely b _) (fun _ => rfl) hstatus
  | rdbit =>
    rw [exec_rdbit] at hexec; cases hexec
    exact failed_of_complete (engRdbit_failsPrecisely _) (fun _ => rfl) hstatus
  | wrbyte d =>
    rw [exec_wrbyte] at hexec; cases hexec
    exact failed_of_complete (engWrbyte_failsPrecisely d _) (fun _ => rfl) hstatus
  | rdbyte a =>
    rw [exec_rdbyte] at hexec; cases hexec
    exact failed_of_complete (engRdbyte_failsPrecisely a _) (fun _ => rfl) hstatus
  | reset => rw [exec_reset] at hexec; cases hexec; exact absurd hstatus (status_ne_of_ok rfl f _)
  | getstate => rw [exec_getstate] at hexec; cases hexec; exact absurd hstatus (status_ne_of_ok rfl f _)
  | xfer chain msgs => cases htable
  | muxsel c => cases htable
  | muxxfer c chain msgs => cases htable

/-- Settles O24: the precise failure of the command, its bus state and the end of its trace. -/
theorem engineFailuresArePrecise : Obligations.EngineFailuresArePrecise := by
  intro i s t hlegal htable hexec
  obtain ⟨hcfg, -⟩ := configurationIsNeverWritten i s t hexec
  refine ⟨fun hstatus => ?_, fun hstatus => ?_⟩
  · obtain ⟨_, ⟨u, rfl, -⟩, rfl⟩ := precise_of_exec (f := .arbitrationLost) htable hexec hstatus
    exact ⟨rfl, u.trace, _, rfl⟩
  · obtain ⟨w, hprecise, rfl⟩ := precise_of_exec (f := .timeout) htable hexec hstatus
    have hcfg : w.cfg = s.cfg := hcfg
    obtain ⟨u, hu⟩ := hprecise (hcfg ▸ hlegal)
    have hucfg : u.cfg = s.cfg := by rw [← hcfg, hu]; rfl
    rw [hcfg] at hu
    exact ⟨by rw [hu]; rfl, u.trace, by simp [hu, hucfg]⟩

/-- A pulled SDA that reads high, the check of START that compares (R141), can fail only without readback (R62). -/
theorem readback_of_precise {t : State} (hprecise : Failure.Precise .arbitrationLost t) (hsda : t.sda = .low) :
    t.cfg.openDrainReadback = false := by
  obtain ⟨u, rfl, hsense⟩ := hprecise
  have hpulled : u.sda = .low := hsda
  by_contra hreadback
  rw [u.sense_pulled .sda hpulled (by simpa using hreadback), hpulled] at hsense
  cases hsense

/-- Settles O23: the check that failed, from what each command says of its own failures. -/
theorem arbitrationLostOnlyAtChecks : Obligations.ArbitrationLostOnlyAtChecks := by
  intro i s t htable hexec hstatus
  obtain ⟨hcfg, -⟩ := configurationIsNeverWritten i s t hexec
  obtain ⟨u, hprecise, ht⟩ := precise_of_exec (f := .arbitrationLost) htable hexec hstatus
  cases i with
  | start =>
    intro hsda
    rw [← hcfg]
    rw [ht] at hsda ⊢
    exact readback_of_precise (t := u) hprecise hsda
  | stop =>
    rw [exec_stop] at hexec; cases hexec
    obtain ⟨_, ⟨-, -, hlost⟩, -⟩ :=
      failed_of_complete (f := .arbitrationLost) (engStop_ends _) (fun _ => rfl) hstatus
    exact hlost rfl
  | wrbit b =>
    rw [exec_wrbit] at hexec; cases hexec
    obtain ⟨_, ⟨-, -, hlost, -⟩, -⟩ :=
      failed_of_complete (f := .arbitrationLost) (engWrbit_ends b _) (fun _ => rfl) hstatus
    exact hlost rfl
  | wrbyte d =>
    rw [exec_wrbyte] at hexec; cases hexec
    obtain ⟨_, ⟨-, -, hlost, -⟩, -⟩ :=
      failed_of_complete (f := .arbitrationLost) (engWrbyte_ends d _) (fun _ => rfl) hstatus
    obtain ⟨hbit, hcheck⟩ := hlost rfl
    exact ⟨fun hzero => absurd (hzero ▸ hbit) (by decide), hcheck⟩
  | rdbyte a =>
    rw [exec_rdbyte] at hexec; cases hexec
    obtain ⟨_, ⟨-, -, hlost, -⟩, -⟩ :=
      failed_of_complete (f := .arbitrationLost) (engRdbyte_ends a _) (fun _ => rfl) hstatus
    exact hlost rfl
  | rdbit => exact exec_rdbit_status_ne hexec hstatus
  | reset => rw [exec_reset] at hexec; cases hexec; exact status_ne_of_ok rfl .arbitrationLost _ hstatus
  | getstate => rw [exec_getstate] at hexec; cases hexec; exact status_ne_of_ok rfl .arbitrationLost _ hstatus
  | xfer chain msgs => cases htable
  | muxsel c => cases htable
  | muxxfer c chain msgs => cases htable

end Sys2Proof.Machine

/-! ## The time of a command (O13) -/

namespace Sys2Proof.Machine

/-- The events take `n` ticks and one poll interval more for each low poll of the clock (R311). -/
def Lasts (c : Config) (n : Nat) (es : List Event) : Prop := ticks es = n + lowPolls es * c.pollInterval

theorem Lasts.append {c : Config} {m n : Nat} {es fs : List Event} (h : Lasts c m es) (k : Lasts c n fs) :
    Lasts c (m + n) (es ++ fs) := by
  unfold Lasts at *
  rw [ticks_append, lowPolls_append, h, k, Nat.add_mul]
  omega

/-- A wait takes no time but that of its low polls (R64, R66). -/
theorem lasts_stretchTrace (c : Config) (n : Nat) : Lasts c 0 (stretchTrace c n) := by
  simp [Lasts, stretchTrace, ticks_append, lowPolls_append, ticks, lowPolls]

/-- The head of STOP and of a bit cycle: SCL low, then SDA, each with its rise or fall. -/
theorem lasts_riseTrace (c : Config) (d : Drive) : Lasts c (2 * c.riseFallDelay) (riseTrace c d) := by
  simp [Lasts, ticks, lowPolls, Nat.two_mul]

/-- A repeated START pulls SCL low first, for one rise or fall more than a first one (R141). -/
theorem lasts_startTrace (c : Config) (repeated : Bool) (n : Nat) : Lasts c
    ((if repeated then 3 * c.riseFallDelay else 2 * c.riseFallDelay) + c.holdDelay) (startTrace c repeated n) := by
  have hhead : Lasts c (if repeated then 2 * c.riseFallDelay else c.riseFallDelay) (startHead c repeated) := by
    cases repeated <;> simp [Lasts, startHead, ticks, lowPolls, Nat.two_mul]
  have htail : Lasts c (c.riseFallDelay + c.holdDelay)
      [.get .sda true, .set .sda .low, .wait c.riseFallDelay, .get .sda false, .wait c.holdDelay] := by
    simp [Lasts, ticks, lowPolls]
  have hsum : (if repeated then 2 * c.riseFallDelay else c.riseFallDelay) + 0 + (c.riseFallDelay + c.holdDelay) =
      (if repeated then 3 * c.riseFallDelay else 2 * c.riseFallDelay) + c.holdDelay := by
    split <;> omega
  exact hsum ▸ (hhead.append (lasts_stretchTrace c n)).append htail

theorem lasts_stopTrace (c : Config) (n : Nat) : Lasts c (3 * c.riseFallDelay + c.holdDelay) (stopTrace c n) := by
  have hrelease : Lasts c (c.holdDelay + c.riseFallDelay)
      [.wait c.holdDelay, .set .sda .rel, .wait c.riseFallDelay] := by
    simp [Lasts, ticks, lowPolls]
  have hcheck : Lasts c 0 (if c.arbCheckData then [.get .sda true] else []) := by
    split <;> simp [Lasts, ticks, lowPolls]
  have hsum : 2 * c.riseFallDelay + 0 + (c.holdDelay + c.riseFallDelay) + 0 = 3 * c.riseFallDelay + c.holdDelay := by
    omega
  exact hsum ▸ (((lasts_riseTrace c .low).append (lasts_stretchTrace c n)).append hrelease).append hcheck

theorem lasts_wrbitTrace (c : Config) (n : Nat) (b : Level) :
    Lasts c (2 * c.riseFallDelay + c.holdDelay) (wrbitTrace c n b) := by
  have hcheck : Lasts c 0 (if b && c.arbCheckData then [.get .sda true] else []) := by
    split <;> simp [Lasts, ticks, lowPolls]
  have hhold : Lasts c c.holdDelay [.wait c.holdDelay] := by simp [Lasts, ticks, lowPolls]
  exact (((lasts_riseTrace c (bitDrive b)).append (lasts_stretchTrace c n)).append hcheck).append hhold

theorem lasts_rdbitTrace (c : Config) (n : Nat) (v : Level) :
    Lasts c (2 * c.riseFallDelay + c.holdDelay) (rdbitTrace c n v) := by
  have hsample : Lasts c c.holdDelay [.get .sda v, .wait c.holdDelay] := by simp [Lasts, ticks, lowPolls]
  exact ((lasts_riseTrace c .rel).append (lasts_stretchTrace c n)).append hsample

/-- Events of one duration for each element of a list take that duration times the length of the list. -/
theorem Lasts.flatMap {α : Type} {c : Config} {n : Nat} {f : α → List Event} (h : ∀ a, Lasts c n (f a)) (as : List α) :
    Lasts c (as.length * n) (as.flatMap f) := by
  induction as with
  | nil => simp [Lasts, ticks, lowPolls]
  | cons a as ih => simpa [Nat.succ_mul, Nat.add_comm] using (h a).append ih

theorem lasts_sendTrace (c : Config) (ps : List (Nat × Level)) :
    Lasts c (ps.length * (2 * c.riseFallDelay + c.holdDelay)) (sendTrace c ps) :=
  Lasts.flatMap (f := fun p => wrbitTrace c p.1 p.2) (fun p => lasts_wrbitTrace c p.1 p.2) ps

theorem lasts_receiveTrace (c : Config) (ps : List (Nat × Level)) :
    Lasts c (ps.length * (2 * c.riseFallDelay + c.holdDelay)) (receiveTrace c ps) :=
  Lasts.flatMap (f := fun p => rdbitTrace c p.1 p.2) (fun p => lasts_rdbitTrace c p.1 p.2) ps

/-- Settles O13: the trace of a command that succeeds is known, and so is how long it lasts. -/
theorem delaySums : Obligations.DelaySums := by
  intro i s t hexec hstatus
  cases i with
  | start =>
    rw [exec_start] at hexec; cases hexec
    obtain ⟨-, u, ⟨hready, -, -, -, -, m, hu⟩, htrace⟩ := trace_of_complete_ok (engStart_ends _) hstatus
    have hlasts := lasts_startTrace s.cfg s.held m
    rw [htrace, hu]
    rcases ready_cases s hready with ⟨hbus, hheld⟩ | ⟨hbus, hheld⟩
    · simpa [Lasts, hbus, hheld] using hlasts
    · simpa [Lasts, hbus, hheld] using hlasts
  | stop =>
    rw [exec_stop] at hexec; cases hexec
    obtain ⟨-, u, ⟨-, -, -, -, -, m, hu⟩, htrace⟩ := trace_of_complete_ok (engStop_ends _) hstatus
    rw [htrace, hu]
    exact lasts_stopTrace s.cfg m
  | wrbit b =>
    rw [exec_wrbit] at hexec; cases hexec
    obtain ⟨-, u, ⟨-, -, -, -, -, m, hu⟩, htrace⟩ := trace_of_complete_ok (engWrbit_ends b _) hstatus
    rw [htrace, hu]
    exact lasts_wrbitTrace s.cfg m b
  | rdbit =>
    rw [exec_rdbit] at hexec; cases hexec
    obtain ⟨v, u, ⟨-, -, -, -, -, m, hu⟩, htrace⟩ := trace_of_complete_ok (engRdbit_ends _) hstatus
    rw [htrace, hu]
    exact lasts_rdbitTrace s.cfg m v
  | wrbyte d =>
    rw [exec_wrbyte] at hexec; cases hexec
    obtain ⟨ack, u, ⟨-, -, -, -, -, ps, m, hbits, hu⟩, htrace⟩ := trace_of_complete_ok (engWrbyte_ends d _) hstatus
    have hlength : ps.length = 8 := by simpa [bitsMsbFirst] using congrArg List.length hbits
    have hlasts := (lasts_sendTrace s.cfg ps).append (lasts_rdbitTrace s.cfg m (!ack))
    rw [hlength, ← Nat.succ_mul] at hlasts
    rw [htrace, hu]
    exact hlasts
  | rdbyte a =>
    rw [exec_rdbyte] at hexec; cases hexec
    obtain ⟨v, u, ⟨-, -, -, -, -, ps, m, hlength, -, hu⟩, htrace⟩ := trace_of_complete_ok (engRdbyte_ends a _) hstatus
    have hlasts := (lasts_receiveTrace s.cfg ps).append (lasts_wrbitTrace s.cfg m (!a))
    rw [hlength, ← Nat.succ_mul] at hlasts
    rw [htrace, hu]
    exact hlasts
  | reset =>
    rw [exec_reset] at hexec; cases hexec
    exact (Nat.two_mul s.cfg.riseFallDelay).symm
  | getstate => rw [exec_getstate] at hexec; cases hexec; rfl
  | xfer chain msgs => trivial
  | muxsel c => trivial
  | muxxfer c chain msgs => trivial

end Sys2Proof.Machine
